-- ==== Sys2Proof/Word.lean ====
section
/-! DEFINITION. The widths of the machine's values (spec/00_scope.md rules R5, R7). All values are unsigned. -/

namespace Sys2Proof

/-- A byte of memory, a general register, `DT`, `ST`, the immediate `kk` (R5). -/
abbrev Byte := BitVec 8

/-- A four-bit field of an instruction word (R61). -/
abbrev Nibble := BitVec 4

/-- The twelve-bit immediate `nnn` (R61). -/
abbrev Addr12 := BitVec 12

/-- An instruction word, `I`, `PC`, a stack entry (R5). -/
abbrev Word := BitVec 16

/-- A general register's number, `V0` to `VF` (R11). -/
abbrev RegIdx := Fin 16

end Sys2Proof
end

