-- ==== Sys2Proof/Syntax.lean ====
section
/-! DEFINITION. The instructions: one constructor for each of the 35 rows of spec/opcode_table.json
(spec/30_encoding.md rule R64), in the table's order, with the operand fields of the row. -/

namespace Sys2Proof

/-- The base CHIP-8 instruction set (R1, R64). `x` and `y` are register numbers, `kk` and `nnn` immediates, `n` a
count of sprite rows (R61, R63). -/
inductive Instr where
  /-- `00E0` CLS -/
  | cls
  /-- `00EE` RET -/
  | ret
  /-- `1nnn` JP addr -/
  | jp (nnn : Addr12)
  /-- `2nnn` CALL addr -/
  | call (nnn : Addr12)
  /-- `3xkk` SE Vx,byte -/
  | seByte (x : RegIdx) (kk : Byte)
  /-- `4xkk` SNE Vx,byte -/
  | sneByte (x : RegIdx) (kk : Byte)
  /-- `5xy0` SE Vx,Vy -/
  | seReg (x y : RegIdx)
  /-- `9xy0` SNE Vx,Vy -/
  | sneReg (x y : RegIdx)
  /-- `6xkk` LD Vx,byte -/
  | ldByte (x : RegIdx) (kk : Byte)
  /-- `7xkk` ADD Vx,byte -/
  | addByte (x : RegIdx) (kk : Byte)
  /-- `8xy0` LD Vx,Vy -/
  | ldReg (x y : RegIdx)
  /-- `8xy1` OR Vx,Vy -/
  | orReg (x y : RegIdx)
  /-- `8xy2` AND Vx,Vy -/
  | andReg (x y : RegIdx)
  /-- `8xy3` XOR Vx,Vy -/
  | xorReg (x y : RegIdx)
  /-- `8xy4` ADD Vx,Vy -/
  | addReg (x y : RegIdx)
  /-- `8xy5` SUB Vx,Vy -/
  | subReg (x y : RegIdx)
  /-- `8xy6` SHR Vx; `y` is decoded and not used (R69) -/
  | shr (x y : RegIdx)
  /-- `8xy7` SUBN Vx,Vy -/
  | subnReg (x y : RegIdx)
  /-- `8xyE` SHL Vx; `y` is decoded and not used (R69) -/
  | shl (x y : RegIdx)
  /-- `Annn` LD I,addr -/
  | ldI (nnn : Addr12)
  /-- `Bnnn` JP V0,addr -/
  | jpV0 (nnn : Addr12)
  /-- `Cxkk` RND Vx,byte -/
  | rnd (x : RegIdx) (kk : Byte)
  /-- `Dxyn` DRW Vx,Vy,n -/
  | drw (x y : RegIdx) (n : Nibble)
  /-- `Ex9E` SKP Vx -/
  | skp (x : RegIdx)
  /-- `ExA1` SKNP Vx -/
  | sknp (x : RegIdx)
  /-- `Fx07` LD Vx,DT -/
  | ldVxDt (x : RegIdx)
  /-- `Fx0A` LD Vx,K -/
  | ldVxK (x : RegIdx)
  /-- `Fx15` LD DT,Vx -/
  | ldDtVx (x : RegIdx)
  /-- `Fx18` LD ST,Vx -/
  | ldStVx (x : RegIdx)
  /-- `Fx1E` ADD I,Vx -/
  | addI (x : RegIdx)
  /-- `Fx29` LD F,Vx -/
  | ldF (x : RegIdx)
  /-- `Fx33` LD B,Vx -/
  | ldB (x : RegIdx)
  /-- `Fx55` LD [I],Vx -/
  | storeRegs (x : RegIdx)
  /-- `Fx65` LD Vx,[I] -/
  | loadRegs (x : RegIdx)
  /-- `0nnn` SYS addr, for every `nnn` but 0x0E0 and 0x0EE -/
  | sys (nnn : Addr12)
  deriving DecidableEq, Repr

end Sys2Proof
end

