-- ==== Sys2Proof/WellFormed.lean ====
section
/-! DEFINITION. Which instructions the encoding can express. The operand types already bound every field, so one check
is left: row 35 of spec/30_encoding.md rule R64 yields the words 0x00E0 and 0x00EE to rows 1 and 2 (R65). -/

namespace Sys2Proof

/-- Row 35 is "any other 0-prefixed opcode": its operand is neither that of `00E0` nor that of `00EE` (R64, R65). -/
def sysOperandFree (nnn : Addr12) : Bool := nnn != 0x0E0#12 && nnn != 0x0EE#12

/-- The well-formed instructions: those that some instruction word stands for. -/
def Instr.wellFormed (i : Instr) : Bool :=
  match i with
  | .sys nnn => sysOperandFree nnn
  | .cls | .ret | .jp _ | .call _ => true
  | .seByte _ _ | .sneByte _ _ | .seReg _ _ | .sneReg _ _ => true
  | .ldByte _ _ | .addByte _ _ | .ldReg _ _ | .orReg _ _ | .andReg _ _ | .xorReg _ _ => true
  | .addReg _ _ | .subReg _ _ | .shr _ _ | .subnReg _ _ | .shl _ _ => true
  | .ldI _ | .jpV0 _ | .rnd _ _ | .drw _ _ _ | .skp _ | .sknp _ => true
  | .ldVxDt _ | .ldVxK _ | .ldDtVx _ | .ldStVx _ => true
  | .addI _ | .ldF _ | .ldB _ | .storeRegs _ | .loadRegs _ => true

end Sys2Proof
end

