-- ==== Sys2Proof/Decode.lean ====
section
/-! DEFINITION. The decoder, total on any bytes, and the encoder (spec/30_encoding.md rules R60 to R69). -/

namespace Sys2Proof

/-! ### The fields of an instruction word (R61): "pure extraction", the same for every word -/

/-- `op`, bits 15:12. -/
def opField (w : Word) : Nibble := w.extractLsb' 12 4

/-- `x`, bits 11:8. -/
def xField (w : Word) : Nibble := w.extractLsb' 8 4

/-- `y`, bits 7:4. -/
def yField (w : Word) : Nibble := w.extractLsb' 4 4

/-- `n`, bits 3:0. -/
def nField (w : Word) : Nibble := w.extractLsb' 0 4

/-- `kk`, bits 7:0. -/
def kkField (w : Word) : Byte := w.extractLsb' 0 8

/-- `nnn`, bits 11:0. -/
def nnnField (w : Word) : Addr12 := w.extractLsb' 0 12

/-- The register a four-bit field names (R11). -/
def regOfBits (b : Nibble) : RegIdx := b.toFin

/-- The field that names a register. -/
def bitsOfReg (x : RegIdx) : Nibble := BitVec.ofFin x

/-! ### The decoder: the two-level dispatch of rule R65 -/

/-- Family 0: the whole of `nnn` discriminates. -/
def decodeFamily0 (w : Word) : Option Instr :=
  if nnnField w = 0x0E0#12 then some .cls
  else if nnnField w = 0x0EE#12 then some .ret
  else some (.sys (nnnField w))

/-- Family 5: only `n = 0` is an instruction (R67, 90_conflicts.md C2). -/
def decodeFamily5 (w : Word) : Option Instr :=
  if nField w = 0#4 then some (.seReg (regOfBits (xField w)) (regOfBits (yField w))) else none

/-- Family 9: only `n = 0` is an instruction (R67, 90_conflicts.md C2). -/
def decodeFamily9 (w : Word) : Option Instr :=
  if nField w = 0#4 then some (.sneReg (regOfBits (xField w)) (regOfBits (yField w))) else none

/-- Family 8: `n` discriminates. -/
def decodeFamily8 (w : Word) : Option Instr :=
  let x := regOfBits (xField w)
  let y := regOfBits (yField w)
  if nField w = 0x0#4 then some (.ldReg x y)
  else if nField w = 0x1#4 then some (.orReg x y)
  else if nField w = 0x2#4 then some (.andReg x y)
  else if nField w = 0x3#4 then some (.xorReg x y)
  else if nField w = 0x4#4 then some (.addReg x y)
  else if nField w = 0x5#4 then some (.subReg x y)
  else if nField w = 0x6#4 then some (.shr x y)
  else if nField w = 0x7#4 then some (.subnReg x y)
  else if nField w = 0xE#4 then some (.shl x y)
  else none

/-- Family E: `kk` discriminates. -/
def decodeFamilyE (w : Word) : Option Instr :=
  let x := regOfBits (xField w)
  if kkField w = 0x9E#8 then some (.skp x)
  else if kkField w = 0xA1#8 then some (.sknp x)
  else none

/-- Family F: `kk` discriminates. -/
def decodeFamilyF (w : Word) : Option Instr :=
  let x := regOfBits (xField w)
  if kkField w = 0x07#8 then some (.ldVxDt x)
  else if kkField w = 0x0A#8 then some (.ldVxK x)
  else if kkField w = 0x15#8 then some (.ldDtVx x)
  else if kkField w = 0x18#8 then some (.ldStVx x)
  else if kkField w = 0x1E#8 then some (.addI x)
  else if kkField w = 0x29#8 then some (.ldF x)
  else if kkField w = 0x33#8 then some (.ldB x)
  else if kkField w = 0x55#8 then some (.storeRegs x)
  else if kkField w = 0x65#8 then some (.loadRegs x)
  else none

/-- The instruction a word stands for, `none` for an unrecognised word (R64, R65, R66). -/
def decodeWord (w : Word) : Option Instr :=
  match (opField w).toNat with
  | 0x0 => decodeFamily0 w
  | 0x1 => some (.jp (nnnField w))
  | 0x2 => some (.call (nnnField w))
  | 0x3 => some (.seByte (regOfBits (xField w)) (kkField w))
  | 0x4 => some (.sneByte (regOfBits (xField w)) (kkField w))
  | 0x5 => decodeFamily5 w
  | 0x6 => some (.ldByte (regOfBits (xField w)) (kkField w))
  | 0x7 => some (.addByte (regOfBits (xField w)) (kkField w))
  | 0x8 => decodeFamily8 w
  | 0x9 => decodeFamily9 w
  | 0xA => some (.ldI (nnnField w))
  | 0xB => some (.jpV0 (nnnField w))
  | 0xC => some (.rnd (regOfBits (xField w)) (kkField w))
  | 0xD => some (.drw (regOfBits (xField w)) (regOfBits (yField w)) (nField w))
  | 0xE => decodeFamilyE w
  | 0xF => decodeFamilyF w
  | _ => none

/-! ### The encoder: the patterns of rule R64, most significant field first -/

/-- Format `NNN`: `op nnn` (R62). -/
def packNNN (op : Nibble) (nnn : Addr12) : Word := op ++ nnn

/-- Formats `XKK` and `X__`: `op x kk` (R62). -/
def packXKK (op : Nibble) (x : RegIdx) (kk : Byte) : Word := op ++ bitsOfReg x ++ kk

/-- Formats `XY_` and `XYN`: `op x y n` (R62). -/
def packXYN (op : Nibble) (x y : RegIdx) (n : Nibble) : Word := op ++ bitsOfReg x ++ bitsOfReg y ++ n

/-- The word of an instruction (R64). -/
def encode (i : Instr) : Word :=
  match i with
  | .cls => 0x00E0#16
  | .ret => 0x00EE#16
  | .jp nnn => packNNN 0x1#4 nnn
  | .call nnn => packNNN 0x2#4 nnn
  | .seByte x kk => packXKK 0x3#4 x kk
  | .sneByte x kk => packXKK 0x4#4 x kk
  | .seReg x y => packXYN 0x5#4 x y 0x0#4
  | .sneReg x y => packXYN 0x9#4 x y 0x0#4
  | .ldByte x kk => packXKK 0x6#4 x kk
  | .addByte x kk => packXKK 0x7#4 x kk
  | .ldReg x y => packXYN 0x8#4 x y 0x0#4
  | .orReg x y => packXYN 0x8#4 x y 0x1#4
  | .andReg x y => packXYN 0x8#4 x y 0x2#4
  | .xorReg x y => packXYN 0x8#4 x y 0x3#4
  | .addReg x y => packXYN 0x8#4 x y 0x4#4
  | .subReg x y => packXYN 0x8#4 x y 0x5#4
  | .shr x y => packXYN 0x8#4 x y 0x6#4
  | .subnReg x y => packXYN 0x8#4 x y 0x7#4
  | .shl x y => packXYN 0x8#4 x y 0xE#4
  | .ldI nnn => packNNN 0xA#4 nnn
  | .jpV0 nnn => packNNN 0xB#4 nnn
  | .rnd x kk => packXKK 0xC#4 x kk
  | .drw x y n => packXYN 0xD#4 x y n
  | .skp x => packXKK 0xE#4 x 0x9E#8
  | .sknp x => packXKK 0xE#4 x 0xA1#8
  | .ldVxDt x => packXKK 0xF#4 x 0x07#8
  | .ldVxK x => packXKK 0xF#4 x 0x0A#8
  | .ldDtVx x => packXKK 0xF#4 x 0x15#8
  | .ldStVx x => packXKK 0xF#4 x 0x18#8
  | .addI x => packXKK 0xF#4 x 0x1E#8
  | .ldF x => packXKK 0xF#4 x 0x29#8
  | .ldB x => packXKK 0xF#4 x 0x33#8
  | .storeRegs x => packXKK 0xF#4 x 0x55#8
  | .loadRegs x => packXKK 0xF#4 x 0x65#8
  | .sys nnn => packNNN 0x0#4 nnn

/-! ### Bytes: every instruction is two bytes, the high byte first (R46, R60) -/

/-- Why the decoder gives no instruction. -/
inductive DecodeReject where
  /-- fewer than two bytes are left -/
  | incompleteWord
  /-- the word matches no row of rule R64: "Unrecognized opcode" (R66) -/
  | unknownOpcode (w : Word)
  deriving DecidableEq, Repr

/-- The word of two consecutive bytes, big-endian (R46). -/
def wordOfBytes (hi lo : Byte) : Word := hi ++ lo

/-- The bytes of a word, as they stand at ascending addresses (R46). -/
def bytesOfWord (w : Word) : List Byte := [w.extractLsb' 8 8, w.extractLsb' 0 8]

/-- The first instruction of a byte sequence and the bytes after it. -/
def decodeBytes (bs : List Byte) : Except DecodeReject (Instr × List Byte) :=
  match bs with
  | hi :: lo :: rest =>
    match decodeWord (wordOfBytes hi lo) with
    | some i => .ok (i, rest)
    | none => .error (.unknownOpcode (wordOfBytes hi lo))
  | [_] => .error .incompleteWord
  | [] => .error .incompleteWord

/-- The instruction read from the bits of an opcode-table row: `w`'s low `nbits` bits as one 16-bit word, stored as
the hardware stores it and given to the decoder. -/
def decodeTableWord (nbits w : Nat) : Option Instr :=
  match decodeBytes (bytesOfWord (BitVec.ofNat 16 (w % 2 ^ nbits))) with
  | .ok (i, _) => some i
  | .error _ => none

/-! ### The opcode table of rule R64 as masks and matches -/

/-- One row of the table: a word selects it when `w & mask = match`. -/
structure OpcodeRow where
  /-- the row's fixed bits -/
  mask : Word
  /-- their values -/
  pattern : Word
  deriving DecidableEq, Repr

/-- Whether the word has the row's fixed bits. -/
def OpcodeRow.selects (r : OpcodeRow) (w : Word) : Bool := w &&& r.mask == r.pattern

/-- The row of an instruction's constructor (R64; `spec/opcode_table.json`, "mask" and "match"). -/
def Instr.row (i : Instr) : OpcodeRow :=
  match i with
  | .cls => ⟨0xFFFF, 0x00E0⟩
  | .ret => ⟨0xFFFF, 0x00EE⟩
  | .jp _ => ⟨0xF000, 0x1000⟩
  | .call _ => ⟨0xF000, 0x2000⟩
  | .seByte _ _ => ⟨0xF000, 0x3000⟩
  | .sneByte _ _ => ⟨0xF000, 0x4000⟩
  | .seReg _ _ => ⟨0xF00F, 0x5000⟩
  | .sneReg _ _ => ⟨0xF00F, 0x9000⟩
  | .ldByte _ _ => ⟨0xF000, 0x6000⟩
  | .addByte _ _ => ⟨0xF000, 0x7000⟩
  | .ldReg _ _ => ⟨0xF00F, 0x8000⟩
  | .orReg _ _ => ⟨0xF00F, 0x8001⟩
  | .andReg _ _ => ⟨0xF00F, 0x8002⟩
  | .xorReg _ _ => ⟨0xF00F, 0x8003⟩
  | .addReg _ _ => ⟨0xF00F, 0x8004⟩
  | .subReg _ _ => ⟨0xF00F, 0x8005⟩
  | .shr _ _ => ⟨0xF00F, 0x8006⟩
  | .subnReg _ _ => ⟨0xF00F, 0x8007⟩
  | .shl _ _ => ⟨0xF00F, 0x800E⟩
  | .ldI _ => ⟨0xF000, 0xA000⟩
  | .jpV0 _ => ⟨0xF000, 0xB000⟩
  | .rnd _ _ => ⟨0xF000, 0xC000⟩
  | .drw _ _ _ => ⟨0xF000, 0xD000⟩
  | .skp _ => ⟨0xF0FF, 0xE09E⟩
  | .sknp _ => ⟨0xF0FF, 0xE0A1⟩
  | .ldVxDt _ => ⟨0xF0FF, 0xF007⟩
  | .ldVxK _ => ⟨0xF0FF, 0xF00A⟩
  | .ldDtVx _ => ⟨0xF0FF, 0xF015⟩
  | .ldStVx _ => ⟨0xF0FF, 0xF018⟩
  | .addI _ => ⟨0xF0FF, 0xF01E⟩
  | .ldF _ => ⟨0xF0FF, 0xF029⟩
  | .ldB _ => ⟨0xF0FF, 0xF033⟩
  | .storeRegs _ => ⟨0xF0FF, 0xF055⟩
  | .loadRegs _ => ⟨0xF0FF, 0xF065⟩
  | .sys _ => ⟨0xF000, 0x0000⟩

/-- Rows 1 to 34 of the table, in its order; row 35 (`0nnn`) stands apart, since it yields to rows 1 and 2 (R65). -/
def opcodeRows34 : List OpcodeRow :=
  [⟨0xFFFF, 0x00E0⟩, ⟨0xFFFF, 0x00EE⟩, ⟨0xF000, 0x1000⟩, ⟨0xF000, 0x2000⟩, ⟨0xF000, 0x3000⟩, ⟨0xF000, 0x4000⟩,
   ⟨0xF00F, 0x5000⟩, ⟨0xF00F, 0x9000⟩, ⟨0xF000, 0x6000⟩, ⟨0xF000, 0x7000⟩, ⟨0xF00F, 0x8000⟩, ⟨0xF00F, 0x8001⟩] ++
  [⟨0xF00F, 0x8002⟩, ⟨0xF00F, 0x8003⟩, ⟨0xF00F, 0x8004⟩, ⟨0xF00F, 0x8005⟩, ⟨0xF00F, 0x8006⟩, ⟨0xF00F, 0x8007⟩,
   ⟨0xF00F, 0x800E⟩, ⟨0xF000, 0xA000⟩, ⟨0xF000, 0xB000⟩, ⟨0xF000, 0xC000⟩, ⟨0xF000, 0xD000⟩] ++
  [⟨0xF0FF, 0xE09E⟩, ⟨0xF0FF, 0xE0A1⟩, ⟨0xF0FF, 0xF007⟩, ⟨0xF0FF, 0xF00A⟩, ⟨0xF0FF, 0xF015⟩, ⟨0xF0FF, 0xF018⟩,
   ⟨0xF0FF, 0xF01E⟩, ⟨0xF0FF, 0xF029⟩, ⟨0xF0FF, 0xF033⟩, ⟨0xF0FF, 0xF055⟩, ⟨0xF0FF, 0xF065⟩]

/-- Row 35, `0nnn`. -/
def opcodeRow35 : OpcodeRow := ⟨0xF000, 0x0000⟩

end Sys2Proof
end

