-- ==== Sys2Proof/Config.lean ====
section
/-! DEFINITION. What an implementation fixes before reset (spec/00_scope.md rule R6), and the one free value of the
machine, the random byte of `Cxkk`. The values R6 decides for the parameters stand in Machine/Params.lean. -/

namespace Sys2Proof

/-- What an access at an address of 4096 or more does (ADDR_POLICY, rules R6, R44, R45). -/
inductive AddrPolicy where
  /-- the access raises AddressOutOfRange -/
  | reject
  /-- the access goes to the address modulo 4096 -/
  | wrap
  deriving DecidableEq, Repr

/-- What an unrecognised instruction word does (UNKNOWN_OPCODE_POLICY, rules R6, R66). -/
inductive UnknownOpcodePolicy where
  /-- the word raises UnknownOpcode -/
  | strict
  /-- the word advances `PC` by 2 and is reported in the cycle's record only -/
  | permissive
  deriving DecidableEq, Repr

/-- The open parameters of rule R6. They are fixed before reset and no step changes them (R22). -/
structure Config where
  /-- ADDR_POLICY -/
  addrPolicy : AddrPolicy
  /-- UNKNOWN_OPCODE_POLICY -/
  unknownOpcodePolicy : UnknownOpcodePolicy
  /-- LOGIC_VF_RESET: whether `8xy1`, `8xy2`, `8xy3` force `VF` to 0 -/
  logicVfReset : Bool
  /-- FONT: the 80 bytes that reset installs at 0x050 to 0x09F -/
  font : Vector Byte 80
  deriving DecidableEq, Repr

/-- `rnd` of rules R6, R112: the byte of the `k`-th draw. A FREE VALUE: it has no body, so nothing can be proved of
what it is, and a statement holds for every sequence of draws (assumption 2). -/
opaque Config.rnd : Nat → Byte

end Sys2Proof
end

