-- ==== Sys2Proof/Machine/Params.lean ====
section
/-! DEFINITION. The values that spec/00_scope.md rule R6 decides for the open parameters, and the font of
spec/20_memory.md rule R42. -/

namespace Sys2Proof.Machine

/-- Glyphs 0 to 7 of the font (R42), five bytes each, top row first. -/
def fontLow : Vector Byte 40 :=
  #v[0xF0, 0x90, 0x90, 0x90, 0xF0,  0x20, 0x60, 0x20, 0x20, 0x70,
     0xF0, 0x10, 0xF0, 0x80, 0xF0,  0xF0, 0x10, 0xF0, 0x10, 0xF0,
     0x90, 0x90, 0xF0, 0x10, 0x10,  0xF0, 0x80, 0xF0, 0x10, 0xF0,
     0xF0, 0x80, 0xF0, 0x90, 0xF0,  0xF0, 0x10, 0x20, 0x40, 0x40]

/-- Glyphs 8 to F of the font (R42). -/
def fontHigh : Vector Byte 40 :=
  #v[0xF0, 0x90, 0xF0, 0x90, 0xF0,  0xF0, 0x90, 0xF0, 0x10, 0xF0,
     0xF0, 0x90, 0xF0, 0x90, 0x90,  0xE0, 0x90, 0xE0, 0x90, 0xE0,
     0xF0, 0x80, 0x80, 0x80, 0xF0,  0xE0, 0x90, 0x90, 0x90, 0xE0,
     0xF0, 0x80, 0xF0, 0x80, 0xF0,  0xF0, 0x80, 0xF0, 0x80, 0x80]

/-- The decided value of FONT. DESIGN CHOICE of the spec (R42, D14: "from general knowledge, not in source"),
unsafe: assumption 18. -/
def decidedFont : Vector Byte 80 := fontLow ++ fontHigh

/-- The parameters at the values R6 decides. DESIGN CHOICE of the spec (D2, D4, D5, D14), unsafe for a claim that
rests on one value: assumptions 10, 11, 18, 21. -/
def decidedConfig : Config where
  addrPolicy := .reject
  unknownOpcodePolicy := .strict
  logicVfReset := true
  font := decidedFont

end Sys2Proof.Machine
end

