-- ==== Sys2Proof/Machine/State.lean ====
section
/-! DEFINITION. The state of the machine (spec/10_state.md rule R10), the events that act on it (rules R25 to R35),
the reasons a step can stop, and the state after reset (spec/70_reset_and_hazards.md rule R180). -/

namespace Sys2Proof.Machine

/-- The memory image (R40): the bytes that differ from what reset leaves (Machine/Ops.lean, unlisted), addresses
strictly rising. -/
abbrev Memory := List Host.Cell

/-- The framebuffer (R18): 32 rows, top first, of 64 cells, left first. -/
abbrev Framebuffer := Vector (Vector Bool 64) 32

/-- The error causes of spec/60_exceptions.md rule R150, each with the value it records as `info`. -/
inductive Err where
  /-- `2nnn` with 16 entries on the stack (R152) -/
  | stackOverflow
  /-- `00EE` with an empty stack (R153) -/
  | stackUnderflow
  /-- a word that matches no row, under `strict` (R155) -/
  | unknownOpcode (w : Word)
  /-- an access at an address of 4096 or more, under `reject` (R154) -/
  | addressOutOfRange (a : Word)
  /-- `Ex9E` or `ExA1` with `V[x]` above 15 (R157) -/
  | keyIndexOutOfRange (k : Byte)
  deriving DecidableEq, Repr

/-- What a cycle returns to the host (R30). -/
structure CycleRecord where
  /-- whether the cycle completed an `00E0` or a `Dxyn` -/
  changed : Bool
  /-- the fetched word, 0 if the fetch failed -/
  opcode : Word
  /-- 0, or the cause code of the error -/
  error : BitVec 3
  /-- 0, or the value the cause records -/
  info : Word
  deriving DecidableEq, Repr

/-- What an event returns to the host (R28, R30 to R34). -/
inductive Reply where
  /-- no value: `reset`, `set_keys`, `tick60` return nothing -/
  | nothing
  /-- `load_rom`: whether the image was loaded or rejected as too large (R28, R151) -/
  | romLoaded (accepted : Bool)
  /-- `cycle` (R30) -/
  | cycleDone (r : CycleRecord)
  /-- `read_framebuffer`: the 2048 cells in row-major order (R32) -/
  | cells (bits : List Bool)
  /-- `read_and_clear_draw_flag`: the flag as it was (R33) -/
  | flag (b : Bool)
  /-- `read_status`: `HALT`, `ERR_CAUSE`, `ERR_OPCODE`, `ERR_PC` (R34) -/
  | status (halt : Bool) (cause : BitVec 3) (opcode pc : Word)
  deriving DecidableEq, Repr

/-- One atomic action of an agent (R25, R27 to R34). -/
inductive Event where
  /-- the host resets the core (R27) -/
  | reset
  /-- the host loads a program image (R28) -/
  | loadRom (bytes : List Byte)
  /-- the host writes the key vector, "or any part of it" (R29): `none` leaves a key as it is -/
  | setKeys (keys : Vector (Option Bool) 16)
  /-- the core executes one instruction cycle (R30) -/
  | cycle
  /-- the timer driver's tick (R31, R170) -/
  | tick60
  /-- the host reads the framebuffer (R32) -/
  | readFramebuffer
  /-- the host reads and clears the "changed" flag (R33) -/
  | readAndClearDrawFlag
  /-- the host reads the status registers (R34) -/
  | readStatus
  deriving DecidableEq, Repr

/-- The state. The fields down to `errPc` are the complete architectural state of R10; the last five are the model's
own (assumptions 1 to 5). -/
structure State where
  /-- `mem`, 4096 bytes (R40) -/
  mem : Memory
  /-- `V0` to `VF` (R11, R12) -/
  v : Vector Byte 16
  /-- `I` (R14) -/
  i : Word
  /-- `PC` (R15) -/
  pc : Word
  /-- `stack[0]` to `stack[15]` (R16) -/
  stack : Vector Word 16
  /-- `SP`: the number of return addresses on the stack, 0 to 16 (R16) -/
  sp : Fin 17
  /-- `DT` (R17) -/
  dt : Byte
  /-- `ST` (R17) -/
  st : Byte
  /-- `fb` (R18) -/
  fb : Framebuffer
  /-- `draw_flag` (R19) -/
  drawFlag : Bool
  /-- `keys[0]` to `keys[15]`, true when pressed (R20) -/
  keys : Vector Bool 16
  /-- `HALT` (R21) -/
  halt : Bool
  /-- `ERR_CAUSE` (R21, R150) -/
  errCause : BitVec 3
  /-- `ERR_OPCODE` (R21) -/
  errOpcode : Word
  /-- `ERR_PC` (R21) -/
  errPc : Word
  /-- the parameters of R6, an argument of the model: no step writes this field (assumption 1) -/
  cfg : Config
  /-- how many random bytes `Cxkk` has drawn: the index of the next free byte `Config.rnd` (assumption 2) -/
  draws : Nat
  /-- what the agents do next, oldest first (assumption 3) -/
  events : List Event
  /-- whether `load_rom` is legal: since reset, no load and no cycle (assumption 5) -/
  loadable : Bool
  /-- what the last action returned to the host (assumption 4) -/
  reply : Reply
  deriving DecidableEq, Repr

/-- The reasons for which a step stops with a fault: NONE. Every error condition of the spec is the precise halt of
rule R156, a next state (assumption 6). -/
inductive Fault where
  deriving DecidableEq, Repr

/-- The reasons for which a step gives no meaning. -/
inductive Refusal where
  /-- raised by an arm of exec that has no meaning yet; no arm of this model raises it. Safe. -/
  | notModelled (mnemonic : String)
  /-- raised by step for a `load_rom` event after the first cycle, or a second one since reset: "outside the spec"
  (R183, V9 of spec/93_implementation_defined.md). No instruction raises it. Safe (assumption 5). -/
  | loadRomOutsideBoot
  deriving DecidableEq, Repr

/-- The machine after reset (R180; assumption 20 names the values that D18 adds), with the parameters at their decided values (R6) and no event listed. -/
def State.reset : State where
  mem := []
  v := Vector.replicate 16 0x00
  i := 0x0000
  pc := 0x0200
  stack := Vector.replicate 16 0x0000
  sp := 0
  dt := 0x00
  st := 0x00
  fb := Vector.replicate 32 (Vector.replicate 64 false)
  drawFlag := false
  keys := Vector.replicate 16 false
  halt := false
  errCause := 0
  errOpcode := 0x0000
  errPc := 0x0000
  cfg := decidedConfig
  draws := 0
  events := []
  loadable := true
  reply := .nothing

end Sys2Proof.Machine
end

