-- ==== Sys2Proof/Machine/Ops.lean ====
section
/-! DEFINITION. The operations that every instruction's meaning is made of: registers, memory, the call stack, the
framebuffer, and the two ways a cycle ends, completing (spec/10_state.md rule R30) and raising an error
(spec/60_exceptions.md rule R156). -/

namespace Sys2Proof.Machine

/-! ### Registers (R11 to R17) -/

/-- The register `VF` (R12). -/
def regF : RegIdx := 15

/-- `V[r]` (R11). -/
def State.readV (s : State) (r : RegIdx) : Byte := s.v[r]

/-- `V[r] <- b` (R11). -/
def State.setV (s : State) (r : RegIdx) (b : Byte) : State := { s with v := s.v.set r b }

/-- `I <- a` (R14). -/
def State.setI (s : State) (a : Word) : State := { s with i := a }

/-- `pc <- target` (R15). -/
def State.setPc (s : State) (target : Word) : State := { s with pc := target }

/-- `pc <- (pc0 + 2) mod 2^16` (R15). -/
def State.advance (s : State) : State := s.setPc (s.pc + 2)

/-- `pc <- (pc0 + 4) mod 2^16` when the condition holds, else `(pc0 + 2) mod 2^16` (R15, spec/41_skip.md). -/
def State.skipIf (s : State) (c : Bool) : State := s.setPc (if c then s.pc + 4 else s.pc + 2)

/-- `DT <- b` (R17). -/
def State.setDt (s : State) (b : Byte) : State := { s with dt := b }

/-- `ST <- b` (R17). -/
def State.setSt (s : State) (b : Byte) : State := { s with st := b }

/-! ### Memory (R40 to R45) -/

/-- What reset leaves at an address (R41, R42, R180), and so what an unlisted address reads as. -/
def unlisted (cfg : Config) (a : Nat) : Byte :=
  if h : 0x050 ≤ a ∧ a < 0x0A0 then cfg.font[a - 0x050]'(by omega) else 0x00

/-- The listed byte at an address. -/
def lookupCell (m : Memory) (a : Nat) : Option Byte :=
  match m with
  | [] => none
  | (k, b) :: rest => if k = a then some b else lookupCell rest a

/-- List a byte at an address, in its place. -/
def insertCell (a : Nat) (b : Byte) (m : Memory) : Memory :=
  match m with
  | [] => [(a, b)]
  | (k, c) :: rest =>
    if a < k then (a, b) :: (k, c) :: rest
    else if a = k then (a, b) :: rest
    else (k, c) :: insertCell a b rest

/-- List no byte at an address. -/
def eraseCell (a : Nat) (m : Memory) : Memory :=
  match m with
  | [] => []
  | (k, c) :: rest => if k = a then rest else (k, c) :: eraseCell a rest

/-- `mem[a]`. -/
def Memory.read (cfg : Config) (m : Memory) (a : Nat) : Byte := (lookupCell m a).getD (unlisted cfg a)

/-- `mem[a] <- b`, keeping the canonical form: the byte an unlisted address reads as is not listed. -/
def Memory.write (cfg : Config) (m : Memory) (a : Nat) (b : Byte) : Memory :=
  if b = unlisted cfg a then eraseCell a m else insertCell a b m

/-- The canonical form: addresses strictly rising and inside the image, no byte listed that its address reads as
unlisted. -/
def Memory.wf (cfg : Config) (m : Memory) : Bool :=
  match m with
  | [] => true
  | (k, b) :: rest => k < 4096 && b != unlisted cfg k && rest.all (fun c => k < c.1) && Memory.wf cfg rest

/-- `mem[a]` of a state. -/
def State.peek (s : State) (a : Nat) : Byte := Memory.read s.cfg s.mem a

/-- `mem[a] <- b` of a state. -/
def State.poke (s : State) (a : Nat) (b : Byte) : State := { s with mem := Memory.write s.cfg s.mem a b }

/-- Where an access at a 16-bit address goes, under ADDR_POLICY (R44, R45). -/
def resolve (p : AddrPolicy) (a : Word) : Except Err Nat :=
  if a.toNat ≤ 0x0FFF then .ok a.toNat
  else
    match p with
    | .wrap => .ok (a.toNat % 4096)
    | .reject => .error (.addressOutOfRange a)

/-- `MemRead(addr, 1)` (R44). -/
def memRead (s : State) (a : Word) : Except Err Byte :=
  match resolve s.cfg.addrPolicy a with
  | .ok k => .ok (s.peek k)
  | .error e => .error e

/-- `MemWrite(addr, 1, v)` (R45). -/
def memWrite (s : State) (a : Word) (b : Byte) : Except Err State :=
  match resolve s.cfg.addrPolicy a with
  | .ok k => .ok (s.poke k b)
  | .error e => .error e

/-- `n` reads at `a`, `a + 1`, ..., each sum modulo 2^16, in this order (R48). -/
def memReadBlock (s : State) (a : Word) (n : Nat) : Except Err (List Byte) :=
  match n with
  | 0 => .ok []
  | n + 1 =>
    match memRead s a with
    | .error e => .error e
    | .ok b =>
      match memReadBlock s (a + 1) n with
      | .error e => .error e
      | .ok bs => .ok (b :: bs)

/-- Writes of the bytes at `a`, `a + 1`, ..., each sum modulo 2^16, in this order (R48). -/
def memWriteBlock (s : State) (a : Word) (bs : List Byte) : Except Err State :=
  match bs with
  | [] => .ok s
  | b :: rest =>
    match memWrite s a b with
    | .error e => .error e
    | .ok t => memWriteBlock t (a + 1) rest

/-! ### The call stack (R16) -/

/-- Push of `r`: "`stack[SP] <- v; SP <- SP + 1`, legal only when `SP < 16`" (R16, R83). -/
def push (s : State) (r : Word) : Except Err State :=
  if h : s.sp.val < 16 then .ok { s with stack := s.stack.set s.sp.val r, sp := ⟨s.sp.val + 1, by omega⟩ }
  else .error .stackOverflow

/-- Pop: "`SP <- SP - 1`, result `stack[SP]` (the new `SP`), legal only when `SP > 0`"; the slot keeps its value
(R16, R81). -/
def pop (s : State) : Except Err (Word × State) :=
  if 0 < s.sp.val then
    .ok (s.stack[s.sp.val - 1]'(by omega), { s with sp := ⟨s.sp.val - 1, by omega⟩ })
  else .error .stackUnderflow

/-! ### The framebuffer (R18) -/

/-- `fb[r][c]`; false off the grid. -/
def cell (fb : Framebuffer) (r c : Nat) : Bool :=
  if h : r < 32 ∧ c < 64 then (fb[r]'h.1)[c]'h.2 else false

/-- `fb[r][c] <- fb[r][c] xor 1`; nothing off the grid. -/
def flipCell (fb : Framebuffer) (r c : Nat) : Framebuffer :=
  if h : r < 32 ∧ c < 64 then fb.set r ((fb[r]'h.1).set c (!(fb[r]'h.1)[c]'h.2) h.2) h.1 else fb

/-- The framebuffer with every cell 0. -/
def blankScreen : Framebuffer := Vector.replicate 32 (Vector.replicate 64 false)

/-- The framebuffer with a new content and `draw_flag` set (R19). -/
def State.show (s : State) (fb : Framebuffer) : State := { s with fb := fb, drawFlag := true }

/-- The cells in row-major order, index `r * 64 + c` (R18, R32). -/
def rowMajor (fb : Framebuffer) : List Bool := fb.toList.flatMap Vector.toList

/-! ### The end of a cycle (R30, R156) -/

/-- The cause code of an error (R150). DESIGN CHOICE of the spec (D7): assumption 13. -/
def Err.code (e : Err) : BitVec 3 :=
  match e with
  | .stackOverflow => 1
  | .stackUnderflow => 2
  | .unknownOpcode _ => 3
  | .addressOutOfRange _ => 4
  | .keyIndexOutOfRange _ => 5

/-- The value an error records as `info` (R150). -/
def Err.info (e : Err) : Word :=
  match e with
  | .stackOverflow => 0
  | .stackUnderflow => 0
  | .unknownOpcode w => w
  | .addressOutOfRange a => a
  | .keyIndexOutOfRange k => k.setWidth 16

/-- What the interface answers for the action that just happened. -/
def State.answer (s : State) (r : Reply) : State := { s with reply := r }

/-- A cycle that completes the instruction with word `w` (R30): the record's `error` and `info` are 0. -/
def complete (w : Word) (changed : Bool) (t : State) : Host.Outcome State Fault Refusal :=
  .next (t.answer (.cycleDone ⟨changed, w, 0, 0⟩))

/-- The state an error leaves (R156), from the state `s` at the start of the cycle: "discard every write the cycle has
made so far", then `HALT`, `ERR_CAUSE`, `ERR_OPCODE`, `ERR_PC`, and the record the cycle returns. DESIGN CHOICE of the
spec (D6): assumption 12. -/
def State.halted (s : State) (w : Word) (e : Err) : State :=
  { s with
    halt := true, errCause := e.code, errOpcode := w, errPc := s.pc
    reply := .cycleDone ⟨false, w, e.code, e.info⟩ }

/-- TAKING AN EXCEPTION: `raise e` in a cycle that began in `s` and fetched `w` (R156). -/
def raise (w : Word) (e : Err) (s : State) : Host.Outcome State Fault Refusal := .next (s.halted w e)

/-- The end of a cycle that began in `s`: complete with the effect's state, or raise the effect's error and keep none
of its writes (R26, R156). -/
def finish (w : Word) (changed : Bool) (s : State) (effect : Except Err State) :
    Host.Outcome State Fault Refusal :=
  match effect with
  | .ok t => complete w changed t
  | .error e => raise w e s

end Sys2Proof.Machine
end

