-- ==== Sys2Proof/Machine/Operands.lean ====
section
/-! DEFINITION. The operand forms (spec/30_encoding.md rule R63 and the operand part of each instruction's rule): every
one is unsigned, and zero extension is the only extension of the machine. -/

namespace Sys2Proof.Machine

/-- `zext_16` of a byte (R8). -/
def zext8 (b : Byte) : Word := b.setWidth 16

/-- `zext_16(nnn)` (R8, R63). -/
def zext12 (a : Addr12) : Word := a.setWidth 16

/-- The operand `V[x]` as a key number (R94, R95): above 15 it names no key. DESIGN CHOICE of the spec (D10):
assumption 16. -/
def keyOperand (s : State) (x : RegIdx) : Except Err (Fin 16) :=
  if h : (s.readV x).toNat ≤ 15 then .ok ⟨(s.readV x).toNat, by omega⟩
  else .error (.keyIndexOutOfRange (s.readV x))

/-- The lowest pressed key (R141), `none` when no key is pressed. DESIGN CHOICE of the spec (D11): assumption 17. -/
def lowestKey (keys : Vector Bool 16) : Option Nat := keys.toList.findIdx? id

/-- The three decimal digits of a byte, hundreds first (R123). -/
def bcdDigits (b : Byte) : List Byte :=
  [BitVec.ofNat 8 (b.toNat / 100), BitVec.ofNat 8 (b.toNat / 10 % 10), BitVec.ofNat 8 (b.toNat % 10)]

/-- `0x0050 + 5 * zext_16(V[x])`, unmasked (R122). DESIGN CHOICE of the spec (D25): assumption 28. -/
def glyphAddress (b : Byte) : Word := 0x0050 + 5 * zext8 b

/-- `V[0]` to `V[x]`, in this order (R124). -/
def regsUpTo (s : State) (x : RegIdx) : List Byte := s.v.toList.take (x.val + 1)

/-- `V[k] <- b`, `V[k+1] <- ...` for the bytes in their order (R125). -/
def loadRegsFrom (v : Vector Byte 16) (k : Nat) (bs : List Byte) : Vector Byte 16 :=
  match bs with
  | [] => v
  | b :: rest => loadRegsFrom (v.setIfInBounds k b) (k + 1) rest

/-- `I <- (I + x + 1) mod 2^16` (R124, R125). -/
def State.advanceI (s : State) (x : RegIdx) : State := s.setI (s.i + BitVec.ofNat 16 (x.val + 1))

/-- A fresh random byte (R112): the next free value, drawn once for each execution (assumption 2). -/
def drawRandom (s : State) : Byte × State := (Config.rnd s.draws, { s with draws := s.draws + 1 })

/-- The number of sprite rows on the grid: `min(n, 32 - y0)` when `y0 <= 31`, and 0 when `y0 >= 32` (R131). DESIGN
CHOICE of the spec (D12): assumption 22. -/
def rowsDrawn (y0 : Byte) (n : Nibble) : Nat := if y0.toNat ≤ 31 then min n.toNat (32 - y0.toNat) else 0

/-- Pixel `c` of a sprite row, bit `7 - c` of its byte (R132). DESIGN CHOICE of the spec (D13): assumption 23. -/
def spriteBit (b : Byte) (c : Nat) : Bool := b.getLsbD (7 - c)

end Sys2Proof.Machine
end

