-- ==== Sys2Proof/Machine/Flags.lean ====
section
/-! DEFINITION. The flag computations: the values written to `VF` (spec/10_state.md rule R13). Results are computed
exactly on natural numbers and narrowed at the end (spec/42_alu.md rule R113). -/

namespace Sys2Proof.Machine

/-- A flag as the 8-bit value 0 or 1 (R12). -/
def flagByte (c : Bool) : Byte := if c then 1 else 0

/-- `V[0xF] <- flag`. -/
def State.setFlag (s : State) (c : Bool) : State := s.setV regF (flagByte c)

/-- The result first, then the flag, "written last" (R100): with `x = 15` the flag is what stays. DESIGN CHOICE of the
spec but for `8xy4` (D9): assumption 15. -/
def State.setResult (s : State) (x : RegIdx) (r : Byte) (c : Bool) : State := (s.setV x r).setFlag c

/-- `s mod 256` of the exact sum (R106). -/
def addResult (a b : Byte) : Byte := BitVec.ofNat 8 (a.toNat + b.toNat)

/-- "1 if sum > 255 else 0" (R106). -/
def addCarry (a b : Byte) : Bool := 255 < a.toNat + b.toNat

/-- `(a - b) mod 256` (R107, R109). -/
def subResult (a b : Byte) : Byte := BitVec.ofInt 8 ((a.toNat : Int) - b.toNat)

/-- The no-borrow flag of `a - b`: "Sign of comparison is >=, not >" (R107, R109). -/
def subNoBorrow (a b : Byte) : Bool := b.toNat ≤ a.toNat

/-- `a >> 1` (R108). -/
def shrResult (a : Byte) : Byte := BitVec.ofNat 8 (a.toNat / 2)

/-- The bit `a >> 1` shifts out, `a[0]` (R108). -/
def shrFlag (a : Byte) : Bool := a.getLsbD 0

/-- `(a << 1) mod 256` (R110). -/
def shlResult (a : Byte) : Byte := BitVec.ofNat 8 (2 * a.toNat)

/-- The bit `a << 1` shifts out, `a[7]` (R110). -/
def shlFlag (a : Byte) : Bool := a.getLsbD 7

/-- "if LOGIC_VF_RESET: V[0xF] <- 0" (R103 to R105). -/
def State.resetFlagIfLogic (s : State) : State := if s.cfg.logicVfReset then s.setFlag false else s

end Sys2Proof.Machine
end

