-- ==== Sys2Proof/Machine/Alu.lean ====
section
/-! DEFINITION. The meanings of the register and ALU instructions (spec/42_alu.md rules R100 to R113). Operands are read before any
write and the flag is written last (R100). -/

namespace Sys2Proof.Machine

/-- `6xkk` LD Vx,byte (R101). -/
def execLdByte (x : RegIdx) (kk : Byte) (s : State) : Host.Outcome State Fault Refusal :=
  complete (encode (.ldByte x kk)) false (s.setV x kk).advance

/-- `7xkk` ADD Vx,byte: "truncated to 8 bits (wraparound, no flag set)" (R102). -/
def execAddByte (x : RegIdx) (kk : Byte) (s : State) : Host.Outcome State Fault Refusal :=
  complete (encode (.addByte x kk)) false (s.setV x (addResult (s.readV x) kk)).advance

/-- `8xy0` LD Vx,Vy (R111). -/
def execLdReg (x y : RegIdx) (s : State) : Host.Outcome State Fault Refusal :=
  complete (encode (.ldReg x y)) false (s.setV x (s.readV y)).advance

/-- `8xy1` OR Vx,Vy (R103). -/
def execOrReg (x y : RegIdx) (s : State) : Host.Outcome State Fault Refusal :=
  complete (encode (.orReg x y)) false (s.setV x (s.readV x ||| s.readV y)).resetFlagIfLogic.advance

/-- `8xy2` AND Vx,Vy (R104). -/
def execAndReg (x y : RegIdx) (s : State) : Host.Outcome State Fault Refusal :=
  complete (encode (.andReg x y)) false (s.setV x (s.readV x &&& s.readV y)).resetFlagIfLogic.advance

/-- `8xy3` XOR Vx,Vy (R105). -/
def execXorReg (x y : RegIdx) (s : State) : Host.Outcome State Fault Refusal :=
  complete (encode (.xorReg x y)) false (s.setV x (s.readV x ^^^ s.readV y)).resetFlagIfLogic.advance

/-- `8xy4` ADD Vx,Vy: `VF` is the carry (R106). -/
def execAddReg (x y : RegIdx) (s : State) : Host.Outcome State Fault Refusal :=
  complete (encode (.addReg x y)) false
    (s.setResult x (addResult (s.readV x) (s.readV y)) (addCarry (s.readV x) (s.readV y))).advance

/-- `8xy5` SUB Vx,Vy: `VF` is the no-borrow flag of `Vx - Vy` (R107). -/
def execSubReg (x y : RegIdx) (s : State) : Host.Outcome State Fault Refusal :=
  complete (encode (.subReg x y)) false
    (s.setResult x (subResult (s.readV x) (s.readV y)) (subNoBorrow (s.readV x) (s.readV y))).advance

/-- `8xy6` SHR Vx: `VF` is the bit shifted out; `y` is ignored (R108, R69). -/
def execShr (x y : RegIdx) (s : State) : Host.Outcome State Fault Refusal :=
  complete (encode (.shr x y)) false (s.setResult x (shrResult (s.readV x)) (shrFlag (s.readV x))).advance

/-- `8xy7` SUBN Vx,Vy: `VF` is the no-borrow flag of `Vy - Vx` (R109). -/
def execSubnReg (x y : RegIdx) (s : State) : Host.Outcome State Fault Refusal :=
  complete (encode (.subnReg x y)) false
    (s.setResult x (subResult (s.readV y) (s.readV x)) (subNoBorrow (s.readV y) (s.readV x))).advance

/-- `8xyE` SHL Vx: `VF` is the bit shifted out; `y` is ignored (R110, R69). -/
def execShl (x y : RegIdx) (s : State) : Host.Outcome State Fault Refusal :=
  complete (encode (.shl x y)) false (s.setResult x (shlResult (s.readV x)) (shlFlag (s.readV x))).advance

/-- `Cxkk` RND Vx,byte: "Vx := (random byte) AND kk" (R112). -/
def execRnd (x : RegIdx) (kk : Byte) (s : State) : Host.Outcome State Fault Refusal :=
  complete (encode (.rnd x kk)) false (((drawRandom s).2.setV x ((drawRandom s).1 &&& kk))).advance

end Sys2Proof.Machine
end

