-- ==== Sys2Proof/Machine/Control.lean ====
section
/-! DEFINITION. The meanings of the control transfers (spec/40_control.md rules R80 to R84). -/

namespace Sys2Proof.Machine

/-- `0nnn` SYS addr: "No-operation: advance PC by 2, ignore operand" (R80). -/
def execSys (nnn : Addr12) (s : State) : Host.Outcome State Fault Refusal :=
  complete (encode (.sys nnn)) false s.advance

/-- The effect of RET: pop, and go to the popped value "used as is" (R81). -/
def retEffect (s : State) : Except Err State :=
  match pop s with
  | .ok (r, t) => .ok (t.setPc r)
  | .error e => .error e

/-- `00EE` RET (R81). -/
def execRet (s : State) : Host.Outcome State Fault Refusal :=
  finish (encode .ret) false s (retEffect s)

/-- `1nnn` JP addr: "PC is set directly to nnn" (R82). -/
def execJp (nnn : Addr12) (s : State) : Host.Outcome State Fault Refusal :=
  complete (encode (.jp nnn)) false (s.setPc (zext12 nnn))

/-- The effect of CALL: push the address after the instruction, and go to the target (R83). -/
def callEffect (nnn : Addr12) (s : State) : Except Err State :=
  match push s (s.pc + 2) with
  | .ok t => .ok (t.setPc (zext12 nnn))
  | .error e => .error e

/-- `2nnn` CALL addr (R83). -/
def execCall (nnn : Addr12) (s : State) : Host.Outcome State Fault Refusal :=
  finish (encode (.call nnn)) false s (callEffect nnn s)

/-- `Bnnn` JP V0,addr: "No 8-bit truncation of the sum; full 16-bit add" (R84). -/
def execJpV0 (nnn : Addr12) (s : State) : Host.Outcome State Fault Refusal :=
  complete (encode (.jpV0 nnn)) false (s.setPc (zext12 nnn + zext8 (s.readV 0)))

end Sys2Proof.Machine
end

