-- ==== Sys2Proof/Machine/Display.lean ====
section
/-! DEFINITION. The meanings of the display instructions (spec/44_display.md rules R130 to R132). -/

namespace Sys2Proof.Machine

/-- `00E0` CLS: "Zero every framebuffer cell" (R130). -/
def execCls (s : State) : Host.Outcome State Fault Refusal :=
  complete (encode .cls) true (s.show blankScreen).advance

/-- One pixel of the inner loop of R131: column `c` of a sprite row `b` at row `row`, with the left edge at `x0`. The
pair is the framebuffer and whether a collision has been met. -/
def drawPixel (b : Byte) (row x0 c : Nat) (acc : Framebuffer × Bool) : Framebuffer × Bool :=
  if spriteBit b c && decide (x0 + c ≤ 63) then
    (flipCell acc.1 row (x0 + c), acc.2 || cell acc.1 row (x0 + c))
  else acc

/-- The inner loop of R131: columns `c`, `c + 1`, ... of a sprite row, `n` of them. -/
def drawPixels (b : Byte) (row x0 c n : Nat) (acc : Framebuffer × Bool) : Framebuffer × Bool :=
  match n with
  | 0 => acc
  | n + 1 => drawPixels b row x0 (c + 1) n (drawPixel b row x0 c acc)

/-- The outer loop of R131: the sprite's rows from `row` down. -/
def drawRows (bs : List Byte) (row x0 : Nat) (acc : Framebuffer × Bool) : Framebuffer × Bool :=
  match bs with
  | [] => acc
  | b :: rest => drawRows rest (row + 1) x0 (drawPixels b row x0 0 8 acc)

/-- The effect of DRW: all reads first, then the drawing, then `VF`, `draw_flag` and `PC` (R131). -/
def drawEffect (x y : RegIdx) (n : Nibble) (s : State) : Except Err State :=
  match memReadBlock s s.i (rowsDrawn (s.readV y) n) with
  | .ok bs =>
    let drawn := drawRows bs (s.readV y).toNat (s.readV x).toNat (s.fb, false)
    .ok ((s.show drawn.1).setFlag drawn.2).advance
  | .error e => .error e

/-- `Dxyn` DRW Vx,Vy,n (R131). -/
def execDrw (x y : RegIdx) (n : Nibble) (s : State) : Host.Outcome State Fault Refusal :=
  finish (encode (.drw x y n)) true s (drawEffect x y n s)

end Sys2Proof.Machine
end

