-- ==== Sys2Proof/Machine/IndexMemory.lean ====
section
/-! DEFINITION. The meanings of the index register and memory instructions (spec/43_index_memory.md rules R120 to R125). The one
addressing mode is indirect through `I`. -/

namespace Sys2Proof.Machine

/-- `Annn` LD I,addr (R120). -/
def execLdI (nnn : Addr12) (s : State) : Host.Outcome State Fault Refusal :=
  complete (encode (.ldI nnn)) false (s.setI (zext12 nnn)).advance

/-- `Fx1E` ADD I,Vx: a 16-bit sum, no flag, no wrap at 4096 (R121). -/
def execAddI (x : RegIdx) (s : State) : Host.Outcome State Fault Refusal :=
  complete (encode (.addI x)) false (s.setI (s.i + zext8 (s.readV x))).advance

/-- `Fx29` LD F,Vx: `I` becomes the address of the glyph of `V[x]` (R122). -/
def execLdF (x : RegIdx) (s : State) : Host.Outcome State Fault Refusal :=
  complete (encode (.ldF x)) false (s.setI (glyphAddress (s.readV x))).advance

/-- The effect of LD B: the three digits stored at `I`, `I + 1`, `I + 2`; `I` is unchanged (R123). -/
def bcdEffect (x : RegIdx) (s : State) : Except Err State :=
  match memWriteBlock s s.i (bcdDigits (s.readV x)) with
  | .ok t => .ok t.advance
  | .error e => .error e

/-- `Fx33` LD B,Vx (R123). -/
def execLdB (x : RegIdx) (s : State) : Host.Outcome State Fault Refusal :=
  finish (encode (.ldB x)) false s (bcdEffect x s)

/-- The effect of LD [I],Vx: `V[0]` to `V[x]` stored from `I`, and `I` advanced by `x + 1` (R124). -/
def storeRegsEffect (x : RegIdx) (s : State) : Except Err State :=
  match memWriteBlock s s.i (regsUpTo s x) with
  | .ok t => .ok (t.advanceI x).advance
  | .error e => .error e

/-- `Fx55` LD [I],Vx (R124). -/
def execStoreRegs (x : RegIdx) (s : State) : Host.Outcome State Fault Refusal :=
  finish (encode (.storeRegs x)) false s (storeRegsEffect x s)

/-- The effect of LD Vx,[I]: `V[0]` to `V[x]` loaded from `I`, and `I` advanced by `x + 1` (R125). -/
def loadRegsEffect (x : RegIdx) (s : State) : Except Err State :=
  match memReadBlock s s.i (x.val + 1) with
  | .ok bs => .ok (({ s with v := loadRegsFrom s.v 0 bs } : State).advanceI x).advance
  | .error e => .error e

/-- `Fx65` LD Vx,[I] (R125). -/
def execLoadRegs (x : RegIdx) (s : State) : Host.Outcome State Fault Refusal :=
  finish (encode (.loadRegs x)) false s (loadRegsEffect x s)

end Sys2Proof.Machine
end

