-- ==== Sys2Proof/Machine/Skip.lean ====
section
/-! DEFINITION. The meanings of the conditional skips (spec/41_skip.md rules R90 to R95). None writes a register or a flag, and the
skipped instruction is not fetched. -/

namespace Sys2Proof.Machine

/-- `3xkk` SE Vx,byte (R90). -/
def execSeByte (x : RegIdx) (kk : Byte) (s : State) : Host.Outcome State Fault Refusal :=
  complete (encode (.seByte x kk)) false (s.skipIf (s.readV x == kk))

/-- `4xkk` SNE Vx,byte (R91). -/
def execSneByte (x : RegIdx) (kk : Byte) (s : State) : Host.Outcome State Fault Refusal :=
  complete (encode (.sneByte x kk)) false (s.skipIf (s.readV x != kk))

/-- `5xy0` SE Vx,Vy (R92). -/
def execSeReg (x y : RegIdx) (s : State) : Host.Outcome State Fault Refusal :=
  complete (encode (.seReg x y)) false (s.skipIf (s.readV x == s.readV y))

/-- `9xy0` SNE Vx,Vy (R93). -/
def execSneReg (x y : RegIdx) (s : State) : Host.Outcome State Fault Refusal :=
  complete (encode (.sneReg x y)) false (s.skipIf (s.readV x != s.readV y))

/-- The effect of a key test: skip when key `V[x]` is in the wanted position (R94, R95). -/
def keySkip (x : RegIdx) (pressed : Bool) (s : State) : Except Err State :=
  match keyOperand s x with
  | .ok k => .ok (s.skipIf (s.keys[k] == pressed))
  | .error e => .error e

/-- `Ex9E` SKP Vx (R94). -/
def execSkp (x : RegIdx) (s : State) : Host.Outcome State Fault Refusal :=
  finish (encode (.skp x)) false s (keySkip x true s)

/-- `ExA1` SKNP Vx (R95). -/
def execSknp (x : RegIdx) (s : State) : Host.Outcome State Fault Refusal :=
  finish (encode (.sknp x)) false s (keySkip x false s)

end Sys2Proof.Machine
end

