-- ==== Sys2Proof/Machine/TimerKey.lean ====
section
/-! DEFINITION. The meanings of the timer and key-wait instructions (spec/45_timer_key.md rules R140 to R143). -/

namespace Sys2Proof.Machine

/-- `Fx07` LD Vx,DT (R140). -/
def execLdVxDt (x : RegIdx) (s : State) : Host.Outcome State Fault Refusal :=
  complete (encode (.ldVxDt x)) false (s.setV x s.dt).advance

/-- `Fx0A` LD Vx,K: while no key is pressed "no state changes at all" and the next cycle meets the same instruction;
else `V[x]` becomes the lowest pressed key (R141). -/
def execLdVxK (x : RegIdx) (s : State) : Host.Outcome State Fault Refusal :=
  complete (encode (.ldVxK x)) false
    (match lowestKey s.keys with
      | none => s
      | some k => (s.setV x (BitVec.ofNat 8 k)).advance)

/-- `Fx15` LD DT,Vx (R142). -/
def execLdDtVx (x : RegIdx) (s : State) : Host.Outcome State Fault Refusal :=
  complete (encode (.ldDtVx x)) false (s.setDt (s.readV x)).advance

/-- `Fx18` LD ST,Vx (R143). -/
def execLdStVx (x : RegIdx) (s : State) : Host.Outcome State Fault Refusal :=
  complete (encode (.ldStVx x)) false (s.setSt (s.readV x)).advance

end Sys2Proof.Machine
end

