-- ==== Sys2Proof/Machine/Cycle.lean ====
section
/-! DEFINITION. The core's cycle (spec/10_state.md rule R26) and the fetch of its instruction word
(spec/20_memory.md rule R46). -/

namespace Sys2Proof.Machine

/-- The word at `PC`: two byte reads, "high byte then low byte" (R46). -/
def fetch (s : State) : Except Err Word :=
  match memRead s s.pc with
  | .error e => .error e
  | .ok hi =>
    match memRead s (s.pc + 1) with
    | .error e => .error e
    | .ok lo => .ok (wordOfBytes hi lo)

/-- An unrecognised word (R66): an error under `strict`; under `permissive`, `PC` advances by 2 and only the cycle's
record reports the cause. -/
def unrecognised (w : Word) (s : State) : Host.Outcome State Fault Refusal :=
  match s.cfg.unknownOpcodePolicy with
  | .strict => raise w (.unknownOpcode w) s
  | .permissive =>
    .next (s.advance.answer (.cycleDone ⟨false, w, (Err.unknownOpcode w).code, (Err.unknownOpcode w).info⟩))

/-- A fetched word: decode it and execute its row (R26). -/
def runWord (w : Word) (s : State) : Host.Outcome State Fault Refusal :=
  match decodeWord w with
  | some i => exec i s
  | none => unrecognised w s

/-- A cycle of a core that is not halted: fetch, then the word; a failed fetch records no word (R26, R46, R154). -/
def runCycle (s : State) : Host.Outcome State Fault Refusal :=
  match fetch s with
  | .ok w => runWord w s
  | .error e => raise 0 e s

/-- A cycle of a halted core: nothing is executed and the recorded error is returned again (R26, R156). -/
def haltedCycle (s : State) : Host.Outcome State Fault Refusal :=
  .next (s.answer (.cycleDone ⟨false, s.errOpcode, s.errCause, 0⟩))

/-- The boot sequence is over with the first cycle: no `load_rom` after it (R183). -/
def State.booted (s : State) : State := { s with loadable := false }

/-- One invocation of "execute one instruction cycle" (R26, R30). -/
def cycle (s : State) : Host.Outcome State Fault Refusal :=
  if s.halt then haltedCycle s.booted else runCycle s.booted

end Sys2Proof.Machine
end

