-- ==== Sys2Proof/Machine/Events.lean ====
section
/-! DEFINITION. The actions of the host and of the timer driver (spec/10_state.md rules R27 to R34,
spec/60_exceptions.md rule R170). -/

namespace Sys2Proof.Machine

/-- `reset` (R27, R180): every item of R10 at its reset value, from any state. The parameters are not touched; the
draws already made and the events still to come stay as they are. -/
def resetEvent (s : State) : State := { State.reset with cfg := s.cfg, draws := s.draws, events := s.events }

/-- `romBase`: "loaded to address 0x200" (R28, R46). -/
def romBase : Nat := 0x200

/-- ROM_MAX, "4096 - 512", the longest image that loads (R5, R28). -/
def romMax : Nat := 3584

/-- `mem[k + j] <- bs[j]` for every `j`. -/
def pokeBytes (s : State) (k : Nat) (bs : List Byte) : State :=
  match bs with
  | [] => s
  | b :: rest => pokeBytes (s.poke k b) (k + 1) rest

/-- `load_rom` (R28, R151): copy the image to 0x200, or reject it when it is longer than ROM_MAX; it is legal once,
after reset and before the first cycle (R183), and elsewhere outside the spec. -/
def loadRomEvent (bs : List Byte) (s : State) : Host.Outcome State Fault Refusal :=
  if s.loadable then
    if bs.length ≤ romMax then
      .next (({ pokeBytes s romBase bs with loadable := false } : State).answer (.romLoaded true))
    else .next (({ s with loadable := false } : State).answer (.romLoaded false))
  else .refused .loadRomOutsideBoot

/-- The key vector after the host's write: the keys that it names take its values, the others stay (R29). -/
def mergeKeys (ks : Vector (Option Bool) 16) (keys : Vector Bool 16) : Vector Bool 16 :=
  Vector.ofFn fun k => (ks[k]).getD keys[k]

/-- `set_keys` (R29). -/
def setKeysEvent (ks : Vector (Option Bool) 16) (s : State) : State :=
  ({ s with keys := mergeKeys ks s.keys } : State).answer .nothing

/-- "if DT != 0: DT <- DT - 1", and the same for `ST` (R170). -/
def countDown (b : Byte) : Byte := if b = 0 then 0 else b - 1

/-- `tick60` (R31, R170), whatever the core is doing. -/
def tickEvent (s : State) : State := ((s.setDt (countDown s.dt)).setSt (countDown s.st)).answer .nothing

/-- `read_framebuffer` (R32). -/
def readFramebufferEvent (s : State) : State := s.answer (.cells (rowMajor s.fb))

/-- `read_and_clear_draw_flag` (R33). -/
def readFlagEvent (s : State) : State := ({ s with drawFlag := false } : State).answer (.flag s.drawFlag)

/-- `read_status` (R34). -/
def readStatusEvent (s : State) : State := s.answer (.status s.halt s.errCause s.errOpcode s.errPc)

/-- One atomic action (R25, R35). -/
def runEvent (e : Event) (s : State) : Host.Outcome State Fault Refusal :=
  match e with
  | .reset => .next (resetEvent s)
  | .loadRom bs => loadRomEvent bs s
  | .setKeys ks => .next (setKeysEvent ks s)
  | .cycle => cycle s
  | .tick60 => .next (tickEvent s)
  | .readFramebuffer => .next (readFramebufferEvent s)
  | .readAndClearDrawFlag => .next (readFlagEvent s)
  | .readStatus => .next (readStatusEvent s)

/-- The next action: the first listed event, and with none listed the core's cycle. -/
def State.nextEvent (s : State) : Event :=
  match s.events with
  | [] => .cycle
  | e :: _ => e

/-- The state with its next action taken off the list. -/
def State.takeEvent (s : State) : State := { s with events := s.events.tail }

end Sys2Proof.Machine
end

