-- ==== Sys2Proof/Machine/Step.lean ====
section
/-! DEFINITION. The step of the machine: one atomic action of one agent (spec/10_state.md rules R25, R26, R35). -/

namespace Sys2Proof.Machine

/-- One step: the next action of the host's order, which is the core's cycle when no event is listed. -/
def step (s : State) : Host.Outcome State Fault Refusal := runEvent s.nextEvent s.takeEvent

/-- The state `s` with the word `w` stored where the next cycle fetches it, and that cycle the next action. What the
fetch needs is set and nothing else: the core is not halted, no event comes first, and `PC` is an address whose two
bytes exist (0x200 where ADDR_POLICY would reject `PC`). -/
def State.withFetchWord (s : State) (nbits w : Nat) : State :=
  let word : Word := BitVec.ofNat 16 (w % 2 ^ nbits)
  let ready : State :=
    { s with
      halt := false, events := []
      pc := match fetch s with
        | .ok _ => s.pc
        | .error _ => 0x0200 }
  pokeBytes (pokeBytes ready (ready.pc.toNat % 4096) [word.extractLsb' 8 8])
    ((ready.pc + 1).toNat % 4096) [word.extractLsb' 0 8]

end Sys2Proof.Machine
end

