-- ==== Sys2Proof/Safety.lean ====
section
/-! DEFINITION. The terms in which claims about a run are stated: what stays unchanged (frames), which error an
instruction raises in a state (spec/60_exceptions.md rule R150), the invariants of the machine, the reset state
(spec/70_reset_and_hazards.md rule R180), a finished run (rule R185). -/

namespace Sys2Proof.Safety

open Sys2Proof.Machine

/-! ### Frames -/

/-- Every byte of memory reads as before. -/
def SameMemory (s t : State) : Prop := ∀ a, t.peek a = s.peek a

/-- The call stack and its pointer are as before. -/
def SameStack (s t : State) : Prop := t.stack = s.stack ∧ t.sp = s.sp

/-- Both timers are as before. -/
def SameTimers (s t : State) : Prop := t.dt = s.dt ∧ t.st = s.st

/-- The framebuffer and `draw_flag` are as before. -/
def SameScreen (s t : State) : Prop := t.fb = s.fb ∧ t.drawFlag = s.drawFlag

/-- The four status registers are as before. -/
def SameStatus (s t : State) : Prop :=
  t.halt = s.halt ∧ t.errCause = s.errCause ∧ t.errOpcode = s.errOpcode ∧ t.errPc = s.errPc

/-- What belongs to the host and to the model is as before: the keys, the parameters, the events still to come, whether
a program may be loaded. -/
def SameOutside (s t : State) : Prop :=
  t.keys = s.keys ∧ t.cfg = s.cfg ∧ t.events = s.events ∧ t.loadable = s.loadable

/-- Every general register but the listed ones is as before. -/
def SameRegsBut (xs : List RegIdx) (s t : State) : Prop := ∀ r, r ∉ xs → t.readV r = s.readV r

/-- What an instruction that only works on registers leaves alone: all but the general registers, `I` and `PC`. -/
def RegisterFrame (s t : State) : Prop :=
  SameMemory s t ∧ SameStack s t ∧ SameTimers s t ∧ SameScreen s t ∧ SameStatus s t ∧ SameOutside s t ∧
    t.draws = s.draws

/-- All of R10's items are as before but `HALT`, `ERR_CAUSE`, `ERR_OPCODE` and `ERR_PC`: what an error keeps (R156). -/
def SameButStatus (s t : State) : Prop :=
  t.mem = s.mem ∧ t.v = s.v ∧ t.i = s.i ∧ t.pc = s.pc ∧ SameStack s t ∧ SameTimers s t ∧ SameScreen s t ∧
    SameOutside s t ∧ t.draws = s.draws

/-- The cycle returned `(changed, opcode, 0, 0)`: it completed (R30). -/
def Returned (t : State) (changed : Bool) (w : Word) : Prop := t.reply = .cycleDone ⟨changed, w, 0, 0⟩

/-- The instructions whose completion a cycle reports with `changed = 1` (R30). -/
def changesScreen (i : Instr) : Bool :=
  match i with
  | .cls | .drw _ _ _ => true
  | .ret | .jp _ | .call _ | .seByte _ _ | .sneByte _ _ | .seReg _ _ | .sneReg _ _ => false
  | .ldByte _ _ | .addByte _ _ | .ldReg _ _ | .orReg _ _ | .andReg _ _ | .xorReg _ _ => false
  | .addReg _ _ | .subReg _ _ | .shr _ _ | .subnReg _ _ | .shl _ _ | .ldI _ | .jpV0 _ | .rnd _ _ => false
  | .skp _ | .sknp _ | .ldVxDt _ | .ldVxK _ | .ldDtVx _ | .ldStVx _ => false
  | .addI _ | .ldF _ | .ldB _ | .storeRegs _ | .loadRegs _ | .sys _ => false

/-! ### Errors (R150) -/

/-- The address `I + k`, modulo 2^16 (R48). -/
def atI (s : State) (k : Nat) : Word := s.i + BitVec.ofNat 16 k

/-- The error of `n` accesses at `I`, `I + 1`, ...: the first address of 4096 or more, under `reject` (R154). -/
def firstOutside (s : State) (n : Nat) : Option Err :=
  match s.cfg.addrPolicy with
  | .wrap => none
  | .reject =>
    (((List.range n).map (atI s)).find? fun a => decide (4096 ≤ a.toNat)).map .addressOutOfRange

/-- The error that an instruction raises in a state, `none` when it completes: the table of R150. -/
def errorOf (i : Instr) (s : State) : Option Err :=
  match i with
  | .call _ => if s.sp = 16 then some .stackOverflow else none
  | .ret => if s.sp = 0 then some .stackUnderflow else none
  | .skp x | .sknp x => if 15 < (s.readV x).toNat then some (.keyIndexOutOfRange (s.readV x)) else none
  | .drw _ y n => firstOutside s (rowsDrawn (s.readV y) n)
  | .ldB _ => firstOutside s 3
  | .storeRegs x | .loadRegs x => firstOutside s (x.val + 1)
  | .cls | .jp _ | .seByte _ _ | .sneByte _ _ | .seReg _ _ | .sneReg _ _ => none
  | .ldByte _ _ | .addByte _ _ | .ldReg _ _ | .orReg _ _ | .andReg _ _ | .xorReg _ _ => none
  | .addReg _ _ | .subReg _ _ | .shr _ _ | .subnReg _ _ | .shl _ _ | .ldI _ | .jpV0 _ | .rnd _ _ => none
  | .ldVxDt _ | .ldVxK _ | .ldDtVx _ | .ldStVx _ | .addI _ | .ldF _ | .sys _ => none

/-! ### Invariants -/

/-- Memory is in its canonical form, inside its 4096 bytes. -/
def MemoryCanonical (s : State) : Prop := Memory.wf s.cfg s.mem = true

/-- A halted core's registers still show its error: `ERR_PC` is `PC`, and the cause is that of a failed fetch, of an
unrecognised word, or of the instruction in `ERR_OPCODE`, which raises it in this very state. -/
def ShowsError (s : State) : Prop :=
  s.errPc = s.pc ∧
    ((s.errCause = 4 ∧ s.errOpcode = 0 ∧ s.cfg.addrPolicy = .reject ∧ 0x0FFF ≤ s.pc.toNat) ∨
      (s.errCause = 3 ∧ s.cfg.unknownOpcodePolicy = .strict ∧ decodeWord s.errOpcode = none) ∨
      ∃ i e, decodeWord s.errOpcode = some i ∧ errorOf i s = some e ∧ s.errCause = e.code)

/-- The status registers are consistent (R21, R156): clear while the core runs, true to the state once it halted. -/
def StatusConsistent (s : State) : Prop :=
  if s.halt then ShowsError s else s.errCause = 0 ∧ s.errOpcode = 0 ∧ s.errPc = 0

/-- The call stack's live entries and everything else agree; the slots above `SP` may differ (R16, D8). -/
def SameButStaleSlots (s t : State) : Prop :=
  t = { s with stack := t.stack } ∧ ∀ k : Fin 16, k.val < s.sp.val → t.stack[k] = s.stack[k]

/-- Everything agrees but `ST`, `draw_flag`, `ERR_CAUSE`, `ERR_OPCODE` and `ERR_PC`, which no instruction reads (R17,
R19, R21). -/
def SameButUnread (s t : State) : Prop :=
  t = { s with
    st := t.st, drawFlag := t.drawFlag, errCause := t.errCause, errOpcode := t.errOpcode, errPc := t.errPc }

/-! ### Reset and the end of a run -/

/-- Every item of R10 has its reset value, with FONT the parameter's (R180). -/
def IsResetState (t : State) : Prop :=
  (∀ r, t.readV r = 0) ∧ t.i = 0 ∧ t.pc = 0x200 ∧ t.sp = 0 ∧ (∀ k : Fin 16, t.stack[k] = 0) ∧
    t.dt = 0 ∧ t.st = 0 ∧ (∀ r c, cell t.fb r c = false) ∧ t.drawFlag = false ∧
    (∀ k : Fin 16, t.keys[k] = false) ∧
    t.halt = false ∧ t.errCause = 0 ∧ t.errOpcode = 0 ∧ t.errPc = 0 ∧
    (∀ a, a < 0x050 → t.peek a = 0) ∧ (∀ k : Fin 80, t.peek (0x050 + k.val) = t.cfg.font[k]) ∧
    (∀ a, 0x0A0 ≤ a → a < 4096 → t.peek a = 0)

/-- A finished run, the optional definition of R185: "`HALT = 0`, and the word at `PC` is `1nnn` with `nnn = PC`"
(D19, assumption 26). -/
def Finished (s : State) : Prop :=
  s.halt = false ∧ ∃ nnn : Addr12, fetch s = .ok (encode (.jp nnn)) ∧ zext12 nnn = s.pc

end Sys2Proof.Safety
end

