-- ==== Sys2Proof/Certificates/Slice0/Obligations.lean ====
section
/-! DEFINITION. The statements for the provers. Each docstring names the rule of spec/ it formalises, or the decision of
the spec or the log entry it rests on. -/

open Sys2Proof Sys2Proof.Machine Sys2Proof.Safety

/-! ### Encoding (spec/30_encoding.md) -/

/-- R64, R65: the decoder gives back every well-formed instruction from its word, every operand at every value. -/
def Obligations.DecodeOfEncodeIsTheInstruction : Prop :=
  ∀ i : Instr, i.wellFormed = true → decodeWord (encode i) = some i

/-- R61, R64: no bit of a decoded word is dropped, the ignored fields of R69 included, and what the decoder gives is
well-formed. -/
def Obligations.EncodeOfDecodeIsTheWord : Prop :=
  ∀ (w : Word) (i : Instr), decodeWord w = some i → encode i = w ∧ i.wellFormed = true

/-- R64, R65: the decoder is the table. A word that one of rows 1 to 34 selects decodes to an instruction of that row
(so no two of them select one word), row 35 yields to them, and a word that no row selects decodes to nothing. -/
def Obligations.DecoderAgreesWithTheOpcodeTable : Prop :=
  ∀ w : Word,
    (∀ r, r ∈ opcodeRows34 → r.selects w = true → ∃ i, decodeWord w = some i ∧ i.row = r) ∧
    ((∀ r, r ∈ opcodeRows34 → r.selects w = false) →
      decodeWord w = if opcodeRow35.selects w then some (.sys (nnnField w)) else none)

/-- R67, its table of conditions (the counts are left out): which words are unrecognised. -/
def Obligations.UnrecognisedWordsAreTheListedOnes : Prop :=
  ∀ w : Word, decodeWord w = none ↔
    (opField w = 0x5 ∧ nField w ≠ 0) ∨ (opField w = 0x9 ∧ nField w ≠ 0) ∨
    (opField w = 0x8 ∧ nField w ∈ [0x8#4, 0x9#4, 0xA#4, 0xB#4, 0xC#4, 0xD#4, 0xF#4]) ∨
    (opField w = 0xE ∧ kkField w ∉ [0x9E#8, 0xA1#8]) ∨
    (opField w = 0xF ∧
      kkField w ∉ [0x07#8, 0x0A#8, 0x15#8, 0x18#8, 0x1E#8, 0x29#8, 0x33#8, 0x55#8, 0x65#8])

/-- A few words written out from R64's patterns, as bytes in the order of R46: `8AB4`, `D12F`, `F155`, `01E0`, and the
unrecognised `5121`. -/
def Obligations.WrittenOutWordsDecode : Prop :=
  decodeBytes [0b10001010#8, 0b10110100#8] = .ok (.addReg 10 11, []) ∧
  decodeBytes [0b11010001#8, 0b00101111#8] = .ok (.drw 1 2 15, []) ∧
  decodeBytes [0b11110001#8, 0b01010101#8] = .ok (.storeRegs 1, []) ∧
  decodeBytes [0b00000001#8, 0b11100000#8] = .ok (.sys 0x1E0, []) ∧
  decodeBytes [0b01010001#8, 0b00100001#8] = .error (.unknownOpcode 0x5121)

/-! ### The step (spec/10_state.md R25, R26; spec/20_memory.md R46) -/

/-- R26, R46: when the next action is a cycle, the core is not halted and the two bytes at `PC` can be fetched and
decode, high byte first, to an instruction, the step is that instruction's meaning. The step takes the cycle off the
event list and ends the time in which a program may be loaded (assumptions 3, 5); nothing else stands around exec. -/
def Obligations.StepRunsTheDecodedInstruction : Prop :=
  ∀ (s : State) (i : Instr),
    s.nextEvent = .cycle → s.halt = false →
    (s.cfg.addrPolicy = .wrap ∨ s.pc.toNat < 0x0FFF) →
    decodeBytes [s.peek (s.pc.toNat % 4096), s.peek ((s.pc + 1).toNat % 4096)] = .ok (i, []) →
    step s = exec i { s with events := s.events.tail, loadable := false }

/-- R46, R154 (D2, D6; assumptions 10, 12): under `reject`, a cycle that must fetch a byte at 4096 or more halts the
core with cause 4 and no recorded word, and changes nothing else; the address it returns is `PC`, or 0x1000 when only
the second byte is outside.
The returned tuple is the form of D23 (assumption 27), the cause code that of D7 (assumption 13). -/
def Obligations.FetchOutsideMemoryHalts : Prop :=
  ∀ s : State, s.nextEvent = .cycle → s.halt = false → s.cfg.addrPolicy = .reject → 0x0FFF ≤ s.pc.toNat →
    ∃ t, step s = .next t ∧ SameButStatus { s with events := s.events.tail, loadable := false } t ∧
      t.halt = true ∧ t.errCause = 4 ∧ t.errOpcode = 0 ∧ t.errPc = s.pc ∧
      t.reply = .cycleDone ⟨false, 0, 4, if s.pc = 0x0FFF then 0x1000 else s.pc⟩

/-- R66, R155 (D4, D20; assumption 11): an unrecognised word halts the core under `strict` with cause 3, the word and
its address; under `permissive` `PC` advances by 2 and nothing else changes. Both return `(0, w, 3, w)`.
The returned tuple is the form of D23 (assumption 27), the cause code that of D7 (assumption 13). -/
def Obligations.UnrecognisedWordHaltsOrIsSkipped : Prop :=
  ∀ (s : State) (w : Word),
    s.nextEvent = .cycle → s.halt = false →
    (s.cfg.addrPolicy = .wrap ∨ s.pc.toNat < 0x0FFF) →
    decodeBytes [s.peek (s.pc.toNat % 4096), s.peek ((s.pc + 1).toNat % 4096)] = .error (.unknownOpcode w) →
    ∃ t, step s = .next t ∧ t.reply = .cycleDone ⟨false, w, 3, w⟩ ∧
      (s.cfg.unknownOpcodePolicy = .strict →
        SameButStatus { s with events := s.events.tail, loadable := false } t ∧
          t.halt = true ∧ t.errCause = 3 ∧ t.errOpcode = w ∧ t.errPc = s.pc) ∧
      (s.cfg.unknownOpcodePolicy = .permissive →
        RegisterFrame { s with events := s.events.tail, loadable := false } t ∧
          SameRegsBut [] s t ∧ t.i = s.i ∧ t.pc = s.pc + 2)

/-- R26, R156 (D6; assumption 12): a cycle of a halted core executes nothing and returns the recorded error again.
The returned tuple is the form of D23 (assumption 27). -/
def Obligations.HaltedCoreExecutesNothing : Prop :=
  ∀ s : State, s.nextEvent = .cycle → s.halt = true →
    ∃ t, step s = .next t ∧ SameButStatus { s with events := s.events.tail, loadable := false } t ∧
      SameStatus s t ∧ t.reply = .cycleDone ⟨false, s.errOpcode, s.errCause, 0⟩

/-- R150, R156: a step ends in a next state whatever the state is, except for a `load_rom` that R183 puts outside the
spec (D19; assumption 5): no instruction stops the machine, an error included. -/
def Obligations.OnlyALateLoadIsRefused : Prop :=
  ∀ s : State, (∃ t, step s = .next t) ∨
    (step s = .refused .loadRomOutsideBoot ∧ s.loadable = false ∧ ∃ bs, s.nextEvent = .loadRom bs)

/-! ### Whole-machine rules -/

/-- R30, R150, R154, R156, R158 (D2, D6, D7, D10, D12, D21; assumptions 10, 12, 13, 16, 22, 29): the error table. An
instruction that the table gives an error halts the core with that cause and keeps every other item of state as it
was; every other one completes: it leaves the status registers as they are and returns its word with error 0, and `changed` for CLS and DRW
only (D23; assumption 27). -/
def Obligations.InstructionsRaiseExactlyTheTabledErrors : Prop :=
  ∀ (i : Instr) (s : State), ∃ t, exec i s = .next t ∧
    match errorOf i s with
    | some e =>
      SameButStatus s t ∧ t.halt = true ∧ t.errCause = e.code ∧ t.errOpcode = encode i ∧ t.errPc = s.pc ∧
        t.reply = .cycleDone ⟨false, encode i, e.code, e.info⟩
    | none => SameStatus s t ∧ Returned t (changesScreen i) (encode i)

/-- R10, the table's column "written by": which instructions may change which item of state. No instruction writes the
keys, the parameters or the list of events. -/
def Obligations.StateIsWrittenOnlyByItsInstructions : Prop :=
  ∀ (i : Instr) (s t : State), exec i s = .next t →
    SameOutside s t ∧
    ((∀ x, i ≠ .ldB x) → (∀ x, i ≠ .storeRegs x) → SameMemory s t) ∧
    ((∀ n, i ≠ .ldI n) → (∀ x, i ≠ .addI x) → (∀ x, i ≠ .ldF x) → (∀ x, i ≠ .storeRegs x) →
      (∀ x, i ≠ .loadRegs x) → t.i = s.i) ∧
    ((∀ n, i ≠ .call n) → t.stack = s.stack) ∧
    ((∀ n, i ≠ .call n) → i ≠ .ret → t.sp = s.sp) ∧
    ((∀ x, i ≠ .ldDtVx x) → t.dt = s.dt) ∧
    ((∀ x, i ≠ .ldStVx x) → t.st = s.st) ∧
    (i ≠ .cls → (∀ x y n, i ≠ .drw x y n) → SameScreen s t) ∧
    ((∀ x k, i ≠ .rnd x k) → t.draws = s.draws)

/-- R13 with R100 (D5, D9; assumptions 15, 21): the instructions that write `VF` as a side effect and the value they
leave, `x = 15` included; every other instruction leaves `VF` alone unless it loads or writes register 15. -/
def Obligations.FlagIsWrittenOnlyByItsInstructions : Prop :=
  ∀ (i : Instr) (s t : State), exec i s = .next t →
    match i with
    | .orReg x _ | .andReg x _ | .xorReg x _ =>
      (s.cfg.logicVfReset = true → t.readV 15 = 0) ∧
        (s.cfg.logicVfReset = false → x ≠ 15 → t.readV 15 = s.readV 15)
    | .addReg x y => t.readV 15 = if 255 < (s.readV x).toNat + (s.readV y).toNat then 1 else 0
    | .subReg x y => t.readV 15 = if (s.readV y).toNat ≤ (s.readV x).toNat then 1 else 0
    | .subnReg x y => t.readV 15 = if (s.readV x).toNat ≤ (s.readV y).toNat then 1 else 0
    | .shr x _ => (t.readV 15).toNat = (s.readV x).toNat % 2
    | .shl x _ => (t.readV 15).toNat = (s.readV x).toNat / 128
    | .drw x y n =>
      (errorOf (.drw x y n) s = none → t.readV 15 = 0 ∨ t.readV 15 = 1) ∧
        (errorOf (.drw x y n) s ≠ none → t.readV 15 = s.readV 15)
    | .ldByte x _ | .addByte x _ | .ldReg x _ | .rnd x _ | .ldVxDt x | .ldVxK x | .loadRegs x =>
      x ≠ 15 → t.readV 15 = s.readV 15
    | .cls | .ret | .jp _ | .call _ | .seByte _ _ | .sneByte _ _ | .seReg _ _ | .sneReg _ _ | .ldI _ | .jpV0 _
    | .skp _ | .sknp _ | .ldDtVx _ | .ldStVx _ | .addI _ | .ldF _ | .ldB _ | .storeRegs _ | .sys _ =>
      t.readV 15 = s.readV 15

/-! ### Control transfer (spec/40_control.md) -/

/-- R80, R82, R84: SYS advances `PC` by 2 and ignores its operand, JP goes to `nnn`, JP V0 to the whole sum of `nnn` and
`V0`; nothing but `PC` changes. -/
def Obligations.JumpsWriteThePcAndNothingElse : Prop :=
  ∀ (nnn : Addr12) (s : State),
    (∃ t, exec (.sys nnn) s = .next t ∧ t.pc = s.pc + 2 ∧ SameRegsBut [] s t ∧ t.i = s.i ∧ RegisterFrame s t) ∧
    (∃ t, exec (.jp nnn) s = .next t ∧ t.pc.toNat = nnn.toNat ∧ SameRegsBut [] s t ∧ t.i = s.i ∧
      RegisterFrame s t) ∧
    (∃ t, exec (.jpV0 nnn) s = .next t ∧ t.pc.toNat = nnn.toNat + (s.readV 0).toNat ∧ SameRegsBut [] s t ∧
      t.i = s.i ∧ RegisterFrame s t)

/-- R83 (D8; assumption 14): below 16 entries CALL writes the address after itself into slot `SP`, leaves the other
slots, counts up `SP` and goes to `nnn`; nothing else changes.
The returned tuple is the form of D23 (assumption 27). -/
def Obligations.CallPushesTheNextAddress : Prop :=
  ∀ (nnn : Addr12) (s : State) (h : s.sp.val < 16),
    ∃ t, exec (.call nnn) s = .next t ∧ t.pc.toNat = nnn.toNat ∧ t.sp.val = s.sp.val + 1 ∧
      t.stack[s.sp.val]'h = s.pc + 2 ∧ (∀ k : Fin 16, k.val ≠ s.sp.val → t.stack[k] = s.stack[k]) ∧
      SameRegsBut [] s t ∧ t.i = s.i ∧ SameMemory s t ∧ SameTimers s t ∧ SameScreen s t ∧ SameStatus s t ∧
      SameOutside s t ∧ t.draws = s.draws ∧ Returned t false (encode (.call nnn))

/-- R81 (D8; assumption 14): with an entry on the stack RET counts down `SP` and goes to the popped value as it is; the
slot keeps its value and nothing else changes.
The returned tuple is the form of D23 (assumption 27). -/
def Obligations.ReturnPopsTheLastAddress : Prop :=
  ∀ (s : State) (h : 0 < s.sp.val),
    ∃ t, exec .ret s = .next t ∧ t.sp.val = s.sp.val - 1 ∧ t.pc = s.stack[s.sp.val - 1]'(by omega) ∧
      t.stack = s.stack ∧ SameRegsBut [] s t ∧ t.i = s.i ∧ SameMemory s t ∧ SameTimers s t ∧ SameScreen s t ∧
      SameStatus s t ∧ SameOutside s t ∧ t.draws = s.draws ∧ Returned t false (encode .ret)

/-- R83, "executing CALL then RET": from any state with fewer than 16 entries (D8; assumption 14), with any run of
states between them that leaves `SP` and the live entries as the CALL left them, RET comes back to the instruction
after the CALL and to the depth before it. -/
def Obligations.CallThenReturnComesBack : Prop :=
  ∀ (nnn : Addr12) (s t u v : State), s.sp.val < 16 → exec (.call nnn) s = .next t →
    u.sp = t.sp → (∀ k : Fin 16, k.val < t.sp.val → u.stack[k] = t.stack[k]) → exec .ret u = .next v →
    v.pc = s.pc + 2 ∧ v.sp = s.sp ∧ v.halt = u.halt

/-- R152, R153, R156 (D6; assumption 12): CALL with 16 entries and RET with none halt the core; no slot is written, and
`SP` and `PC` stay.
The returned tuple is the form of D23 (assumption 27), the cause code that of D7 (assumption 13). -/
def Obligations.StackErrorsAreReported : Prop :=
  ∀ (nnn : Addr12) (s : State),
    (s.sp = 16 → ∃ t, exec (.call nnn) s = .next t ∧ SameButStatus s t ∧ t.halt = true ∧ t.errCause = 1 ∧
      t.errOpcode = encode (.call nnn) ∧ t.errPc = s.pc ∧
      t.reply = .cycleDone ⟨false, encode (.call nnn), 1, 0⟩) ∧
    (s.sp = 0 → ∃ t, exec .ret s = .next t ∧ SameButStatus s t ∧ t.halt = true ∧ t.errCause = 2 ∧
      t.errOpcode = encode .ret ∧ t.errPc = s.pc ∧ t.reply = .cycleDone ⟨false, encode .ret, 2, 0⟩)

/-! ### Skips (spec/41_skip.md) -/

/-- R90 to R93: the four comparisons skip, `PC` + 4, or advance, `PC` + 2, and change nothing else. -/
def Obligations.ComparisonsSkipTheNextInstruction : Prop :=
  ∀ (x y : RegIdx) (kk : Byte) (s : State),
    (∃ t, exec (.seByte x kk) s = .next t ∧ t.pc = (if s.readV x = kk then s.pc + 4 else s.pc + 2) ∧
      SameRegsBut [] s t ∧ t.i = s.i ∧ RegisterFrame s t) ∧
    (∃ t, exec (.sneByte x kk) s = .next t ∧ t.pc = (if s.readV x = kk then s.pc + 2 else s.pc + 4) ∧
      SameRegsBut [] s t ∧ t.i = s.i ∧ RegisterFrame s t) ∧
    (∃ t, exec (.seReg x y) s = .next t ∧ t.pc = (if s.readV x = s.readV y then s.pc + 4 else s.pc + 2) ∧
      SameRegsBut [] s t ∧ t.i = s.i ∧ RegisterFrame s t) ∧
    (∃ t, exec (.sneReg x y) s = .next t ∧ t.pc = (if s.readV x = s.readV y then s.pc + 2 else s.pc + 4) ∧
      SameRegsBut [] s t ∧ t.i = s.i ∧ RegisterFrame s t)

/-- R94, R95: with `V[x]` naming a key, SKP skips when it is pressed and SKNP when it is not; nothing else changes.
The returned tuple is the form of D23 (assumption 27). -/
def Obligations.KeyTestsSkipOnTheKey : Prop :=
  ∀ (x : RegIdx) (k : Fin 16) (s : State), (s.readV x).toNat = k.val →
    (∃ t, exec (.skp x) s = .next t ∧ t.pc = (if s.keys[k] = true then s.pc + 4 else s.pc + 2) ∧
      SameRegsBut [] s t ∧ t.i = s.i ∧ RegisterFrame s t ∧ Returned t false (encode (.skp x))) ∧
    (∃ t, exec (.sknp x) s = .next t ∧ t.pc = (if s.keys[k] = true then s.pc + 2 else s.pc + 4) ∧
      SameRegsBut [] s t ∧ t.i = s.i ∧ RegisterFrame s t ∧ Returned t false (encode (.sknp x)))

/-- R157 (D10; assumption 16): with `V[x]` above 15 both key tests halt the core with cause 5 and return `V[x]`.
The returned tuple is the form of D23 (assumption 27), the cause code that of D7 (assumption 13). -/
def Obligations.KeyNumberAboveFifteenHalts : Prop :=
  ∀ (x : RegIdx) (s : State) (i : Instr), i = .skp x ∨ i = .sknp x → 15 < (s.readV x).toNat →
    ∃ t, exec i s = .next t ∧ SameButStatus s t ∧ t.halt = true ∧ t.errCause = 5 ∧ t.errOpcode = encode i ∧
      t.errPc = s.pc ∧ t.reply = .cycleDone ⟨false, encode i, 5, (s.readV x).setWidth 16⟩

/-! ### Registers and arithmetic (spec/42_alu.md) -/

/-- R101, R111: the loads write `V[x]`, `VF` included as an ordinary register, and nothing else but `PC`. -/
def Obligations.RegisterLoadsWriteOneRegister : Prop :=
  ∀ (x y : RegIdx) (kk : Byte) (s : State),
    (∃ t, exec (.ldByte x kk) s = .next t ∧ t.readV x = kk ∧ SameRegsBut [x] s t ∧ t.pc = s.pc + 2 ∧ t.i = s.i ∧
      RegisterFrame s t) ∧
    (∃ t, exec (.ldReg x y) s = .next t ∧ t.readV x = s.readV y ∧ SameRegsBut [x] s t ∧ t.pc = s.pc + 2 ∧
      t.i = s.i ∧ RegisterFrame s t)

/-- R102: the sum modulo 256, with no flag. -/
def Obligations.AddImmediateWrapsWithoutFlag : Prop :=
  ∀ (x : RegIdx) (kk : Byte) (s : State),
    ∃ t, exec (.addByte x kk) s = .next t ∧ (t.readV x).toNat = ((s.readV x).toNat + kk.toNat) % 256 ∧
      SameRegsBut [x] s t ∧ t.pc = s.pc + 2 ∧ t.i = s.i ∧ RegisterFrame s t

/-- R103 to R105 (D5, D9; assumptions 15, 21): the bitwise results. `VF` ends 0 under LOGIC_VF_RESET, also when
`x = 15`; without it `VF` is an ordinary register.
The returned tuple is the form of D23 (assumption 27). -/
def Obligations.LogicComputesBitwiseResults : Prop :=
  ∀ (x y : RegIdx) (s : State) (i : Instr) (r : Byte),
    (i = .orReg x y ∧ r = s.readV x ||| s.readV y) ∨ (i = .andReg x y ∧ r = s.readV x &&& s.readV y) ∨
      (i = .xorReg x y ∧ r = s.readV x ^^^ s.readV y) →
    ∃ t, exec i s = .next t ∧
      (s.cfg.logicVfReset = true → t.readV 15 = 0 ∧ (x ≠ 15 → t.readV x = r) ∧ SameRegsBut [x, 15] s t) ∧
      (s.cfg.logicVfReset = false → t.readV x = r ∧ SameRegsBut [x] s t) ∧
      t.pc = s.pc + 2 ∧ t.i = s.i ∧ RegisterFrame s t ∧ Returned t false (encode i)

/-- R106: the low eight bits of the sum in `V[x]`, the carry in `VF`, which wins when `x = 15`; the operands are the
values before the instruction. -/
def Obligations.AddSetsTheCarry : Prop :=
  ∀ (x y : RegIdx) (s : State),
    ∃ t, exec (.addReg x y) s = .next t ∧
      (x ≠ 15 → (t.readV x).toNat = ((s.readV x).toNat + (s.readV y).toNat) % 256) ∧
      (t.readV 15).toNat = (if 255 < (s.readV x).toNat + (s.readV y).toNat then 1 else 0) ∧
      SameRegsBut [x, 15] s t ∧ t.pc = s.pc + 2 ∧ t.i = s.i ∧ RegisterFrame s t

/-- R107, R109 (`x = 15` by D9, assumption 15): the difference modulo 256 in `V[x]`, no-borrow in `VF`, in both
directions; the flag wins when `x = 15`.
The returned tuple is the form of D23 (assumption 27). -/
def Obligations.SubtractionsSetNoBorrow : Prop :=
  ∀ (x y : RegIdx) (s : State) (i : Instr) (a b : Byte),
    (i = .subReg x y ∧ a = s.readV x ∧ b = s.readV y) ∨ (i = .subnReg x y ∧ a = s.readV y ∧ b = s.readV x) →
    ∃ t, exec i s = .next t ∧
      (x ≠ 15 → (t.readV x).toNat = (if b.toNat ≤ a.toNat then a.toNat - b.toNat else 256 + a.toNat - b.toNat)) ∧
      (t.readV 15).toNat = (if b.toNat ≤ a.toNat then 1 else 0) ∧
      SameRegsBut [x, 15] s t ∧ t.pc = s.pc + 2 ∧ t.i = s.i ∧ RegisterFrame s t ∧ Returned t false (encode i)

/-- R108, R110, R69 (`x = 15` by D9, assumption 15): the shifts by one of `V[x]` itself, the bit shifted out in `VF`;
`V[y]` is neither read nor written.
The returned tuple is the form of D23 (assumption 27). -/
def Obligations.ShiftsMoveOneBitIntoTheFlag : Prop :=
  ∀ (x y : RegIdx) (s : State),
    (∃ t, exec (.shr x y) s = .next t ∧ (x ≠ 15 → (t.readV x).toNat = (s.readV x).toNat / 2) ∧
      (t.readV 15).toNat = (s.readV x).toNat % 2 ∧ SameRegsBut [x, 15] s t ∧ t.pc = s.pc + 2 ∧ t.i = s.i ∧
      RegisterFrame s t ∧ Returned t false (encode (.shr x y))) ∧
    (∃ t, exec (.shl x y) s = .next t ∧ (x ≠ 15 → (t.readV x).toNat = 2 * (s.readV x).toNat % 256) ∧
      (t.readV 15).toNat = (s.readV x).toNat / 128 ∧ SameRegsBut [x, 15] s t ∧ t.pc = s.pc + 2 ∧ t.i = s.i ∧
      RegisterFrame s t ∧ Returned t false (encode (.shl x y)))

/-- R112 (D17; assumption 2): RND draws one fresh byte and keeps of it the bits of `kk`, whatever the byte is. The draw
is the free value Config.rnd of the state's count.
The returned tuple is the form of D23 (assumption 27). -/
def Obligations.RandomKeepsOnlyTheMaskedBits : Prop :=
  ∀ (x : RegIdx) (kk : Byte) (s : State),
    ∃ t, exec (.rnd x kk) s = .next t ∧ t.readV x = Config.rnd s.draws &&& kk ∧ t.readV x &&& ~~~kk = 0 ∧
      t.draws = s.draws + 1 ∧ SameRegsBut [x] s t ∧ t.pc = s.pc + 2 ∧ t.i = s.i ∧
      SameMemory s t ∧ SameStack s t ∧ SameTimers s t ∧ SameScreen s t ∧ SameStatus s t ∧ SameOutside s t ∧
      Returned t false (encode (.rnd x kk))

/-! ### The index register and memory (spec/43_index_memory.md) -/

/-- R120: LD I writes `nnn` into `I`, and nothing else but `PC`. -/
def Obligations.LoadIndexWritesTheAddress : Prop :=
  ∀ (nnn : Addr12) (s : State),
    ∃ t, exec (.ldI nnn) s = .next t ∧ t.i.toNat = nnn.toNat ∧ t.pc = s.pc + 2 ∧ SameRegsBut [] s t ∧
      RegisterFrame s t

/-- R121, R122 (the wrap at 2^16 by D3, `V[x]` above 15 by D25; assumptions 19, 28): ADD I adds `V[x]` in 16 bits
without a flag, LD F writes the glyph address of `V[x]`; nothing else but `PC` changes.
The returned tuple is the form of D23 (assumption 27). -/
def Obligations.IndexArithmeticIsSixteenBits : Prop :=
  ∀ (x : RegIdx) (s : State),
    (∃ t, exec (.addI x) s = .next t ∧ t.i.toNat = (s.i.toNat + (s.readV x).toNat) % 65536 ∧ t.pc = s.pc + 2 ∧
      SameRegsBut [] s t ∧ RegisterFrame s t ∧ Returned t false (encode (.addI x))) ∧
    (∃ t, exec (.ldF x) s = .next t ∧ t.i.toNat = 0x050 + 5 * (s.readV x).toNat ∧ t.pc = s.pc + 2 ∧
      SameRegsBut [] s t ∧ RegisterFrame s t ∧ Returned t false (encode (.ldF x)))

/-- R123 (D2; assumption 10): LD B stores the decimal digits of `V[x]`, hundreds first, at `I`, `I + 1`, `I + 2`, each
address under ADDR_POLICY, and nothing else; `I` and the registers are unchanged. The memory is canonical, which
every step keeps (MemoryStaysCanonical).
The returned tuple is the form of D23 (assumption 27). -/
def Obligations.BcdStoresThreeDigits : Prop :=
  ∀ (x : RegIdx) (s : State), MemoryCanonical s → (s.cfg.addrPolicy = .wrap ∨ s.i.toNat + 2 < 4096) →
    ∃ t, exec (.ldB x) s = .next t ∧
      (t.peek ((atI s 0).toNat % 4096)).toNat = (s.readV x).toNat / 100 ∧
      (t.peek ((atI s 1).toNat % 4096)).toNat = (s.readV x).toNat / 10 % 10 ∧
      (t.peek ((atI s 2).toNat % 4096)).toNat = (s.readV x).toNat % 10 ∧
      (∀ a, (∀ k, k < 3 → a ≠ (atI s k).toNat % 4096) → t.peek a = s.peek a) ∧
      t.pc = s.pc + 2 ∧ t.i = s.i ∧ SameRegsBut [] s t ∧ SameStack s t ∧ SameTimers s t ∧ SameScreen s t ∧
      SameStatus s t ∧ SameOutside s t ∧ t.draws = s.draws ∧ Returned t false (encode (.ldB x))

/-- R124 (D2; assumption 10): LD [I],Vx stores `V[0]` to `V[x]` at `I` to `I + x` (before it moves), each address under
ADDR_POLICY, and nothing else, and moves `I` by `x + 1`.
The returned tuple is the form of D23 (assumption 27). -/
def Obligations.StoreRegistersWritesTheBlock : Prop :=
  ∀ (x : RegIdx) (s : State), MemoryCanonical s → (s.cfg.addrPolicy = .wrap ∨ s.i.toNat + x.val < 4096) →
    ∃ t, exec (.storeRegs x) s = .next t ∧
      (∀ k : RegIdx, k ≤ x → t.peek ((atI s k.val).toNat % 4096) = s.readV k) ∧
      (∀ a, (∀ k, k ≤ x.val → a ≠ (atI s k).toNat % 4096) → t.peek a = s.peek a) ∧
      t.i.toNat = (s.i.toNat + x.val + 1) % 65536 ∧ t.pc = s.pc + 2 ∧ SameRegsBut [] s t ∧ SameStack s t ∧
      SameTimers s t ∧ SameScreen s t ∧ SameStatus s t ∧ SameOutside s t ∧ t.draws = s.draws ∧
      Returned t false (encode (.storeRegs x))

/-- R125 (D2; assumption 10): LD Vx,[I] loads register `k` from `I + k` for every `k` up to `x`, leaves the other
registers, and moves `I` by `x + 1`; it stores nothing.
The returned tuple is the form of D23 (assumption 27). -/
def Obligations.LoadRegistersReadsTheBlock : Prop :=
  ∀ (x : RegIdx) (s : State), (s.cfg.addrPolicy = .wrap ∨ s.i.toNat + x.val < 4096) →
    ∃ t, exec (.loadRegs x) s = .next t ∧
      (∀ k : RegIdx, k ≤ x → t.readV k = s.peek ((atI s k.val).toNat % 4096)) ∧
      (∀ k : RegIdx, x < k → t.readV k = s.readV k) ∧
      t.i.toNat = (s.i.toNat + x.val + 1) % 65536 ∧ t.pc = s.pc + 2 ∧ RegisterFrame s t ∧
      Returned t false (encode (.loadRegs x))

/-- R125, "Round trip": what LD [I],Vx stores, LD Vx,[I] loads back from the same address into the same registers,
whatever the registers held in between (D2; assumption 10). -/
def Obligations.StoreThenLoadRestoresTheRegisters : Prop :=
  ∀ (x : RegIdx) (s t u v : State), MemoryCanonical s → (s.cfg.addrPolicy = .wrap ∨ s.i.toNat + x.val < 4096) →
    exec (.storeRegs x) s = .next t → u.cfg = t.cfg → SameMemory t u → u.i = s.i →
    exec (.loadRegs x) u = .next v →
    (∀ k : RegIdx, k ≤ x → v.readV k = s.readV k) ∧ v.i = t.i ∧ v.halt = u.halt

/-- R50, R154 (D2, D6; assumptions 10, 12): under `reject`, a block that starts inside memory and runs over its end
halts the core with address 0x1000, one that starts outside with `I`; no byte is stored, no register loaded.
The returned tuple is the form of D23 (assumption 27), the cause code that of D7 (assumption 13). -/
def Obligations.BlockOverTheEndHaltsAndWritesNothing : Prop :=
  ∀ (x : RegIdx) (s : State) (i : Instr) (last : Nat),
    (i = .ldB x ∧ last = 2) ∨ (i = .storeRegs x ∧ last = x.val) ∨ (i = .loadRegs x ∧ last = x.val) →
    s.cfg.addrPolicy = .reject → 4096 ≤ s.i.toNat + last →
    ∃ t, exec i s = .next t ∧ SameButStatus s t ∧ t.halt = true ∧ t.errCause = 4 ∧ t.errOpcode = encode i ∧
      t.errPc = s.pc ∧ t.reply = .cycleDone ⟨false, encode i, 4, if s.i.toNat < 4096 then 0x1000 else s.i⟩

/-! ### The display (spec/44_display.md) -/

/-- R130: CLS is the word `00E0`; it clears every cell and sets `draw_flag`, nothing else changes but `PC`, and the cycle
returns `changed = 1`. -/
def Obligations.ClearScreenClearsEveryCell : Prop :=
  decodeWord 0x00E0 = some .cls ∧
  ∀ s : State,
    ∃ t r, exec .cls s = .next t ∧ (∀ r c, r < 32 → c < 64 → cell t.fb r c = false) ∧ t.drawFlag = true ∧
      t.pc = s.pc + 2 ∧ SameRegsBut [] s t ∧ t.i = s.i ∧ SameMemory s t ∧ SameStack s t ∧ SameTimers s t ∧
      SameStatus s t ∧ SameOutside s t ∧ t.draws = s.draws ∧ t.reply = .cycleDone r ∧ r.changed = true

/-- R131, R132 (D2, D12, D13; assumptions 10, 22, 23): DRW in closed form. A cell of the grid is flipped exactly when the
sprite has a bit of 1 on it, `VF` says whether such a cell held 1 before, and nothing else changes but `draw_flag` and
`PC`. Rows and columns off the grid are clipped; only the rows on the grid are read.
The returned tuple is the form of D23 (assumption 27). -/
def Obligations.DrawFlipsTheSpriteCells : Prop :=
  ∀ (x y : RegIdx) (n : Nibble) (s : State),
    (s.cfg.addrPolicy = .wrap ∨
      ∀ r, r < n.toNat → (s.readV y).toNat + r < 32 → (atI s r).toNat < 4096) →
    ∃ t, exec (.drw x y n) s = .next t ∧
      (let x0 := (s.readV x).toNat
       let y0 := (s.readV y).toNat
       let on := fun r c : Nat => y0 ≤ r ∧ r < y0 + n.toNat ∧ x0 ≤ c ∧ c < x0 + 8 ∧
         (s.peek ((atI s (r - y0)).toNat % 4096)).getLsbD (7 - (c - x0)) = true
       (∀ r c, r < 32 → c < 64 → (cell t.fb r c = cell s.fb r c ↔ ¬ on r c)) ∧
       (t.readV 15 = 1 ∨ t.readV 15 = 0) ∧
       (t.readV 15 = 1 ↔ ∃ r c, r < 32 ∧ c < 64 ∧ on r c ∧ cell s.fb r c = true)) ∧
      t.drawFlag = true ∧ t.pc = s.pc + 2 ∧ SameRegsBut [15] s t ∧ t.i = s.i ∧ SameMemory s t ∧ SameStack s t ∧
      SameTimers s t ∧ SameStatus s t ∧ SameOutside s t ∧ t.draws = s.draws ∧ Returned t true (encode (.drw x y n))

/-- R131 (g) (D12, D13; assumptions 22, 23): the same sprite drawn twice at the same place leaves the screen as it was,
and the second `VF` is 1 when the first drawing put on a cell that was off. -/
def Obligations.DrawTwiceRestoresTheScreen : Prop :=
  ∀ (x y : RegIdx) (n : Nibble) (s t u v : State), s.halt = false → exec (.drw x y n) s = .next t → t.halt = false →
    u = { t with v := s.v, pc := u.pc } → exec (.drw x y n) u = .next v →
    v.fb = s.fb ∧ v.halt = false ∧
      ((∃ r c, r < 32 ∧ c < 64 ∧ cell s.fb r c = false ∧ cell t.fb r c = true) → v.readV 15 = 1)

/-- R131, R154, R156 (D2, D6, D12; assumptions 10, 12, 22): under `reject`, a sprite row on the grid whose byte lies at
4096 or more halts the core, with nothing drawn; the address is that of the first such row.
The returned tuple is the form of D23 (assumption 27), the cause code that of D7 (assumption 13). -/
def Obligations.SpriteOutsideMemoryHalts : Prop :=
  ∀ (x y : RegIdx) (n : Nibble) (s : State) (r : Nat), s.cfg.addrPolicy = .reject →
    r < n.toNat → (s.readV y).toNat + r < 32 → 4096 ≤ (atI s r).toNat →
    (∀ q, q < r → (atI s q).toNat < 4096) →
    ∃ t, exec (.drw x y n) s = .next t ∧ SameButStatus s t ∧ t.halt = true ∧ t.errCause = 4 ∧
      t.errOpcode = encode (.drw x y n) ∧ t.errPc = s.pc ∧
      t.reply = .cycleDone ⟨false, encode (.drw x y n), 4, atI s r⟩

/-! ### Timers and the key wait (spec/45_timer_key.md, spec/60_exceptions.md R170) -/

/-- R140, R142, R143: the three timer instructions, each with the one item it writes; a read of `DT` does not change
it. -/
def Obligations.TimerInstructionsMoveTheTimers : Prop :=
  ∀ (x : RegIdx) (s : State),
    (∃ t, exec (.ldVxDt x) s = .next t ∧ t.readV x = s.dt ∧ SameRegsBut [x] s t ∧ t.pc = s.pc + 2 ∧ t.i = s.i ∧
      RegisterFrame s t) ∧
    (∃ t, exec (.ldDtVx x) s = .next t ∧ t.dt = s.readV x ∧ t.st = s.st ∧ SameRegsBut [] s t ∧ t.pc = s.pc + 2 ∧
      t.i = s.i ∧ SameMemory s t ∧ SameStack s t ∧ SameScreen s t ∧ SameStatus s t ∧ SameOutside s t ∧
      t.draws = s.draws) ∧
    (∃ t, exec (.ldStVx x) s = .next t ∧ t.st = s.readV x ∧ t.dt = s.dt ∧ SameRegsBut [] s t ∧ t.pc = s.pc + 2 ∧
      t.i = s.i ∧ SameMemory s t ∧ SameStack s t ∧ SameScreen s t ∧ SameStatus s t ∧ SameOutside s t ∧
      t.draws = s.draws)

/-- R141 (the lowest key by D11, assumption 17): with a key pressed LD Vx,K writes the lowest pressed key and advances.
The returned tuple is the form of D23 (assumption 27). -/
def Obligations.KeyWaitTakesTheLowestPressedKey : Prop :=
  ∀ (x : RegIdx) (k : Fin 16) (s : State), s.keys[k] = true → (∀ j : Fin 16, j < k → s.keys[j] = false) →
    ∃ t, exec (.ldVxK x) s = .next t ∧ (t.readV x).toNat = k.val ∧ SameRegsBut [x] s t ∧ t.pc = s.pc + 2 ∧
      t.i = s.i ∧ RegisterFrame s t ∧ Returned t false (encode (.ldVxK x))

/-- R141: "With no key pressed, repeated cycles leave PC unchanged and Vx unchanged": any number of cycles of a core
that stands at `Fx0A` with no key pressed changes nothing.
The returned tuple is the form of D23 (assumption 27). -/
def Obligations.KeyWaitChangesNothingUntilAKey : Prop :=
  ∀ (x : RegIdx) (s : State) (n : Nat),
    s.halt = false → s.events = [] → (∀ k : Fin 16, s.keys[k] = false) →
    fetch s = .ok (encode (.ldVxK x)) →
    ∃ t, Host.Core.run core (n + 1) s = .next t ∧ SameButStatus { s with loadable := false } t ∧ SameStatus s t ∧
      Returned t false (encode (.ldVxK x))

/-- R170 (D16; assumption 25): a tick, whatever the core is doing, decrements each timer that is not zero, and nothing
else changes. -/
def Obligations.TickDecrementsTheTimers : Prop :=
  ∀ s : State, s.nextEvent = .tick60 →
    ∃ t, step s = .next t ∧ t.dt.toNat = s.dt.toNat - 1 ∧ t.st.toNat = s.st.toNat - 1 ∧
      SameRegsBut [] s t ∧ t.pc = s.pc ∧ t.i = s.i ∧ SameMemory s t ∧ SameStack s t ∧ SameScreen s t ∧
      SameStatus s t ∧ SameOutside { s with events := s.events.tail } t ∧ t.draws = s.draws ∧ t.reply = .nothing

/-- R170, "Timer decay": after `n` ticks each timer has lost `n`, and stops at 0. -/
def Obligations.TimersDecayToZeroAndStay : Prop :=
  ∀ (s : State) (n : Nat) (rest : List Event), s.events = List.replicate n .tick60 ++ rest →
    ∃ t, Host.Core.run core n s = .next t ∧ t.dt.toNat = s.dt.toNat - n ∧ t.st.toNat = s.st.toNat - n ∧
      t.events = rest ∧ SameRegsBut [] s t ∧ t.pc = s.pc ∧ t.halt = s.halt

/-- R171 (D16; assumption 25): ticks and cycles are independent. A tick before an instruction and a tick after it leave
the same state, for every instruction but the three that read or write a timer. -/
def Obligations.TicksCommuteWithOtherInstructions : Prop :=
  ∀ (i : Instr) (s t : State), (∀ x, i ≠ .ldVxDt x ∧ i ≠ .ldDtVx x ∧ i ≠ .ldStVx x) → exec i s = .next t →
    ∃ u, exec i (tickEvent s) = .next u ∧ u = { tickEvent t with reply := u.reply } ∧ u.reply = t.reply

/-! ### The host's actions (spec/10_state.md R27 to R34) -/

/-- R27, R180 (D18; assumption 20): reset, from any state, puts every item at its reset value, with the FONT of the
machine's parameters, and leaves the parameters and the coming events alone. -/
def Obligations.ResetPutsEveryItemAtItsResetValue : Prop :=
  ∀ s : State, s.nextEvent = .reset →
    ∃ t, step s = .next t ∧ IsResetState t ∧ t.cfg = s.cfg ∧ t.events = s.events.tail ∧ t.loadable = true

/-- R180, R6, R42 (D2, D4, D5, D14, D18; assumptions 10, 11, 18, 20, 21): the model's State.reset is the reset state, its
parameters have their decided values, and the font's first and last glyphs are those of R42's table. -/
def Obligations.MachineStartsInTheResetState : Prop :=
  IsResetState State.reset ∧ State.reset.cfg.addrPolicy = .reject ∧
    State.reset.cfg.unknownOpcodePolicy = .strict ∧ State.reset.cfg.logicVfReset = true ∧
    State.reset.events = [] ∧
    (List.range 5).map (fun k => State.reset.peek (0x050 + k)) = [0xF0, 0x90, 0x90, 0x90, 0xF0] ∧
    (List.range 5).map (fun k => State.reset.peek (0x09B + k)) = [0xF0, 0x80, 0xF0, 0x80, 0x80]

/-- R28, R151, R183 (D19; assumption 5): between reset and the first cycle an image of at most 3584 bytes is copied to
0x200 and nothing else changes; a longer one changes nothing and is reported; outside that time a load is refused. -/
def Obligations.LoadRomCopiesTheImage : Prop :=
  ∀ (s : State) (bs : List Byte), s.nextEvent = .loadRom bs → MemoryCanonical s →
    (s.loadable = true → ∃ t, step s = .next t ∧
      (bs.length ≤ 3584 → (∀ k (h : k < bs.length), t.peek (0x200 + k) = bs[k]) ∧
        (∀ a, a < 0x200 ∨ 0x200 + bs.length ≤ a → t.peek a = s.peek a) ∧ t.reply = .romLoaded true) ∧
      (3584 < bs.length → SameMemory s t ∧ t.reply = .romLoaded false) ∧
      SameRegsBut [] s t ∧ t.pc = s.pc ∧ t.i = s.i ∧ SameStack s t ∧ SameTimers s t ∧ SameScreen s t ∧
      SameStatus s t ∧ t.keys = s.keys ∧ t.cfg = s.cfg ∧ t.events = s.events.tail ∧ t.loadable = false) ∧
    (s.loadable = false → step s = .refused .loadRomOutsideBoot)

/-- R29: set_keys writes the keys that it names, leaves the others, and nothing else changes. -/
def Obligations.SetKeysWritesTheNamedKeys : Prop :=
  ∀ (s : State) (ks : Vector (Option Bool) 16), s.nextEvent = .setKeys ks →
    ∃ t, step s = .next t ∧
      (∀ (k : Fin 16) (b : Bool), ks[k] = some b → t.keys[k] = b) ∧
      (∀ k : Fin 16, ks[k] = none → t.keys[k] = s.keys[k]) ∧
      SameRegsBut [] s t ∧ t.pc = s.pc ∧ t.i = s.i ∧ SameMemory s t ∧ SameStack s t ∧ SameTimers s t ∧
      SameScreen s t ∧ SameStatus s t ∧ t.cfg = s.cfg ∧ t.events = s.events.tail

/-- R32, R33: the host's two reads of the screen. The framebuffer comes in row-major order and no state changes; the
flag is returned and cleared. -/
def Obligations.ScreenReadsReturnTheScreen : Prop :=
  ∀ s : State,
    (s.nextEvent = .readFramebuffer → ∃ t bits, step s = .next t ∧ t.reply = .cells bits ∧ bits.length = 2048 ∧
      (∀ r c, r < 32 → c < 64 → bits[r * 64 + c]? = some (cell s.fb r c)) ∧
      SameButStatus { s with events := s.events.tail } t ∧ SameStatus s t) ∧
    (s.nextEvent = .readAndClearDrawFlag → ∃ t, step s = .next t ∧ t.reply = .flag s.drawFlag ∧
      SameButStatus { s with events := s.events.tail, drawFlag := false } t ∧ SameStatus s t)

/-- R34 (the status registers are the spec's own, D6; assumption 12): read_status returns them and changes no state. -/
def Obligations.StatusReadReturnsTheRegisters : Prop :=
  ∀ s : State, s.nextEvent = .readStatus →
    ∃ t, step s = .next t ∧ t.reply = .status s.halt s.errCause s.errOpcode s.errPc ∧
      SameButStatus { s with events := s.events.tail } t ∧ SameStatus s t

/-! ### Invariants and isolation -/

/-- R40, R44, R45: "must not corrupt memory outside the allocated image". Every step, of every agent, keeps the memory in
its canonical form inside its 4096 bytes. -/
def Obligations.MemoryStaysCanonical : Prop :=
  ∀ s t : State, MemoryCanonical s → step s = .next t → MemoryCanonical t

/-- R21, R156, R160 (D6, D7; assumptions 12, 13): every step, of every agent, keeps the status registers consistent:
clear while the core runs; once it halted, still naming `PC` and an error that this very state gives rise to. -/
def Obligations.StatusStaysConsistent : Prop :=
  ∀ s t : State, StatusConsistent s → step s = .next t → StatusConsistent t

/-- The reset state meets both invariants. -/
def Obligations.ResetStateMeetsTheInvariants : Prop :=
  MemoryCanonical State.reset ∧ StatusConsistent State.reset

/-- R160 (D6; assumption 12): "The only way out of the halted state is `reset`": any number of other actions leaves a
halted core halted, with the same error, `PC`, registers and screen. -/
def Obligations.OnlyResetLeavesTheHaltedState : Prop :=
  ∀ (n : Nat) (s t : State), s.halt = true → .reset ∉ s.events → Host.Core.run core n s = .next t →
    t.halt = true ∧ SameStatus s t ∧ t.pc = s.pc ∧ t.v = s.v ∧ t.i = s.i ∧ SameStack s t ∧ t.fb = s.fb

/-- R22: "The parameters ... do not change while the machine runs", and no action takes back a random draw. -/
def Obligations.ParametersNeverChange : Prop :=
  ∀ (n : Nat) (s t : State), Host.Core.run core n s = .next t → t.cfg = s.cfg ∧ s.draws ≤ t.draws

/-- R16 (D8; assumption 14): stale slots are values "that no instruction can observe". Two states that differ only in the
slots above `SP` stay so under every step, and answer the same to the host. -/
def Obligations.StaleStackSlotsAreUnobservable : Prop :=
  ∀ s s' t : State, SameButStaleSlots s s' → step s = .next t →
    ∃ t', step s' = .next t' ∧ SameButStaleSlots t t'

/-- R17, R19, R21: no instruction reads `ST`, `draw_flag` or the error registers: what an instruction does to everything
else, and what its cycle returns, does not depend on them. -/
def Obligations.UnreadRegistersDoNotMatter : Prop :=
  ∀ (i : Instr) (s s' t : State), SameButUnread s s' → exec i s = .next t →
    ∃ t', exec i s' = .next t' ∧ SameButUnread t t'

/-- R82, R185 (D19; assumption 26): a finished run stays as it is: any number of cycles of a core that stands at a jump
to its own address, with no other action, changes no state. -/
def Obligations.FinishedRunStaysFinished : Prop :=
  ∀ (s : State) (n : Nat), Finished s → s.events = [] →
    ∃ t, Host.Core.run core n s = .next t ∧ Finished t ∧
      SameButStatus { s with loadable := t.loadable } t ∧ SameStatus s t
end

