-- ==== Sys2Proof/Laws/Decode.lean ====
section
/-! SUPPORT. The fields of an instruction word and the assembly of a word, as numbers, so that one follows from the
other by linear arithmetic (spec/30_encoding.md rule R61: `w = {op, nnn}`, `nnn = {x, kk}`, `kk = {y, n}`). -/

namespace Sys2Proof

@[simp] theorem regOfBits_bitsOfReg (x : RegIdx) : regOfBits (bitsOfReg x) = x := rfl

@[simp] theorem bitsOfReg_regOfBits (b : Nibble) : bitsOfReg (regOfBits b) = b := rfl

theorem bitsOfReg_toNat (x : RegIdx) : (bitsOfReg x).toNat = x.val := rfl

theorem regOfBits_val (b : Nibble) : (regOfBits b).val = b.toNat := rfl

/-! ### As numbers -/

theorem append_toNat {m n : Nat} (a : BitVec m) (b : BitVec n) : (a ++ b).toNat = a.toNat * 2 ^ n + b.toNat := by
  rw [BitVec.toNat_append, ← Nat.shiftLeft_add_eq_or_of_lt b.isLt, Nat.shiftLeft_eq]

theorem opField_toNat (w : Word) : (opField w).toNat = w.toNat / 4096 := by
  have := w.isLt
  simp only [opField, BitVec.extractLsb'_toNat, Nat.shiftRight_eq_div_pow]
  omega

theorem xField_toNat (w : Word) : (xField w).toNat = w.toNat / 256 % 16 := by
  simp only [xField, BitVec.extractLsb'_toNat, Nat.shiftRight_eq_div_pow]

theorem yField_toNat (w : Word) : (yField w).toNat = w.toNat / 16 % 16 := by
  simp only [yField, BitVec.extractLsb'_toNat, Nat.shiftRight_eq_div_pow]

theorem nField_toNat (w : Word) : (nField w).toNat = w.toNat % 16 := by
  simp only [nField, BitVec.extractLsb'_toNat, Nat.shiftRight_eq_div_pow]
  omega

theorem kkField_toNat (w : Word) : (kkField w).toNat = w.toNat % 256 := by
  simp only [kkField, BitVec.extractLsb'_toNat, Nat.shiftRight_eq_div_pow]
  omega

theorem nnnField_toNat (w : Word) : (nnnField w).toNat = w.toNat % 4096 := by
  simp only [nnnField, BitVec.extractLsb'_toNat, Nat.shiftRight_eq_div_pow]
  omega

theorem packNNN_toNat (op : Nibble) (nnn : Addr12) :
    (packNNN op nnn).toNat = op.toNat * 4096 + nnn.toNat := append_toNat op nnn

theorem packXKK_toNat (op : Nibble) (x : RegIdx) (kk : Byte) :
    (packXKK op x kk).toNat = op.toNat * 4096 + x.val * 256 + kk.toNat := by
  unfold packXKK
  rw [append_toNat, append_toNat, bitsOfReg_toNat]
  omega

theorem packXYN_toNat (op : Nibble) (x y : RegIdx) (n : Nibble) :
    (packXYN op x y n).toNat = op.toNat * 4096 + x.val * 256 + y.val * 16 + n.toNat := by
  unfold packXYN
  rw [append_toNat, append_toNat, append_toNat, bitsOfReg_toNat, bitsOfReg_toNat]
  omega

/-! ### The fields of an assembled word -/

@[simp] theorem opField_packNNN (op : Nibble) (nnn : Addr12) : opField (packNNN op nnn) = op := by
  apply BitVec.eq_of_toNat_eq; rw [opField_toNat, packNNN_toNat]; omega

@[simp] theorem nnnField_packNNN (op : Nibble) (nnn : Addr12) : nnnField (packNNN op nnn) = nnn := by
  apply BitVec.eq_of_toNat_eq; rw [nnnField_toNat, packNNN_toNat]; omega

@[simp] theorem opField_packXKK (op : Nibble) (x : RegIdx) (kk : Byte) : opField (packXKK op x kk) = op := by
  apply BitVec.eq_of_toNat_eq; rw [opField_toNat, packXKK_toNat]; omega

@[simp] theorem xField_packXKK (op : Nibble) (x : RegIdx) (kk : Byte) :
    xField (packXKK op x kk) = bitsOfReg x := by
  apply BitVec.eq_of_toNat_eq; rw [xField_toNat, packXKK_toNat, bitsOfReg_toNat]; omega

@[simp] theorem kkField_packXKK (op : Nibble) (x : RegIdx) (kk : Byte) : kkField (packXKK op x kk) = kk := by
  apply BitVec.eq_of_toNat_eq; rw [kkField_toNat, packXKK_toNat]; omega

@[simp] theorem opField_packXYN (op : Nibble) (x y : RegIdx) (n : Nibble) : opField (packXYN op x y n) = op := by
  apply BitVec.eq_of_toNat_eq; rw [opField_toNat, packXYN_toNat]; omega

@[simp] theorem xField_packXYN (op : Nibble) (x y : RegIdx) (n : Nibble) :
    xField (packXYN op x y n) = bitsOfReg x := by
  apply BitVec.eq_of_toNat_eq; rw [xField_toNat, packXYN_toNat, bitsOfReg_toNat]; omega

@[simp] theorem yField_packXYN (op : Nibble) (x y : RegIdx) (n : Nibble) :
    yField (packXYN op x y n) = bitsOfReg y := by
  apply BitVec.eq_of_toNat_eq; rw [yField_toNat, packXYN_toNat, bitsOfReg_toNat]; omega

@[simp] theorem nField_packXYN (op : Nibble) (x y : RegIdx) (n : Nibble) : nField (packXYN op x y n) = n := by
  apply BitVec.eq_of_toNat_eq; rw [nField_toNat, packXYN_toNat]; omega

/-! ### A word, assembled from its fields -/

theorem packNNN_fields (w : Word) : packNNN (opField w) (nnnField w) = w := by
  apply BitVec.eq_of_toNat_eq; rw [packNNN_toNat, opField_toNat, nnnField_toNat]; omega

theorem packXKK_fields (w : Word) : packXKK (opField w) (regOfBits (xField w)) (kkField w) = w := by
  apply BitVec.eq_of_toNat_eq
  rw [packXKK_toNat, opField_toNat, kkField_toNat, regOfBits_val, xField_toNat]; omega

theorem packXYN_fields (w : Word) :
    packXYN (opField w) (regOfBits (xField w)) (regOfBits (yField w)) (nField w) = w := by
  apply BitVec.eq_of_toNat_eq
  rw [packXYN_toNat, opField_toNat, nField_toNat, regOfBits_val, regOfBits_val, xField_toNat, yField_toNat]
  omega

/-! ### The three masks of the table (R64) -/

theorem mask_op (w : Word) : w &&& 0xF000#16 = packNNN (opField w) 0#12 := by
  conv_lhs => rw [← packNNN_fields w]
  rw [packNNN, packNNN, show (0xF000#16 : Word) = 0xF#4 ++ 0x000#12 from rfl, BitVec.and_append]
  congr 1
  · exact BitVec.and_allOnes
  · exact BitVec.and_zero

theorem mask_op_n (w : Word) : w &&& 0xF00F#16 = packXYN (opField w) 0 0 (nField w) := by
  conv_lhs => rw [← packXYN_fields w]
  rw [packXYN, packXYN, show (0xF00F#16 : Word) = 0xF#4 ++ 0x0#4 ++ 0x0#4 ++ 0xF#4 from rfl,
    BitVec.and_append, BitVec.and_append, BitVec.and_append]
  congr 1
  · congr 1
    · congr 1
      · exact BitVec.and_allOnes
      · exact BitVec.and_zero
    · exact BitVec.and_zero
  · exact BitVec.and_allOnes

theorem mask_op_kk (w : Word) : w &&& 0xF0FF#16 = packXKK (opField w) 0 (kkField w) := by
  conv_lhs => rw [← packXKK_fields w]
  rw [packXKK, packXKK, show (0xF0FF#16 : Word) = 0xF#4 ++ 0x0#4 ++ 0xFF#8 from rfl,
    BitVec.and_append, BitVec.and_append]
  congr 1
  · congr 1
    · exact BitVec.and_allOnes
    · exact BitVec.and_zero
  · exact BitVec.and_allOnes

end Sys2Proof
end

