-- ==== Sys2Proof/Laws/State.lean ====
section
/-! SUPPORT. What each update of a state leaves in each field: one lemma for each field and update, true by rfl, so that
no later proof unfolds a record update. The composite updates (advance, skipIf, setFlag, setResult, advanceI) rewrite
to the base ones. -/

namespace Sys2Proof.Machine

variable (s : State)

/-! ### setV -/

@[simp] theorem State.setV_mem (r : RegIdx) (b : Byte) : (s.setV r b).mem = s.mem := rfl
@[simp] theorem State.setV_v (r : RegIdx) (b : Byte) : (s.setV r b).v = s.v.set r b := rfl
@[simp] theorem State.setV_i (r : RegIdx) (b : Byte) : (s.setV r b).i = s.i := rfl
@[simp] theorem State.setV_pc (r : RegIdx) (b : Byte) : (s.setV r b).pc = s.pc := rfl
@[simp] theorem State.setV_stack (r : RegIdx) (b : Byte) : (s.setV r b).stack = s.stack := rfl
@[simp] theorem State.setV_sp (r : RegIdx) (b : Byte) : (s.setV r b).sp = s.sp := rfl
@[simp] theorem State.setV_dt (r : RegIdx) (b : Byte) : (s.setV r b).dt = s.dt := rfl
@[simp] theorem State.setV_st (r : RegIdx) (b : Byte) : (s.setV r b).st = s.st := rfl
@[simp] theorem State.setV_fb (r : RegIdx) (b : Byte) : (s.setV r b).fb = s.fb := rfl
@[simp] theorem State.setV_drawFlag (r : RegIdx) (b : Byte) : (s.setV r b).drawFlag = s.drawFlag := rfl
@[simp] theorem State.setV_keys (r : RegIdx) (b : Byte) : (s.setV r b).keys = s.keys := rfl
@[simp] theorem State.setV_halt (r : RegIdx) (b : Byte) : (s.setV r b).halt = s.halt := rfl
@[simp] theorem State.setV_errCause (r : RegIdx) (b : Byte) : (s.setV r b).errCause = s.errCause := rfl
@[simp] theorem State.setV_errOpcode (r : RegIdx) (b : Byte) : (s.setV r b).errOpcode = s.errOpcode := rfl
@[simp] theorem State.setV_errPc (r : RegIdx) (b : Byte) : (s.setV r b).errPc = s.errPc := rfl
@[simp] theorem State.setV_cfg (r : RegIdx) (b : Byte) : (s.setV r b).cfg = s.cfg := rfl
@[simp] theorem State.setV_draws (r : RegIdx) (b : Byte) : (s.setV r b).draws = s.draws := rfl
@[simp] theorem State.setV_events (r : RegIdx) (b : Byte) : (s.setV r b).events = s.events := rfl
@[simp] theorem State.setV_loadable (r : RegIdx) (b : Byte) : (s.setV r b).loadable = s.loadable := rfl
@[simp] theorem State.setV_reply (r : RegIdx) (b : Byte) : (s.setV r b).reply = s.reply := rfl
@[simp] theorem State.setV_peek (r : RegIdx) (b : Byte) (k : Nat) : (s.setV r b).peek k = s.peek k := rfl

/-! ### setI -/

@[simp] theorem State.setI_mem (a : Word) : (s.setI a).mem = s.mem := rfl
@[simp] theorem State.setI_v (a : Word) : (s.setI a).v = s.v := rfl
@[simp] theorem State.setI_i (a : Word) : (s.setI a).i = a := rfl
@[simp] theorem State.setI_pc (a : Word) : (s.setI a).pc = s.pc := rfl
@[simp] theorem State.setI_stack (a : Word) : (s.setI a).stack = s.stack := rfl
@[simp] theorem State.setI_sp (a : Word) : (s.setI a).sp = s.sp := rfl
@[simp] theorem State.setI_dt (a : Word) : (s.setI a).dt = s.dt := rfl
@[simp] theorem State.setI_st (a : Word) : (s.setI a).st = s.st := rfl
@[simp] theorem State.setI_fb (a : Word) : (s.setI a).fb = s.fb := rfl
@[simp] theorem State.setI_drawFlag (a : Word) : (s.setI a).drawFlag = s.drawFlag := rfl
@[simp] theorem State.setI_keys (a : Word) : (s.setI a).keys = s.keys := rfl
@[simp] theorem State.setI_halt (a : Word) : (s.setI a).halt = s.halt := rfl
@[simp] theorem State.setI_errCause (a : Word) : (s.setI a).errCause = s.errCause := rfl
@[simp] theorem State.setI_errOpcode (a : Word) : (s.setI a).errOpcode = s.errOpcode := rfl
@[simp] theorem State.setI_errPc (a : Word) : (s.setI a).errPc = s.errPc := rfl
@[simp] theorem State.setI_cfg (a : Word) : (s.setI a).cfg = s.cfg := rfl
@[simp] theorem State.setI_draws (a : Word) : (s.setI a).draws = s.draws := rfl
@[simp] theorem State.setI_events (a : Word) : (s.setI a).events = s.events := rfl
@[simp] theorem State.setI_loadable (a : Word) : (s.setI a).loadable = s.loadable := rfl
@[simp] theorem State.setI_reply (a : Word) : (s.setI a).reply = s.reply := rfl
@[simp] theorem State.setI_readV (a : Word) (q : RegIdx) : (s.setI a).readV q = s.readV q := rfl
@[simp] theorem State.setI_peek (a : Word) (k : Nat) : (s.setI a).peek k = s.peek k := rfl

/-! ### setPc -/

@[simp] theorem State.setPc_mem (a : Word) : (s.setPc a).mem = s.mem := rfl
@[simp] theorem State.setPc_v (a : Word) : (s.setPc a).v = s.v := rfl
@[simp] theorem State.setPc_i (a : Word) : (s.setPc a).i = s.i := rfl
@[simp] theorem State.setPc_pc (a : Word) : (s.setPc a).pc = a := rfl
@[simp] theorem State.setPc_stack (a : Word) : (s.setPc a).stack = s.stack := rfl
@[simp] theorem State.setPc_sp (a : Word) : (s.setPc a).sp = s.sp := rfl
@[simp] theorem State.setPc_dt (a : Word) : (s.setPc a).dt = s.dt := rfl
@[simp] theorem State.setPc_st (a : Word) : (s.setPc a).st = s.st := rfl
@[simp] theorem State.setPc_fb (a : Word) : (s.setPc a).fb = s.fb := rfl
@[simp] theorem State.setPc_drawFlag (a : Word) : (s.setPc a).drawFlag = s.drawFlag := rfl
@[simp] theorem State.setPc_keys (a : Word) : (s.setPc a).keys = s.keys := rfl
@[simp] theorem State.setPc_halt (a : Word) : (s.setPc a).halt = s.halt := rfl
@[simp] theorem State.setPc_errCause (a : Word) : (s.setPc a).errCause = s.errCause := rfl
@[simp] theorem State.setPc_errOpcode (a : Word) : (s.setPc a).errOpcode = s.errOpcode := rfl
@[simp] theorem State.setPc_errPc (a : Word) : (s.setPc a).errPc = s.errPc := rfl
@[simp] theorem State.setPc_cfg (a : Word) : (s.setPc a).cfg = s.cfg := rfl
@[simp] theorem State.setPc_draws (a : Word) : (s.setPc a).draws = s.draws := rfl
@[simp] theorem State.setPc_events (a : Word) : (s.setPc a).events = s.events := rfl
@[simp] theorem State.setPc_loadable (a : Word) : (s.setPc a).loadable = s.loadable := rfl
@[simp] theorem State.setPc_reply (a : Word) : (s.setPc a).reply = s.reply := rfl
@[simp] theorem State.setPc_readV (a : Word) (q : RegIdx) : (s.setPc a).readV q = s.readV q := rfl
@[simp] theorem State.setPc_peek (a : Word) (k : Nat) : (s.setPc a).peek k = s.peek k := rfl

/-! ### setDt -/

@[simp] theorem State.setDt_mem (b : Byte) : (s.setDt b).mem = s.mem := rfl
@[simp] theorem State.setDt_v (b : Byte) : (s.setDt b).v = s.v := rfl
@[simp] theorem State.setDt_i (b : Byte) : (s.setDt b).i = s.i := rfl
@[simp] theorem State.setDt_pc (b : Byte) : (s.setDt b).pc = s.pc := rfl
@[simp] theorem State.setDt_stack (b : Byte) : (s.setDt b).stack = s.stack := rfl
@[simp] theorem State.setDt_sp (b : Byte) : (s.setDt b).sp = s.sp := rfl
@[simp] theorem State.setDt_dt (b : Byte) : (s.setDt b).dt = b := rfl
@[simp] theorem State.setDt_st (b : Byte) : (s.setDt b).st = s.st := rfl
@[simp] theorem State.setDt_fb (b : Byte) : (s.setDt b).fb = s.fb := rfl
@[simp] theorem State.setDt_drawFlag (b : Byte) : (s.setDt b).drawFlag = s.drawFlag := rfl
@[simp] theorem State.setDt_keys (b : Byte) : (s.setDt b).keys = s.keys := rfl
@[simp] theorem State.setDt_halt (b : Byte) : (s.setDt b).halt = s.halt := rfl
@[simp] theorem State.setDt_errCause (b : Byte) : (s.setDt b).errCause = s.errCause := rfl
@[simp] theorem State.setDt_errOpcode (b : Byte) : (s.setDt b).errOpcode = s.errOpcode := rfl
@[simp] theorem State.setDt_errPc (b : Byte) : (s.setDt b).errPc = s.errPc := rfl
@[simp] theorem State.setDt_cfg (b : Byte) : (s.setDt b).cfg = s.cfg := rfl
@[simp] theorem State.setDt_draws (b : Byte) : (s.setDt b).draws = s.draws := rfl
@[simp] theorem State.setDt_events (b : Byte) : (s.setDt b).events = s.events := rfl
@[simp] theorem State.setDt_loadable (b : Byte) : (s.setDt b).loadable = s.loadable := rfl
@[simp] theorem State.setDt_reply (b : Byte) : (s.setDt b).reply = s.reply := rfl
@[simp] theorem State.setDt_readV (b : Byte) (q : RegIdx) : (s.setDt b).readV q = s.readV q := rfl
@[simp] theorem State.setDt_peek (b : Byte) (k : Nat) : (s.setDt b).peek k = s.peek k := rfl

/-! ### setSt -/

@[simp] theorem State.setSt_mem (b : Byte) : (s.setSt b).mem = s.mem := rfl
@[simp] theorem State.setSt_v (b : Byte) : (s.setSt b).v = s.v := rfl
@[simp] theorem State.setSt_i (b : Byte) : (s.setSt b).i = s.i := rfl
@[simp] theorem State.setSt_pc (b : Byte) : (s.setSt b).pc = s.pc := rfl
@[simp] theorem State.setSt_stack (b : Byte) : (s.setSt b).stack = s.stack := rfl
@[simp] theorem State.setSt_sp (b : Byte) : (s.setSt b).sp = s.sp := rfl
@[simp] theorem State.setSt_dt (b : Byte) : (s.setSt b).dt = s.dt := rfl
@[simp] theorem State.setSt_st (b : Byte) : (s.setSt b).st = b := rfl
@[simp] theorem State.setSt_fb (b : Byte) : (s.setSt b).fb = s.fb := rfl
@[simp] theorem State.setSt_drawFlag (b : Byte) : (s.setSt b).drawFlag = s.drawFlag := rfl
@[simp] theorem State.setSt_keys (b : Byte) : (s.setSt b).keys = s.keys := rfl
@[simp] theorem State.setSt_halt (b : Byte) : (s.setSt b).halt = s.halt := rfl
@[simp] theorem State.setSt_errCause (b : Byte) : (s.setSt b).errCause = s.errCause := rfl
@[simp] theorem State.setSt_errOpcode (b : Byte) : (s.setSt b).errOpcode = s.errOpcode := rfl
@[simp] theorem State.setSt_errPc (b : Byte) : (s.setSt b).errPc = s.errPc := rfl
@[simp] theorem State.setSt_cfg (b : Byte) : (s.setSt b).cfg = s.cfg := rfl
@[simp] theorem State.setSt_draws (b : Byte) : (s.setSt b).draws = s.draws := rfl
@[simp] theorem State.setSt_events (b : Byte) : (s.setSt b).events = s.events := rfl
@[simp] theorem State.setSt_loadable (b : Byte) : (s.setSt b).loadable = s.loadable := rfl
@[simp] theorem State.setSt_reply (b : Byte) : (s.setSt b).reply = s.reply := rfl
@[simp] theorem State.setSt_readV (b : Byte) (q : RegIdx) : (s.setSt b).readV q = s.readV q := rfl
@[simp] theorem State.setSt_peek (b : Byte) (k : Nat) : (s.setSt b).peek k = s.peek k := rfl

/-! ### poke -/

@[simp] theorem State.poke_mem (a : Nat) (b : Byte) : (s.poke a b).mem = Memory.write s.cfg s.mem a b := rfl
@[simp] theorem State.poke_v (a : Nat) (b : Byte) : (s.poke a b).v = s.v := rfl
@[simp] theorem State.poke_i (a : Nat) (b : Byte) : (s.poke a b).i = s.i := rfl
@[simp] theorem State.poke_pc (a : Nat) (b : Byte) : (s.poke a b).pc = s.pc := rfl
@[simp] theorem State.poke_stack (a : Nat) (b : Byte) : (s.poke a b).stack = s.stack := rfl
@[simp] theorem State.poke_sp (a : Nat) (b : Byte) : (s.poke a b).sp = s.sp := rfl
@[simp] theorem State.poke_dt (a : Nat) (b : Byte) : (s.poke a b).dt = s.dt := rfl
@[simp] theorem State.poke_st (a : Nat) (b : Byte) : (s.poke a b).st = s.st := rfl
@[simp] theorem State.poke_fb (a : Nat) (b : Byte) : (s.poke a b).fb = s.fb := rfl
@[simp] theorem State.poke_drawFlag (a : Nat) (b : Byte) : (s.poke a b).drawFlag = s.drawFlag := rfl
@[simp] theorem State.poke_keys (a : Nat) (b : Byte) : (s.poke a b).keys = s.keys := rfl
@[simp] theorem State.poke_halt (a : Nat) (b : Byte) : (s.poke a b).halt = s.halt := rfl
@[simp] theorem State.poke_errCause (a : Nat) (b : Byte) : (s.poke a b).errCause = s.errCause := rfl
@[simp] theorem State.poke_errOpcode (a : Nat) (b : Byte) : (s.poke a b).errOpcode = s.errOpcode := rfl
@[simp] theorem State.poke_errPc (a : Nat) (b : Byte) : (s.poke a b).errPc = s.errPc := rfl
@[simp] theorem State.poke_cfg (a : Nat) (b : Byte) : (s.poke a b).cfg = s.cfg := rfl
@[simp] theorem State.poke_draws (a : Nat) (b : Byte) : (s.poke a b).draws = s.draws := rfl
@[simp] theorem State.poke_events (a : Nat) (b : Byte) : (s.poke a b).events = s.events := rfl
@[simp] theorem State.poke_loadable (a : Nat) (b : Byte) : (s.poke a b).loadable = s.loadable := rfl
@[simp] theorem State.poke_reply (a : Nat) (b : Byte) : (s.poke a b).reply = s.reply := rfl
@[simp] theorem State.poke_readV (a : Nat) (b : Byte) (q : RegIdx) : (s.poke a b).readV q = s.readV q := rfl

/-! ### show -/

@[simp] theorem State.show_mem (f : Framebuffer) : (s.show f).mem = s.mem := rfl
@[simp] theorem State.show_v (f : Framebuffer) : (s.show f).v = s.v := rfl
@[simp] theorem State.show_i (f : Framebuffer) : (s.show f).i = s.i := rfl
@[simp] theorem State.show_pc (f : Framebuffer) : (s.show f).pc = s.pc := rfl
@[simp] theorem State.show_stack (f : Framebuffer) : (s.show f).stack = s.stack := rfl
@[simp] theorem State.show_sp (f : Framebuffer) : (s.show f).sp = s.sp := rfl
@[simp] theorem State.show_dt (f : Framebuffer) : (s.show f).dt = s.dt := rfl
@[simp] theorem State.show_st (f : Framebuffer) : (s.show f).st = s.st := rfl
@[simp] theorem State.show_fb (f : Framebuffer) : (s.show f).fb = f := rfl
@[simp] theorem State.show_drawFlag (f : Framebuffer) : (s.show f).drawFlag = true := rfl
@[simp] theorem State.show_keys (f : Framebuffer) : (s.show f).keys = s.keys := rfl
@[simp] theorem State.show_halt (f : Framebuffer) : (s.show f).halt = s.halt := rfl
@[simp] theorem State.show_errCause (f : Framebuffer) : (s.show f).errCause = s.errCause := rfl
@[simp] theorem State.show_errOpcode (f : Framebuffer) : (s.show f).errOpcode = s.errOpcode := rfl
@[simp] theorem State.show_errPc (f : Framebuffer) : (s.show f).errPc = s.errPc := rfl
@[simp] theorem State.show_cfg (f : Framebuffer) : (s.show f).cfg = s.cfg := rfl
@[simp] theorem State.show_draws (f : Framebuffer) : (s.show f).draws = s.draws := rfl
@[simp] theorem State.show_events (f : Framebuffer) : (s.show f).events = s.events := rfl
@[simp] theorem State.show_loadable (f : Framebuffer) : (s.show f).loadable = s.loadable := rfl
@[simp] theorem State.show_reply (f : Framebuffer) : (s.show f).reply = s.reply := rfl
@[simp] theorem State.show_readV (f : Framebuffer) (q : RegIdx) : (s.show f).readV q = s.readV q := rfl
@[simp] theorem State.show_peek (f : Framebuffer) (k : Nat) : (s.show f).peek k = s.peek k := rfl

/-! ### answer -/

@[simp] theorem State.answer_mem (r : Reply) : (s.answer r).mem = s.mem := rfl
@[simp] theorem State.answer_v (r : Reply) : (s.answer r).v = s.v := rfl
@[simp] theorem State.answer_i (r : Reply) : (s.answer r).i = s.i := rfl
@[simp] theorem State.answer_pc (r : Reply) : (s.answer r).pc = s.pc := rfl
@[simp] theorem State.answer_stack (r : Reply) : (s.answer r).stack = s.stack := rfl
@[simp] theorem State.answer_sp (r : Reply) : (s.answer r).sp = s.sp := rfl
@[simp] theorem State.answer_dt (r : Reply) : (s.answer r).dt = s.dt := rfl
@[simp] theorem State.answer_st (r : Reply) : (s.answer r).st = s.st := rfl
@[simp] theorem State.answer_fb (r : Reply) : (s.answer r).fb = s.fb := rfl
@[simp] theorem State.answer_drawFlag (r : Reply) : (s.answer r).drawFlag = s.drawFlag := rfl
@[simp] theorem State.answer_keys (r : Reply) : (s.answer r).keys = s.keys := rfl
@[simp] theorem State.answer_halt (r : Reply) : (s.answer r).halt = s.halt := rfl
@[simp] theorem State.answer_errCause (r : Reply) : (s.answer r).errCause = s.errCause := rfl
@[simp] theorem State.answer_errOpcode (r : Reply) : (s.answer r).errOpcode = s.errOpcode := rfl
@[simp] theorem State.answer_errPc (r : Reply) : (s.answer r).errPc = s.errPc := rfl
@[simp] theorem State.answer_cfg (r : Reply) : (s.answer r).cfg = s.cfg := rfl
@[simp] theorem State.answer_draws (r : Reply) : (s.answer r).draws = s.draws := rfl
@[simp] theorem State.answer_events (r : Reply) : (s.answer r).events = s.events := rfl
@[simp] theorem State.answer_loadable (r : Reply) : (s.answer r).loadable = s.loadable := rfl
@[simp] theorem State.answer_reply (r : Reply) : (s.answer r).reply = r := rfl
@[simp] theorem State.answer_readV (r : Reply) (q : RegIdx) : (s.answer r).readV q = s.readV q := rfl
@[simp] theorem State.answer_peek (r : Reply) (k : Nat) : (s.answer r).peek k = s.peek k := rfl

/-! ### halted -/

@[simp] theorem State.halted_mem (w : Word) (e : Err) : (s.halted w e).mem = s.mem := rfl
@[simp] theorem State.halted_v (w : Word) (e : Err) : (s.halted w e).v = s.v := rfl
@[simp] theorem State.halted_i (w : Word) (e : Err) : (s.halted w e).i = s.i := rfl
@[simp] theorem State.halted_pc (w : Word) (e : Err) : (s.halted w e).pc = s.pc := rfl
@[simp] theorem State.halted_stack (w : Word) (e : Err) : (s.halted w e).stack = s.stack := rfl
@[simp] theorem State.halted_sp (w : Word) (e : Err) : (s.halted w e).sp = s.sp := rfl
@[simp] theorem State.halted_dt (w : Word) (e : Err) : (s.halted w e).dt = s.dt := rfl
@[simp] theorem State.halted_st (w : Word) (e : Err) : (s.halted w e).st = s.st := rfl
@[simp] theorem State.halted_fb (w : Word) (e : Err) : (s.halted w e).fb = s.fb := rfl
@[simp] theorem State.halted_drawFlag (w : Word) (e : Err) : (s.halted w e).drawFlag = s.drawFlag := rfl
@[simp] theorem State.halted_keys (w : Word) (e : Err) : (s.halted w e).keys = s.keys := rfl
@[simp] theorem State.halted_halt (w : Word) (e : Err) : (s.halted w e).halt = true := rfl
@[simp] theorem State.halted_errCause (w : Word) (e : Err) : (s.halted w e).errCause = e.code := rfl
@[simp] theorem State.halted_errOpcode (w : Word) (e : Err) : (s.halted w e).errOpcode = w := rfl
@[simp] theorem State.halted_errPc (w : Word) (e : Err) : (s.halted w e).errPc = s.pc := rfl
@[simp] theorem State.halted_cfg (w : Word) (e : Err) : (s.halted w e).cfg = s.cfg := rfl
@[simp] theorem State.halted_draws (w : Word) (e : Err) : (s.halted w e).draws = s.draws := rfl
@[simp] theorem State.halted_events (w : Word) (e : Err) : (s.halted w e).events = s.events := rfl
@[simp] theorem State.halted_loadable (w : Word) (e : Err) : (s.halted w e).loadable = s.loadable := rfl
@[simp] theorem State.halted_reply (w : Word) (e : Err) : (s.halted w e).reply = .cycleDone ⟨false, w, e.code, e.info⟩ := rfl
@[simp] theorem State.halted_readV (w : Word) (e : Err) (q : RegIdx) : (s.halted w e).readV q = s.readV q := rfl
@[simp] theorem State.halted_peek (w : Word) (e : Err) (k : Nat) : (s.halted w e).peek k = s.peek k := rfl

/-! ### booted -/

@[simp] theorem State.booted_mem : (s.booted).mem = s.mem := rfl
@[simp] theorem State.booted_v : (s.booted).v = s.v := rfl
@[simp] theorem State.booted_i : (s.booted).i = s.i := rfl
@[simp] theorem State.booted_pc : (s.booted).pc = s.pc := rfl
@[simp] theorem State.booted_stack : (s.booted).stack = s.stack := rfl
@[simp] theorem State.booted_sp : (s.booted).sp = s.sp := rfl
@[simp] theorem State.booted_dt : (s.booted).dt = s.dt := rfl
@[simp] theorem State.booted_st : (s.booted).st = s.st := rfl
@[simp] theorem State.booted_fb : (s.booted).fb = s.fb := rfl
@[simp] theorem State.booted_drawFlag : (s.booted).drawFlag = s.drawFlag := rfl
@[simp] theorem State.booted_keys : (s.booted).keys = s.keys := rfl
@[simp] theorem State.booted_halt : (s.booted).halt = s.halt := rfl
@[simp] theorem State.booted_errCause : (s.booted).errCause = s.errCause := rfl
@[simp] theorem State.booted_errOpcode : (s.booted).errOpcode = s.errOpcode := rfl
@[simp] theorem State.booted_errPc : (s.booted).errPc = s.errPc := rfl
@[simp] theorem State.booted_cfg : (s.booted).cfg = s.cfg := rfl
@[simp] theorem State.booted_draws : (s.booted).draws = s.draws := rfl
@[simp] theorem State.booted_events : (s.booted).events = s.events := rfl
@[simp] theorem State.booted_loadable : (s.booted).loadable = false := rfl
@[simp] theorem State.booted_reply : (s.booted).reply = s.reply := rfl
@[simp] theorem State.booted_readV (q : RegIdx) : (s.booted).readV q = s.readV q := rfl
@[simp] theorem State.booted_peek (k : Nat) : (s.booted).peek k = s.peek k := rfl

/-! ### takeEvent -/

@[simp] theorem State.takeEvent_mem : (s.takeEvent).mem = s.mem := rfl
@[simp] theorem State.takeEvent_v : (s.takeEvent).v = s.v := rfl
@[simp] theorem State.takeEvent_i : (s.takeEvent).i = s.i := rfl
@[simp] theorem State.takeEvent_pc : (s.takeEvent).pc = s.pc := rfl
@[simp] theorem State.takeEvent_stack : (s.takeEvent).stack = s.stack := rfl
@[simp] theorem State.takeEvent_sp : (s.takeEvent).sp = s.sp := rfl
@[simp] theorem State.takeEvent_dt : (s.takeEvent).dt = s.dt := rfl
@[simp] theorem State.takeEvent_st : (s.takeEvent).st = s.st := rfl
@[simp] theorem State.takeEvent_fb : (s.takeEvent).fb = s.fb := rfl
@[simp] theorem State.takeEvent_drawFlag : (s.takeEvent).drawFlag = s.drawFlag := rfl
@[simp] theorem State.takeEvent_keys : (s.takeEvent).keys = s.keys := rfl
@[simp] theorem State.takeEvent_halt : (s.takeEvent).halt = s.halt := rfl
@[simp] theorem State.takeEvent_errCause : (s.takeEvent).errCause = s.errCause := rfl
@[simp] theorem State.takeEvent_errOpcode : (s.takeEvent).errOpcode = s.errOpcode := rfl
@[simp] theorem State.takeEvent_errPc : (s.takeEvent).errPc = s.errPc := rfl
@[simp] theorem State.takeEvent_cfg : (s.takeEvent).cfg = s.cfg := rfl
@[simp] theorem State.takeEvent_draws : (s.takeEvent).draws = s.draws := rfl
@[simp] theorem State.takeEvent_events : (s.takeEvent).events = s.events.tail := rfl
@[simp] theorem State.takeEvent_loadable : (s.takeEvent).loadable = s.loadable := rfl
@[simp] theorem State.takeEvent_reply : (s.takeEvent).reply = s.reply := rfl
@[simp] theorem State.takeEvent_readV (q : RegIdx) : (s.takeEvent).readV q = s.readV q := rfl
@[simp] theorem State.takeEvent_peek (k : Nat) : (s.takeEvent).peek k = s.peek k := rfl

/-! ### The composite updates, in terms of the base ones -/

@[simp] theorem State.advance_eq : s.advance = s.setPc (s.pc + 2) := rfl

@[simp] theorem State.skipIf_eq (c : Bool) : s.skipIf c = s.setPc (if c then s.pc + 4 else s.pc + 2) := rfl

@[simp] theorem State.setFlag_eq (c : Bool) : s.setFlag c = s.setV regF (flagByte c) := rfl

@[simp] theorem State.setResult_eq (x : RegIdx) (r : Byte) (c : Bool) :
    s.setResult x r c = (s.setV x r).setV regF (flagByte c) := rfl

@[simp] theorem State.advanceI_eq (x : RegIdx) :
    s.advanceI x = s.setI (s.i + BitVec.ofNat 16 (x.val + 1)) := rfl

theorem State.resetFlagIfLogic_eq :
    s.resetFlagIfLogic = if s.cfg.logicVfReset then s.setV regF 0 else s := rfl

/-! ### Reading a register after a write -/

@[simp] theorem State.readV_setV_same (r : RegIdx) (b : Byte) : (s.setV r b).readV r = b := by
  simp [State.readV, State.setV]

theorem State.readV_setV_ne {r q : RegIdx} (b : Byte) (h : q ≠ r) : (s.setV r b).readV q = s.readV q := by
  have hne : (r : Nat) ≠ (q : Nat) := fun hv => h (Fin.ext hv.symm)
  simp [State.readV, State.setV, hne]

theorem State.readV_setV (r q : RegIdx) (b : Byte) :
    (s.setV r b).readV q = if q = r then b else s.readV q := by
  split
  · next h => rw [h, State.readV_setV_same]
  · next h => exact State.readV_setV_ne s b h

/-- Two register files that read the same are the same. -/
theorem regs_ext {a b : Vector Byte 16} (h : ∀ r : RegIdx, a[r] = b[r]) : a = b := by
  apply Vector.ext
  intro k hk
  exact h ⟨k, hk⟩

@[simp] theorem State.resetFlagIfLogic_readV_ne {q : RegIdx} (h : q ≠ regF) :
    s.resetFlagIfLogic.readV q = s.readV q := by
  rw [State.resetFlagIfLogic_eq]
  split
  · exact State.readV_setV_ne s 0 h
  · rfl

end Sys2Proof.Machine
end

