-- ==== Sys2Proof/Laws/Memory.lean ====
section
/-! SUPPORT. The memory laws: a read after a write, the canonical form and what keeps it, equal memories are equal
lists, and the spec lemmas of the access primitives (spec/20_memory.md rules R44, R45, R48). -/

namespace Sys2Proof.Machine

/-! ### The list of listed bytes -/

theorem wf_cons (cfg : Config) (k : Nat) (b : Byte) (m : Memory) :
    Memory.wf cfg ((k, b) :: m) = true ↔
      k < 4096 ∧ b ≠ unlisted cfg k ∧ (∀ c ∈ m, k < c.1) ∧ Memory.wf cfg m = true := by
  simp [Memory.wf, and_assoc]

theorem lookupCell_insertCell (a : Nat) (b : Byte) (m : Memory) (q : Nat) :
    lookupCell (insertCell a b m) q = if a = q then some b else lookupCell m q := by
  induction m with
  | nil => rfl
  | cons c rest ih =>
    obtain ⟨k, d⟩ := c
    unfold insertCell
    split
    · rfl
    · split
      · next hk => subst hk; by_cases h : a = q <;> simp [lookupCell, h]
      · next hk =>
        by_cases h : a = q
        · subst h; simp [lookupCell, ih, Ne.symm hk]
        · simp [lookupCell, ih, h]

theorem lookupCell_eq_none {m : Memory} {q : Nat} (h : ∀ c ∈ m, q < c.1) : lookupCell m q = none := by
  induction m with
  | nil => rfl
  | cons c rest ih =>
    have hc : q < c.1 := h c (by simp)
    simp only [lookupCell]
    rw [if_neg (by omega), ih fun d hd => h d (by simp [hd])]

theorem lookupCell_eraseCell {cfg : Config} {m : Memory} (hm : Memory.wf cfg m = true) (a q : Nat) :
    lookupCell (eraseCell a m) q = if a = q then none else lookupCell m q := by
  induction m with
  | nil => simp [eraseCell, lookupCell]
  | cons c rest ih =>
    obtain ⟨k, d⟩ := c
    obtain ⟨-, -, hlt, hrest⟩ := (wf_cons cfg k d rest).1 hm
    unfold eraseCell
    split
    · next hk =>
      subst hk
      by_cases h : k = q
      · subst h; simp [lookupCell_eq_none hlt]
      · simp [lookupCell, h]
    · next hk =>
      by_cases h : a = q
      · subst h; simp [lookupCell, ih hrest, hk]
      · simp [lookupCell, ih hrest, h]

theorem mem_insertCell {a : Nat} {b : Byte} {m : Memory} {c : Host.Cell} (h : c ∈ insertCell a b m) :
    c = (a, b) ∨ c ∈ m := by
  induction m with
  | nil => simpa [insertCell] using h
  | cons e rest ih =>
    obtain ⟨k, d⟩ := e
    unfold insertCell at h
    split at h
    · simpa using h
    · split at h
      · rcases List.mem_cons.1 h with h | h
        · exact .inl h
        · exact .inr (by simp [h])
      · rcases List.mem_cons.1 h with h | h
        · exact .inr (by simp [h])
        · rcases ih h with h | h
          · exact .inl h
          · exact .inr (by simp [h])

theorem mem_eraseCell {a : Nat} {m : Memory} {c : Host.Cell} (h : c ∈ eraseCell a m) : c ∈ m := by
  induction m with
  | nil => exact h
  | cons e rest ih =>
    obtain ⟨k, d⟩ := e
    unfold eraseCell at h
    split at h
    · simp [h]
    · rcases List.mem_cons.1 h with h | h
      · simp [h]
      · simp [ih h]

/-! ### Writing keeps the canonical form -/

theorem insertCell_wf {cfg : Config} {a : Nat} {b : Byte} {m : Memory} (hm : Memory.wf cfg m = true)
    (ha : a < 4096) (hb : b ≠ unlisted cfg a) : Memory.wf cfg (insertCell a b m) = true := by
  induction m with
  | nil => simp [insertCell, Memory.wf, ha, hb]
  | cons e rest ih =>
    obtain ⟨k, d⟩ := e
    obtain ⟨hk, hd, hlt, hrest⟩ := (wf_cons cfg k d rest).1 hm
    unfold insertCell
    split
    · next h =>
      refine (wf_cons ..).2 ⟨ha, hb, fun c hc => ?_, hm⟩
      rcases List.mem_cons.1 hc with rfl | hc
      · exact h
      · exact h.trans (hlt c hc)
    · split
      · next h => subst h; exact (wf_cons ..).2 ⟨ha, hb, hlt, hrest⟩
      · next h1 h2 =>
        refine (wf_cons ..).2 ⟨hk, hd, fun c hc => ?_, ih hrest⟩
        rcases mem_insertCell hc with rfl | hc
        · show k < a; omega
        · exact hlt c hc

theorem eraseCell_wf {cfg : Config} {a : Nat} {m : Memory} (hm : Memory.wf cfg m = true) :
    Memory.wf cfg (eraseCell a m) = true := by
  induction m with
  | nil => rfl
  | cons e rest ih =>
    obtain ⟨k, d⟩ := e
    obtain ⟨hk, hd, hlt, hrest⟩ := (wf_cons cfg k d rest).1 hm
    unfold eraseCell
    split
    · exact hrest
    · exact (wf_cons ..).2 ⟨hk, hd, fun c hc => hlt c (mem_eraseCell hc), ih hrest⟩

/-- A write inside the image keeps the canonical form. -/
theorem Memory.write_wf {cfg : Config} {a : Nat} {m : Memory} (b : Byte) (hm : Memory.wf cfg m = true)
    (ha : a < 4096) : Memory.wf cfg (Memory.write cfg m a b) = true := by
  unfold Memory.write
  split
  · exact eraseCell_wf hm
  · next h => exact insertCell_wf hm ha h

/-! ### Reading after a write -/

theorem Memory.read_write {cfg : Config} {m : Memory} (hm : Memory.wf cfg m = true) (a q : Nat) (b : Byte) :
    Memory.read cfg (Memory.write cfg m a b) q = if a = q then b else Memory.read cfg m q := by
  unfold Memory.read Memory.write
  split
  · next h =>
    rw [lookupCell_eraseCell hm]
    by_cases hq : a = q
    · subst hq; simp [h]
    · simp [hq]
  · rw [lookupCell_insertCell]
    by_cases hq : a = q <;> simp [hq]

/-- A write leaves every other address alone, whatever the form of the memory. -/
theorem Memory.read_write_ne (cfg : Config) (m : Memory) {a q : Nat} (b : Byte) (h : a ≠ q) :
    Memory.read cfg (Memory.write cfg m a b) q = Memory.read cfg m q := by
  unfold Memory.read Memory.write
  split
  · congr 1
    induction m with
    | nil => rfl
    | cons e rest ih =>
      obtain ⟨k, d⟩ := e
      unfold eraseCell
      split
      · next hk => subst hk; simp [lookupCell, h]
      · simp [lookupCell, ih]
  · rw [lookupCell_insertCell, if_neg h]

/-! ### Equal memories are equal lists -/

theorem wf_lookupCell {cfg : Config} {m : Memory} (hm : Memory.wf cfg m = true) {q : Nat} {b : Byte}
    (h : lookupCell m q = some b) : (q, b) ∈ m ∧ b ≠ unlisted cfg q := by
  induction m with
  | nil => simp [lookupCell] at h
  | cons e rest ih =>
    obtain ⟨k, d⟩ := e
    obtain ⟨-, hd, -, hrest⟩ := (wf_cons cfg k d rest).1 hm
    unfold lookupCell at h
    split at h
    · next hk => subst hk; cases h; exact ⟨by simp, hd⟩
    · exact ⟨List.mem_cons_of_mem _ (ih hrest h).1, (ih hrest h).2⟩

theorem lookupCell_eq_of_read_eq {cfg : Config} {m n : Memory} (hm : Memory.wf cfg m = true)
    (hn : Memory.wf cfg n = true) {q : Nat} (h : Memory.read cfg m q = Memory.read cfg n q) :
    lookupCell m q = lookupCell n q := by
  unfold Memory.read at h
  cases hx : lookupCell m q with
  | none =>
    cases hy : lookupCell n q with
    | none => rfl
    | some c => rw [hx, hy] at h; exact absurd h.symm (wf_lookupCell hn hy).2
  | some b =>
    cases hy : lookupCell n q with
    | none => rw [hx, hy] at h; exact absurd h (wf_lookupCell hm hx).2
    | some c => rw [hx, hy] at h; simpa using h

theorem lookupCell_ext {cfg : Config} {m n : Memory} (hm : Memory.wf cfg m = true)
    (hn : Memory.wf cfg n = true) (h : ∀ q, lookupCell m q = lookupCell n q) : m = n := by
  induction m generalizing n with
  | nil =>
    cases n with
    | nil => rfl
    | cons e rest => have := h e.1; simp [lookupCell] at this
  | cons e rest ih =>
    obtain ⟨k, d⟩ := e
    cases n with
    | nil => have := h k; simp [lookupCell] at this
    | cons e' rest' =>
      obtain ⟨k', d'⟩ := e'
      obtain ⟨-, -, hlt, hrest⟩ := (wf_cons cfg k d rest).1 hm
      obtain ⟨-, -, hlt', hrest'⟩ := (wf_cons cfg k' d' rest').1 hn
      have hkk : k = k' := by
        rcases Nat.lt_trichotomy k k' with hl | rfl | hl
        · have hk := h k
          rw [lookupCell_eq_none (m := (k', d') :: rest') fun c hc => ?_] at hk
          · simp [lookupCell] at hk
          · rcases List.mem_cons.1 hc with rfl | hc
            · exact hl
            · exact hl.trans (hlt' c hc)
        · rfl
        · have hk := h k'
          rw [lookupCell_eq_none (m := (k, d) :: rest) fun c hc => ?_] at hk
          · simp [lookupCell] at hk
          · rcases List.mem_cons.1 hc with rfl | hc
            · exact hl
            · exact hl.trans (hlt c hc)
      subst hkk
      have hd : d = d' := by have := h k; simpa [lookupCell] using this
      subst hd
      congr 1
      refine ih hrest hrest' fun q => ?_
      by_cases hq : k = q
      · subst hq; rw [lookupCell_eq_none hlt, lookupCell_eq_none hlt']
      · have := h q; simpa [lookupCell, hq] using this

/-- Two memories in canonical form that read the same everywhere are the same list. -/
theorem Memory.ext {cfg : Config} {m n : Memory} (hm : Memory.wf cfg m = true) (hn : Memory.wf cfg n = true)
    (h : ∀ q, Memory.read cfg m q = Memory.read cfg n q) : m = n :=
  lookupCell_ext hm hn fun q => lookupCell_eq_of_read_eq hm hn (h q)

/-! ### A state's memory -/

theorem State.peek_poke {s : State} (hm : Memory.wf s.cfg s.mem = true) (a : Nat) (b : Byte) (q : Nat) :
    (s.poke a b).peek q = if a = q then b else s.peek q := Memory.read_write hm a q b

theorem State.peek_poke_ne (s : State) {a q : Nat} (b : Byte) (h : a ≠ q) :
    (s.poke a b).peek q = s.peek q := Memory.read_write_ne s.cfg s.mem b h

theorem State.poke_wf {s : State} (hm : Memory.wf s.cfg s.mem = true) {a : Nat} (b : Byte) (ha : a < 4096) :
    Memory.wf (s.poke a b).cfg (s.poke a b).mem = true := Memory.write_wf b hm ha

/-! ### The access primitives -/

theorem resolve_low (p : AddrPolicy) {a : Word} (h : a.toNat < 4096) : resolve p a = .ok a.toNat := by
  unfold resolve; rw [if_pos (by omega)]

theorem resolve_wrap (a : Word) : resolve .wrap a = .ok (a.toNat % 4096) := by
  unfold resolve
  split
  · rw [Nat.mod_eq_of_lt (by omega)]
  · rfl

theorem resolve_reject {a : Word} (h : 4096 ≤ a.toNat) :
    resolve .reject a = .error (.addressOutOfRange a) := by
  unfold resolve; rw [if_neg (by omega)]

/-- Where an access can go: inside the image; and the one error it can raise. -/
theorem resolve_cases (p : AddrPolicy) (a : Word) :
    resolve p a = .ok (a.toNat % 4096) ∨
      (p = .reject ∧ 4096 ≤ a.toNat ∧ resolve p a = .error (.addressOutOfRange a)) := by
  by_cases h : a.toNat < 4096
  · left; rw [resolve_low p h, Nat.mod_eq_of_lt h]
  · cases p with
    | wrap => exact .inl (resolve_wrap a)
    | reject => exact .inr ⟨rfl, by omega, resolve_reject (by omega)⟩

/-- What a read can answer. -/
theorem memRead_cases (s : State) (a : Word) :
    memRead s a = .ok (s.peek (a.toNat % 4096)) ∨
      (s.cfg.addrPolicy = .reject ∧ 4096 ≤ a.toNat ∧ memRead s a = .error (.addressOutOfRange a)) := by
  unfold memRead
  rcases resolve_cases s.cfg.addrPolicy a with h | ⟨hp, ha, h⟩
  · rw [h]; exact .inl rfl
  · rw [h]; exact .inr ⟨hp, ha, rfl⟩

/-- What a write can answer. -/
theorem memWrite_cases (s : State) (a : Word) (b : Byte) :
    memWrite s a b = .ok (s.poke (a.toNat % 4096) b) ∨
      (s.cfg.addrPolicy = .reject ∧ 4096 ≤ a.toNat ∧ memWrite s a b = .error (.addressOutOfRange a)) := by
  unfold memWrite
  rcases resolve_cases s.cfg.addrPolicy a with h | ⟨hp, ha, h⟩
  · rw [h]; exact .inl rfl
  · rw [h]; exact .inr ⟨hp, ha, rfl⟩

/-- The next address of a block. -/
theorem address_succ (a : Word) (k : Nat) : a + BitVec.ofNat 16 (k + 1) = a + 1 + BitVec.ofNat 16 k := by
  apply BitVec.eq_of_toNat_eq
  simp only [BitVec.toNat_add, BitVec.toNat_ofNat]
  have h1 : (1 : Word).toNat = 1 := rfl
  omega

/-- `n` reads that all answer give `n` bytes, the `k`-th that of address `a + k`. -/
theorem memReadBlock_ok {s : State} {a : Word} {n : Nat} {bs : List Byte} (h : memReadBlock s a n = .ok bs) :
    bs.length = n ∧ ∀ k (hk : k < bs.length), memRead s (a + BitVec.ofNat 16 k) = .ok bs[k] := by
  induction n generalizing a bs with
  | zero => cases h; exact ⟨rfl, fun k hk => absurd hk (Nat.not_lt_zero k)⟩
  | succ n ih =>
    unfold memReadBlock at h
    split at h
    · cases h
    · next b hb =>
      split at h
      · cases h
      · next rest hr =>
        cases h
        obtain ⟨hlen, hget⟩ := ih hr
        refine ⟨by simp [hlen], fun k hk => ?_⟩
        cases k with
        | zero => simpa using hb
        | succ k => rw [address_succ]; exact hget k (by simpa using hk)

/-- A block of reads that fails reports the first access that fails. -/
theorem memReadBlock_error {s : State} {a : Word} {n : Nat} {e : Err} (h : memReadBlock s a n = .error e) :
    ∃ k, k < n ∧ memRead s (a + BitVec.ofNat 16 k) = .error e ∧
      ∀ j, j < k → ∃ b, memRead s (a + BitVec.ofNat 16 j) = .ok b := by
  induction n generalizing a with
  | zero => cases h
  | succ n ih =>
    unfold memReadBlock at h
    split at h
    · next f hb =>
      cases h
      exact ⟨0, by omega, by simpa using hb, fun j hj => absurd hj (Nat.not_lt_zero j)⟩
    · next b hb =>
      split at h
      · next f hr =>
        cases h
        obtain ⟨k, hk, hget, hlt⟩ := ih hr
        refine ⟨k + 1, by omega, by rw [address_succ]; exact hget, fun j hj => ?_⟩
        cases j with
        | zero => exact ⟨b, by simpa using hb⟩
        | succ j => rw [address_succ]; exact hlt j (by omega)
      · cases h

/-- A block of writes changes memory and nothing else, and keeps its canonical form. -/
theorem memWriteBlock_frame {s t : State} {a : Word} {bs : List Byte} (h : memWriteBlock s a bs = .ok t) :
    (∃ m, t = { s with mem := m }) ∧
      (Memory.wf s.cfg s.mem = true → Memory.wf t.cfg t.mem = true) := by
  induction bs generalizing s a with
  | nil => simp only [memWriteBlock, Except.ok.injEq] at h; subst h; exact ⟨⟨s.mem, rfl⟩, id⟩
  | cons b rest ih =>
    unfold memWriteBlock at h
    rcases memWrite_cases s a b with hw | ⟨-, -, hw⟩
    · rw [hw] at h
      obtain ⟨⟨m, hm⟩, hwf⟩ := ih h
      refine ⟨⟨m, by rw [hm]; rfl⟩, fun hs => hwf (State.poke_wf hs b (Nat.mod_lt _ (by omega)))⟩
    · rw [hw] at h; cases h

/-- A block of writes leaves every byte that it does not store as it was. -/
theorem memWriteBlock_other {s t : State} {a : Word} {bs : List Byte} (h : memWriteBlock s a bs = .ok t)
    {q : Nat} (hq : ∀ k, k < bs.length → (a + BitVec.ofNat 16 k).toNat % 4096 ≠ q) : t.peek q = s.peek q := by
  induction bs generalizing s a with
  | nil => cases h; rfl
  | cons b rest ih =>
    unfold memWriteBlock at h
    rcases memWrite_cases s a b with hw | ⟨-, -, hw⟩
    · rw [hw] at h
      have h0 := hq 0 (by simp)
      rw [ih h fun k hk => ?_, State.peek_poke_ne s b (by simpa using h0)]
      have := hq (k + 1) (by simpa using hk)
      rwa [address_succ] at this
    · rw [hw] at h; cases h

end Sys2Proof.Machine
end

