-- ==== Sys2Proof/Laws/Ops.lean ====
section
/-! SUPPORT. One spec lemma for each shared operation of Machine/Ops.lean and Machine/Operands.lean: what it answers,
and what it leaves alone. -/

namespace Sys2Proof.Machine

/-! ### The end of a cycle (R156) -/

/-- A cycle ends in one of two ways: its effect stands, or it is discarded and the error is recorded. -/
theorem finish_cases {w : Word} {c : Bool} {s t : State} {effect : Except Err State}
    (h : finish w c s effect = .next t) :
    (∃ u, effect = .ok u ∧ t = u.answer (.cycleDone ⟨c, w, 0, 0⟩)) ∨
      (∃ e, effect = .error e ∧ t = s.halted w e) := by
  cases effect with
  | ok u => exact .inl ⟨u, rfl, by simpa [finish, complete] using h.symm⟩
  | error e => exact .inr ⟨e, rfl, by simpa [finish, raise] using h.symm⟩

theorem finish_ok (w : Word) (c : Bool) (s u : State) :
    finish w c s (.ok u) = .next (u.answer (.cycleDone ⟨c, w, 0, 0⟩)) := rfl

theorem finish_error (w : Word) (c : Bool) (s : State) (e : Err) :
    finish w c s (.error e) = .next (s.halted w e) := rfl

/-- The end of a cycle is always a next state. -/
theorem finish_next (w : Word) (c : Bool) (s : State) (effect : Except Err State) :
    ∃ t, finish w c s effect = .next t := by
  cases effect with
  | ok u => exact ⟨_, rfl⟩
  | error e => exact ⟨_, rfl⟩

/-! ### The call stack (R16) -/

theorem push_ok {s : State} (r : Word) (h : s.sp.val < 16) :
    push s r = .ok { s with stack := s.stack.set s.sp.val r, sp := ⟨s.sp.val + 1, by omega⟩ } := by
  unfold push; rw [dif_pos h]

theorem push_full {s : State} (r : Word) (h : s.sp = 16) : push s r = .error .stackOverflow := by
  unfold push; rw [dif_neg (by rw [h]; decide)]

theorem pop_ok {s : State} (h : 0 < s.sp.val) :
    pop s = .ok (s.stack[s.sp.val - 1]'(by omega), { s with sp := ⟨s.sp.val - 1, by omega⟩ }) := by
  unfold pop; rw [if_pos h]

theorem pop_empty {s : State} (h : s.sp = 0) : pop s = .error .stackUnderflow := by
  unfold pop; rw [if_neg (by rw [h]; decide)]

/-! ### Blocks of accesses (R48, R50) -/

/-- A block of reads answers when every one of its addresses can be accessed. -/
theorem memReadBlock_total {s : State} {a : Word} {n : Nat}
    (h : ∀ k, k < n → s.cfg.addrPolicy = .wrap ∨ (a + BitVec.ofNat 16 k).toNat < 4096) :
    ∃ bs, memReadBlock s a n = .ok bs := by
  cases hr : memReadBlock s a n with
  | ok bs => exact ⟨bs, rfl⟩
  | error e =>
    obtain ⟨k, hk, he, -⟩ := memReadBlock_error hr
    rcases memRead_cases s (a + BitVec.ofNat 16 k) with ho | ⟨hp, ha, -⟩
    · rw [ho] at he; cases he
    · rcases h k hk with hw | hl
      · rw [hp] at hw; cases hw
      · omega

/-- A block of writes that fails reports the first address that cannot be accessed. -/
theorem memWriteBlock_error {s : State} {a : Word} {bs : List Byte} {e : Err}
    (h : memWriteBlock s a bs = .error e) :
    ∃ k, k < bs.length ∧ s.cfg.addrPolicy = .reject ∧ 4096 ≤ (a + BitVec.ofNat 16 k).toNat ∧
      e = .addressOutOfRange (a + BitVec.ofNat 16 k) ∧
      ∀ j, j < k → (a + BitVec.ofNat 16 j).toNat < 4096 := by
  induction bs generalizing s a with
  | nil => simp [memWriteBlock] at h
  | cons b rest ih =>
    unfold memWriteBlock at h
    rcases memWrite_cases s a b with hw | ⟨hp, ha, hw⟩
    · rw [hw] at h
      obtain ⟨k, hk, hp, hge, he, hlt⟩ := ih h
      refine ⟨k + 1, by simpa using hk, hp, by rwa [address_succ], by rwa [address_succ], fun j hj => ?_⟩
      cases j with
      | zero =>
        by_contra hc
        have hr : memWrite s a b = .error (.addressOutOfRange a) := by
          unfold memWrite
          rw [show s.cfg.addrPolicy = .reject from hp, resolve_reject (by simpa using hc)]
        rw [hw] at hr; cases hr
      | succ j => rw [address_succ]; exact hlt j (by omega)
    · rw [hw] at h; cases h
      exact ⟨0, by simp, hp, by simpa using ha, by simp, fun j hj => absurd hj (Nat.not_lt_zero j)⟩

/-- A block of writes answers when every one of its addresses can be accessed. -/
theorem memWriteBlock_total {s : State} {a : Word} {bs : List Byte}
    (h : ∀ k, k < bs.length → s.cfg.addrPolicy = .wrap ∨ (a + BitVec.ofNat 16 k).toNat < 4096) :
    ∃ t, memWriteBlock s a bs = .ok t := by
  cases hr : memWriteBlock s a bs with
  | ok t => exact ⟨t, rfl⟩
  | error e =>
    obtain ⟨k, hk, hp, hge, -, -⟩ := memWriteBlock_error hr
    rcases h k hk with hw | hl
    · rw [hp] at hw; cases hw
    · omega

/-- Two addresses less than 4096 apart are different bytes of the image. -/
theorem address_ne (a : Word) {j k : Nat} (hjk : j < k) (hk : k < 4096) :
    (a + BitVec.ofNat 16 j).toNat % 4096 ≠ (a + BitVec.ofNat 16 k).toNat % 4096 := by
  simp only [BitVec.toNat_add, BitVec.toNat_ofNat]
  omega

/-- A block of writes stores each byte at its address. -/
theorem memWriteBlock_stores {s t : State} {a : Word} {bs : List Byte} (hm : Memory.wf s.cfg s.mem = true)
    (hlen : bs.length ≤ 4096) (h : memWriteBlock s a bs = .ok t) (k : Nat) (hk : k < bs.length) :
    t.peek ((a + BitVec.ofNat 16 k).toNat % 4096) = bs[k] := by
  induction bs generalizing s a k with
  | nil => exact absurd hk (Nat.not_lt_zero k)
  | cons b rest ih =>
    unfold memWriteBlock at h
    rcases memWrite_cases s a b with hw | ⟨-, -, hw⟩
    · rw [hw] at h
      cases k with
      | zero =>
        rw [memWriteBlock_other h fun j hj => ?_]
        · simp [State.peek_poke hm]
        · rw [← address_succ]
          exact (address_ne a (Nat.succ_pos j) (by simp at hlen; omega)).symm
      | succ k =>
        rw [address_succ]
        have hm' := State.poke_wf hm b (a := a.toNat % 4096) (Nat.mod_lt _ (by omega))
        exact ih hm' (by simp at hlen; omega) h k (by simpa using hk)
    · rw [hw] at h; cases h

/-! ### Register blocks (R124, R125) -/

theorem regsUpTo_length (s : State) (x : RegIdx) : (regsUpTo s x).length = x.val + 1 := by
  simp [regsUpTo]

theorem regsUpTo_get (s : State) (x : RegIdx) (k : Nat) (hk : k < (regsUpTo s x).length) :
    (regsUpTo s x)[k] = s.readV ⟨k, by rw [regsUpTo_length] at hk; omega⟩ := by
  simp [regsUpTo, State.readV]

theorem loadRegsFrom_get (v : Vector Byte 16) (k : Nat) (bs : List Byte) (r : RegIdx) :
    (loadRegsFrom v k bs)[r] = if k ≤ r.val then bs.getD (r.val - k) v[r] else v[r] := by
  induction bs generalizing v k with
  | nil => simp [loadRegsFrom]
  | cons b rest ih =>
    rw [loadRegsFrom, ih]
    obtain ⟨r, hr⟩ := r
    rcases Nat.lt_trichotomy k r with h | rfl | h
    · have h1 : r - k = (r - (k + 1)) + 1 := by omega
      simp [Nat.succ_le_of_lt h, Nat.le_of_lt h, h1, Nat.ne_of_lt h]
    · simp
    · have h1 : ¬ k ≤ r := by omega
      have h2 : ¬ k + 1 ≤ r := by omega
      have h3 : k ≠ r := by omega
      simp [h1, h2, h3]

/-! ### The framebuffer (R18) -/

theorem cell_flipCell (fb : Framebuffer) (r c r' c' : Nat) :
    cell (flipCell fb r c) r' c' =
      if r = r' ∧ c = c' ∧ r < 32 ∧ c < 64 then !cell fb r c else cell fb r' c' := by
  unfold flipCell cell
  by_cases h : r < 32 ∧ c < 64
  · obtain ⟨hr, hc⟩ := h
    by_cases h' : r' < 32 ∧ c' < 64
    · obtain ⟨hr', hc'⟩ := h'
      by_cases hrr : r = r'
      · subst hrr
        by_cases hcc : c = c'
        · subst hcc; simp [hr, hc]
        · simp [hr, hc, hc', hcc]
      · simp [hr, hc, hr', hc', hrr]
    · have hne : ¬ (r = r' ∧ c = c' ∧ r < 32 ∧ c < 64) := by rintro ⟨rfl, rfl, h1, h2⟩; exact h' ⟨h1, h2⟩
      rw [if_neg hne]; simp [h']
  · have hne : ¬ (r = r' ∧ c = c' ∧ r < 32 ∧ c < 64) := by rintro ⟨-, -, h1⟩; exact h h1
    rw [if_neg hne]; simp [h]

/-- Two framebuffers with the same cells are the same. -/
theorem framebuffer_ext {a b : Framebuffer} (h : ∀ r c, r < 32 → c < 64 → cell a r c = cell b r c) : a = b := by
  apply Vector.ext
  intro r hr
  apply Vector.ext
  intro c hc
  have := h r c hr hc
  simpa [cell, hr, hc] using this

theorem cell_blankScreen (r c : Nat) : cell blankScreen r c = false := by
  unfold cell blankScreen
  split <;> simp

/-! ### The timers (R170) -/

theorem countDown_toNat (b : Byte) : (countDown b).toNat = b.toNat - 1 := by
  unfold countDown
  split
  · next h => rw [h]; rfl
  · next h =>
    have hb : b.toNat ≠ 0 := fun hz => h (BitVec.eq_of_toNat_eq hz)
    have h1 : (1 : Byte).toNat = 1 := rfl
    rw [BitVec.toNat_sub]
    omega

end Sys2Proof.Machine
end

