-- ==== Sys2Proof/Laws/Display.lean ====
section
/-! SUPPORT. What the loops of the sprite drawing do, in closed form (spec/44_display.md rule R131). -/

namespace Sys2Proof.Machine

/-- Whether column `q` holds a bit of 1 of a sprite row whose left edge is `x0`. -/
def onRow (b : Byte) (x0 q : Nat) : Bool := decide (x0 ≤ q ∧ q < x0 + 8) && spriteBit b (q - x0)

/-- Whether cell `(r, q)` holds a bit of 1 of a sprite whose top left corner is `(row, x0)`. -/
def onSprite (bs : List Byte) (row x0 r q : Nat) : Bool := decide (row ≤ r) && onRow (bs.getD (r - row) 0) x0 q

theorem onRow_zero (x0 q : Nat) : onRow 0 x0 q = false := by simp [onRow, spriteBit]

/-- One pixel: its cell is flipped when the sprite has a bit of 1 there and the column is on the grid. -/
theorem drawPixel_cell (b : Byte) {row : Nat} (x0 c : Nat) (acc : Framebuffer × Bool) (hrow : row < 32) {r q : Nat}
    (hq : q < 64) :
    cell (drawPixel b row x0 c acc).1 r q =
      (cell acc.1 r q ^^ (decide (r = row ∧ q = x0 + c) && spriteBit b c)) := by
  unfold drawPixel
  by_cases hh : row = r ∧ x0 + c = q
  · obtain ⟨rfl, rfl⟩ := hh
    cases spriteBit b c <;> simp [cell_flipCell, hrow, hq, show x0 + c ≤ 63 by omega]
  · have hd : ¬ (r = row ∧ q = x0 + c) := fun h => hh ⟨h.1.symm, h.2.symm⟩
    rw [decide_eq_false hd]
    split
    · rw [cell_flipCell, if_neg fun h => hh ⟨h.1, h.2.1⟩]; simp
    · simp

/-- One pixel collides when it flips a cell that held 1. -/
theorem drawPixel_collision (b : Byte) (row x0 c : Nat) (acc : Framebuffer × Bool) :
    (drawPixel b row x0 c acc).2 = true ↔
      acc.2 = true ∨ (x0 + c < 64 ∧ spriteBit b c = true ∧ cell acc.1 row (x0 + c) = true) := by
  unfold drawPixel
  by_cases hc : x0 + c < 64
  · cases spriteBit b c <;> simp [hc, show x0 + c ≤ 63 by omega]
  · simp [hc, show ¬ x0 + c ≤ 63 by omega]

/-- The inner loop flips the cells of its row that the sprite has a bit of 1 on. -/
theorem drawPixels_cell (b : Byte) {row : Nat} (x0 n c : Nat) (acc : Framebuffer × Bool) (hrow : row < 32)
    {r q : Nat} (hq : q < 64) :
    cell (drawPixels b row x0 c n acc).1 r q =
      (cell acc.1 r q ^^ (decide (r = row ∧ x0 + c ≤ q ∧ q < x0 + c + n) && spriteBit b (q - x0))) := by
  induction n generalizing c acc with
  | zero => rw [decide_eq_false (by omega)]; simp [drawPixels]
  | succ n ih =>
    rw [drawPixels, ih, drawPixel_cell b x0 c acc hrow hq]
    by_cases h1 : q = x0 + c
    · subst h1
      rw [decide_eq_false (p := r = row ∧ x0 + (c + 1) ≤ x0 + c ∧ _) (by omega), Nat.add_sub_cancel_left]
      by_cases hr : r = row <;> simp [hr]
    · rw [decide_eq_false (p := r = row ∧ q = x0 + c) fun h => h1 h.2]
      have : (r = row ∧ x0 + (c + 1) ≤ q ∧ q < x0 + (c + 1) + n) ↔
          (r = row ∧ x0 + c ≤ q ∧ q < x0 + c + (n + 1)) := by omega
      simp only [this, Bool.false_and, Bool.xor_false]

/-- The inner loop collides where it flips a cell that held 1. -/
theorem drawPixels_collision (b : Byte) {row : Nat} (x0 n c : Nat) (acc : Framebuffer × Bool) (hrow : row < 32) :
    (drawPixels b row x0 c n acc).2 = true ↔
      acc.2 = true ∨ ∃ q, q < 64 ∧ (x0 + c ≤ q ∧ q < x0 + c + n) ∧ spriteBit b (q - x0) = true ∧
        cell acc.1 row q = true := by
  induction n generalizing c acc with
  | zero => simp [drawPixels]
  | succ n ih =>
    rw [drawPixels, ih, drawPixel_collision]
    constructor
    · rintro ((h | ⟨h1, h2, h3⟩) | ⟨q, h1, h2, h3, h4⟩)
      · exact .inl h
      · exact .inr ⟨x0 + c, h1, by omega, by rwa [Nat.add_sub_cancel_left], h3⟩
      · rw [drawPixel_cell b x0 c acc hrow h1, decide_eq_false (by omega)] at h4
        exact .inr ⟨q, h1, by omega, h3, by simpa using h4⟩
    · rintro (h | ⟨q, h1, h2, h3, h4⟩)
      · exact .inl (.inl h)
      · by_cases hq : q = x0 + c
        · subst hq
          rw [Nat.add_sub_cancel_left] at h3
          exact .inl (.inr ⟨h1, h3, h4⟩)
        · refine .inr ⟨q, h1, by omega, h3, ?_⟩
          rw [drawPixel_cell b x0 c acc hrow h1, decide_eq_false fun h => hq h.2]
          simpa using h4

theorem onSprite_nil (row x0 r q : Nat) : onSprite [] row x0 r q = false := by
  unfold onSprite; rw [List.getD_nil, onRow_zero, Bool.and_false]

theorem onSprite_cons (b : Byte) (bs : List Byte) (row x0 r q : Nat) :
    onSprite (b :: bs) row x0 r q =
      ((decide (r = row ∧ x0 ≤ q ∧ q < x0 + 8) && spriteBit b (q - x0)) ^^ onSprite bs (row + 1) x0 r q) := by
  unfold onSprite onRow
  rcases Nat.lt_trichotomy r row with h | rfl | h
  · simp [show ¬ row ≤ r by omega, show ¬ row + 1 ≤ r by omega, show r ≠ row by omega]
  · simp
  · have h1 : r - row = (r - (row + 1)) + 1 := by omega
    simp [Nat.le_of_lt h, h, show r ≠ row by omega, h1]

/-- The drawing flips exactly the cells of the grid that the sprite has a bit of 1 on. -/
theorem drawRows_cell (x0 : Nat) (bs : List Byte) (row : Nat) (acc : Framebuffer × Bool)
    (hl : row + bs.length ≤ 32) {r q : Nat} (hq : q < 64) :
    cell (drawRows bs row x0 acc).1 r q = (cell acc.1 r q ^^ onSprite bs row x0 r q) := by
  induction bs generalizing row acc with
  | nil => simp [drawRows, onSprite_nil]
  | cons b bs ih =>
    simp only [List.length_cons] at hl
    rw [drawRows, ih _ _ (by omega), drawPixels_cell b x0 8 0 acc (by omega) hq, onSprite_cons]
    simp only [Nat.add_zero, Bool.xor_assoc]

/-- The drawing collides when it flips a cell that held 1 before the instruction. -/
theorem drawRows_collision (x0 : Nat) (bs : List Byte) (row : Nat) (acc : Framebuffer × Bool)
    (hl : row + bs.length ≤ 32) :
    (drawRows bs row x0 acc).2 = true ↔
      acc.2 = true ∨ ∃ r q, r < 32 ∧ q < 64 ∧ onSprite bs row x0 r q = true ∧ cell acc.1 r q = true := by
  induction bs generalizing row acc with
  | nil => simp [drawRows, onSprite_nil]
  | cons b bs ih =>
    simp only [List.length_cons] at hl
    rw [drawRows, ih _ _ (by omega), drawPixels_collision b x0 8 0 acc (by omega)]
    constructor
    · rintro ((h | ⟨q, h1, h2, h3, h4⟩) | ⟨r, q, h1, h2, h3, h4⟩)
      · exact .inl h
      · have h5 : onSprite bs (row + 1) x0 row q = false := by simp [onSprite]
        refine .inr ⟨row, q, by omega, h1, ?_, h4⟩
        rw [onSprite_cons, h5, h3]; simpa using h2
      · rw [drawPixels_cell b x0 8 0 acc (by omega) h2] at h4
        have h5 : row + 1 ≤ r := by simp [onSprite] at h3; omega
        rw [decide_eq_false (by omega)] at h4
        refine .inr ⟨r, q, h1, h2, ?_, by simpa using h4⟩
        rw [onSprite_cons, decide_eq_false (by omega)]; simpa using h3
    · rintro (h | ⟨r, q, h1, h2, h3, h4⟩)
      · exact .inl (.inl h)
      · rw [onSprite_cons] at h3
        by_cases hr : r = row
        · subst hr
          have h5 : onSprite bs (r + 1) x0 r q = false := by simp [onSprite]
          rw [h5] at h3
          simp at h3
          exact .inl (.inr ⟨q, h2, by omega, h3.2, h4⟩)
        · rw [decide_eq_false (p := r = row ∧ _) fun h => hr h.1] at h3
          refine .inr ⟨r, q, h1, h2, by simpa using h3, ?_⟩
          rw [drawPixels_cell b x0 8 0 acc (by omega) h2, decide_eq_false fun h => hr h.1]
          simpa using h4

end Sys2Proof.Machine
end

