-- ==== Sys2Proof/Laws/Exec.lean ====
section
/-! SUPPORT. What exec and step can do, said once: every instruction is an effect, a state or an error, and one of the
two ends of a cycle around it. -/

namespace Sys2Proof.Machine

open Sys2Proof.Safety

/-- The effect of an instruction: the state it makes before the cycle's record is returned, or the error it raises. -/
def effect (i : Instr) (s : State) : Except Err State :=
  match i with
  | .cls => .ok (s.show blankScreen).advance
  | .ret => retEffect s
  | .jp nnn => .ok (s.setPc (zext12 nnn))
  | .call nnn => callEffect nnn s
  | .seByte x kk => .ok (s.skipIf (s.readV x == kk))
  | .sneByte x kk => .ok (s.skipIf (s.readV x != kk))
  | .seReg x y => .ok (s.skipIf (s.readV x == s.readV y))
  | .sneReg x y => .ok (s.skipIf (s.readV x != s.readV y))
  | .ldByte x kk => .ok (s.setV x kk).advance
  | .addByte x kk => .ok (s.setV x (addResult (s.readV x) kk)).advance
  | .ldReg x y => .ok (s.setV x (s.readV y)).advance
  | .orReg x y => .ok (s.setV x (s.readV x ||| s.readV y)).resetFlagIfLogic.advance
  | .andReg x y => .ok (s.setV x (s.readV x &&& s.readV y)).resetFlagIfLogic.advance
  | .xorReg x y => .ok (s.setV x (s.readV x ^^^ s.readV y)).resetFlagIfLogic.advance
  | .addReg x y =>
    .ok (s.setResult x (addResult (s.readV x) (s.readV y)) (addCarry (s.readV x) (s.readV y))).advance
  | .subReg x y =>
    .ok (s.setResult x (subResult (s.readV x) (s.readV y)) (subNoBorrow (s.readV x) (s.readV y))).advance
  | .shr x _ => .ok (s.setResult x (shrResult (s.readV x)) (shrFlag (s.readV x))).advance
  | .subnReg x y =>
    .ok (s.setResult x (subResult (s.readV y) (s.readV x)) (subNoBorrow (s.readV y) (s.readV x))).advance
  | .shl x _ => .ok (s.setResult x (shlResult (s.readV x)) (shlFlag (s.readV x))).advance
  | .ldI nnn => .ok (s.setI (zext12 nnn)).advance
  | .jpV0 nnn => .ok (s.setPc (zext12 nnn + zext8 (s.readV 0)))
  | .rnd x kk => .ok ((drawRandom s).2.setV x ((drawRandom s).1 &&& kk)).advance
  | .drw x y n => drawEffect x y n s
  | .skp x => keySkip x true s
  | .sknp x => keySkip x false s
  | .ldVxDt x => .ok (s.setV x s.dt).advance
  | .ldVxK x =>
    .ok (match lowestKey s.keys with
      | none => s
      | some k => (s.setV x (BitVec.ofNat 8 k)).advance)
  | .ldDtVx x => .ok (s.setDt (s.readV x)).advance
  | .ldStVx x => .ok (s.setSt (s.readV x)).advance
  | .addI x => .ok (s.setI (s.i + zext8 (s.readV x))).advance
  | .ldF x => .ok (s.setI (glyphAddress (s.readV x))).advance
  | .ldB x => bcdEffect x s
  | .storeRegs x => storeRegsEffect x s
  | .loadRegs x => loadRegsEffect x s
  | .sys _ => .ok s.advance

/-- exec is the instruction's effect and the end of its cycle (R26, R156). -/
theorem exec_eq_finish (i : Instr) (s : State) :
    exec i s = finish (encode i) (changesScreen i) s (effect i s) := by
  cases i <;> rfl

/-- What a next state of exec can be. -/
theorem exec_cases {i : Instr} {s t : State} (h : exec i s = .next t) :
    (∃ u, effect i s = .ok u ∧ t = u.answer (.cycleDone ⟨changesScreen i, encode i, 0, 0⟩)) ∨
      (∃ e, effect i s = .error e ∧ t = s.halted (encode i) e) :=
  finish_cases (by rw [← exec_eq_finish]; exact h)

/-- What a cycle can do: a halted core answers again; else the fetch fails, or its word is run. -/
theorem cycle_cases (s : State) :
    (s.halt = true ∧ cycle s = haltedCycle s.booted) ∨
      (s.halt = false ∧
        ((∃ e, fetch s.booted = .error e ∧ cycle s = raise 0 e s.booted) ∨
          (∃ w, fetch s.booted = .ok w ∧ decodeWord w = none ∧ cycle s = unrecognised w s.booted) ∨
          (∃ w i, fetch s.booted = .ok w ∧ decodeWord w = some i ∧ cycle s = exec i s.booted))) := by
  unfold cycle runCycle runWord
  cases hh : s.halt with
  | true => exact .inl ⟨rfl, rfl⟩
  | false =>
    refine .inr ⟨rfl, ?_⟩
    cases hf : fetch s.booted with
    | error e => exact .inl ⟨e, rfl, rfl⟩
    | ok w =>
      cases hd : decodeWord w with
      | none => exact .inr (.inl ⟨w, rfl, hd, by simp [hd]⟩)
      | some i => exact .inr (.inr ⟨w, i, rfl, hd, by simp [hd]⟩)

/-- When an access is answered, said by the state alone. -/
theorem memRead_inside {s : State} {a : Word} (h : s.cfg.addrPolicy = .wrap ∨ a.toNat < 4096) :
    memRead s a = .ok (s.peek (a.toNat % 4096)) := by
  rcases memRead_cases s a with h1 | ⟨hp, ha, _⟩
  · exact h1
  · rcases h with h | h
    · rw [h] at hp; cases hp
    · omega

/-- When a fetch is answered, and with which word (R46). -/
theorem fetch_inside {s : State} (h : s.cfg.addrPolicy = .wrap ∨ s.pc.toNat < 0x0FFF) :
    fetch s = .ok (wordOfBytes (s.peek (s.pc.toNat % 4096)) (s.peek ((s.pc + 1).toNat % 4096))) := by
  have h1 : (1 : Word).toNat = 1 := rfl
  have hlo : s.cfg.addrPolicy = .wrap ∨ (s.pc + 1).toNat < 4096 :=
    h.imp_right fun hl => by rw [BitVec.toNat_add]; omega
  unfold fetch
  rw [memRead_inside (h.imp_right fun hl => by omega), memRead_inside hlo]

/-- An answered read was of an address that exists under ADDR_POLICY. -/
theorem memRead_ok {s : State} {a : Word} {b : Byte} (h : memRead s a = .ok b) :
    s.cfg.addrPolicy = .wrap ∨ a.toNat < 4096 := by
  cases hp : s.cfg.addrPolicy with
  | wrap => exact .inl rfl
  | reject =>
    right
    by_contra hc
    unfold memRead at h
    rw [hp, resolve_reject (by omega)] at h
    cases h

/-- An answered fetch was of two addresses that exist under ADDR_POLICY (R46). -/
theorem fetch_ok {s : State} {w : Word} (h : fetch s = .ok w) :
    s.cfg.addrPolicy = .wrap ∨ s.pc.toNat < 0x0FFF := by
  have h1 : (1 : Word).toNat = 1 := rfl
  unfold fetch at h
  split at h
  · cases h
  · next hi hhi =>
    split at h
    · cases h
    · next lo hlo =>
      rcases memRead_ok hhi with hw | ha
      · exact .inl hw
      · refine (memRead_ok hlo).imp_right fun hb => ?_
        rw [BitVec.toNat_add] at hb
        omega

/-- Why a fetch fails: under `reject`, `PC` or the address after it is 4096 or more (R46, R154). -/
theorem fetch_error {s : State} {e : Err} (h : fetch s = .error e) :
    s.cfg.addrPolicy = .reject ∧ 0x0FFF ≤ s.pc.toNat ∧
      e = .addressOutOfRange (if s.pc = 0x0FFF then 0x1000 else s.pc) := by
  unfold fetch at h
  rcases memRead_cases s s.pc with h1 | ⟨hp, hge, h1⟩
  · rw [h1] at h
    rcases memRead_cases s (s.pc + 1) with h2 | ⟨hp, hge, h2⟩
    · rw [h2] at h; cases h
    · rw [h2] at h
      have hlt : s.pc.toNat < 4096 := by
        by_contra hc
        unfold memRead at h1
        rw [hp, resolve_reject (by omega)] at h1
        cases h1
      have hpc : s.pc.toNat = 0x0FFF := by
        rw [BitVec.toNat_add] at hge
        have : (1 : Word).toNat = 1 := rfl
        omega
      have hpc' : s.pc = 0x0FFF := BitVec.eq_of_toNat_eq hpc
      refine ⟨hp, by omega, ?_⟩
      rw [if_pos hpc']
      cases h
      rw [hpc']; rfl
  · rw [h1] at h
    refine ⟨hp, by omega, ?_⟩
    rw [if_neg (fun hc => by rw [hc] at hge; exact absurd hge (by decide))]
    cases h; rfl

end Sys2Proof.Machine
end

