-- ==== Sys2Proof/Laws/Errors.lean ====
section
/-! SUPPORT. When each operation raises an error, in the terms of the error table (spec/60_exceptions.md rule R150,
Sys2Proof/Safety.lean). -/

namespace Sys2Proof.Machine

open Sys2Proof.Safety

/-! ### Accesses outside memory (R154) -/

/-- The first failing access of a block gives its error. -/
theorem firstOutside_eq_some {s : State} {n k : Nat} (hp : s.cfg.addrPolicy = .reject) (hk : k < n)
    (h : 4096 ≤ (atI s k).toNat) (hl : ∀ j, j < k → (atI s j).toNat < 4096) :
    firstOutside s n = some (.addressOutOfRange (atI s k)) := by
  unfold firstOutside
  rw [hp]
  simp only [Option.map_eq_some_iff, Err.addressOutOfRange.injEq, exists_eq_right]
  rw [List.find?_eq_some_iff_getElem]
  refine ⟨by simpa using h, k, by simpa using hk, by simp, fun j hj => ?_⟩
  simp only [List.getElem_map, List.getElem_range, Bool.not_eq_true', decide_eq_false_iff_not, Nat.not_le]
  exact hl j hj

/-- A block whose addresses can all be accessed has no error. -/
theorem firstOutside_eq_none {s : State} {n : Nat}
    (h : s.cfg.addrPolicy = .wrap ∨ ∀ k, k < n → (atI s k).toNat < 4096) : firstOutside s n = none := by
  unfold firstOutside
  split
  · rfl
  · next hp =>
    rcases h with h | h
    · rw [hp] at h; cases h
    · simp only [Option.map_eq_none_iff, List.find?_eq_none]
      intro a ha
      simp only [List.mem_map, List.mem_range] at ha
      obtain ⟨k, hk, rfl⟩ := ha
      simpa using h k hk

/-- A block of reads from `I` answers or raises what the table says. -/
theorem memReadBlock_firstOutside (s : State) (n : Nat) :
    (∃ bs, memReadBlock s s.i n = .ok bs ∧ firstOutside s n = none) ∨
      (∃ e, memReadBlock s s.i n = .error e ∧ firstOutside s n = some e) := by
  cases h : memReadBlock s s.i n with
  | ok bs =>
    refine .inl ⟨bs, rfl, firstOutside_eq_none ?_⟩
    obtain ⟨hl, hg⟩ := memReadBlock_ok h
    cases hp : s.cfg.addrPolicy with
    | wrap => exact .inl rfl
    | reject =>
      refine .inr fun k hk => ?_
      rcases memRead_ok (hg k (by omega)) with hw | hlt
      · rw [hp] at hw; cases hw
      · exact hlt
  | error e =>
    refine .inr ⟨e, rfl, ?_⟩
    obtain ⟨k, hk, he, hl⟩ := memReadBlock_error h
    rcases memRead_cases s (s.i + BitVec.ofNat 16 k) with h1 | ⟨hp, hge, h1⟩
    · rw [h1] at he; cases he
    · rw [h1] at he; cases he
      refine firstOutside_eq_some hp hk hge fun j hj => ?_
      obtain ⟨b, hb⟩ := hl j hj
      rcases memRead_ok hb with hw | hlt
      · rw [hp] at hw; cases hw
      · exact hlt

/-- A block of writes from `I` answers or raises what the table says. -/
theorem memWriteBlock_firstOutside (s : State) (bs : List Byte) :
    (∃ t, memWriteBlock s s.i bs = .ok t ∧ firstOutside s bs.length = none) ∨
      (∃ e, memWriteBlock s s.i bs = .error e ∧ firstOutside s bs.length = some e) := by
  cases h : memWriteBlock s s.i bs with
  | ok t =>
    refine .inl ⟨t, rfl, firstOutside_eq_none ?_⟩
    cases hp : s.cfg.addrPolicy with
    | wrap => exact .inl rfl
    | reject =>
      have key : ∀ (bs : List Byte) (q : State) (a : Word), q.cfg.addrPolicy = .reject →
          memWriteBlock q a bs = .ok t → ∀ k, k < bs.length → (a + BitVec.ofNat 16 k).toNat < 4096 := by
        intro bs
        induction bs with
        | nil => intro q a _ _ k hk; exact absurd hk (Nat.not_lt_zero k)
        | cons b rest ih =>
          intro q a hq hw k hk
          unfold memWriteBlock at hw
          rcases memWrite_cases q a b with h1 | ⟨-, -, h1⟩
          · rw [h1] at hw
            cases k with
            | zero =>
              by_contra hc
              have hr : memWrite q a b = .error (.addressOutOfRange a) := by
                unfold memWrite
                rw [hq, resolve_reject (by simpa using hc)]
              rw [h1] at hr; cases hr
            | succ k =>
              rw [address_succ]
              exact ih (q.poke (a.toNat % 4096) b) _ hq hw k (by simpa using hk)
          · rw [h1] at hw; cases hw
      exact .inr (key bs s s.i hp h)
  | error e =>
    refine .inr ⟨e, rfl, ?_⟩
    obtain ⟨k, hk, hp, hge, he, hl⟩ := memWriteBlock_error h
    rw [he]
    exact firstOutside_eq_some hp hk hge hl

/-! ### Key numbers and the stack (R152, R153, R157) -/

theorem keyOperand_cases (s : State) (x : RegIdx) :
    (∃ k : Fin 16, keyOperand s x = .ok k ∧ (s.readV x).toNat = k.val) ∨
      (keyOperand s x = .error (.keyIndexOutOfRange (s.readV x)) ∧ 15 < (s.readV x).toNat) := by
  unfold keyOperand
  split
  · exact .inl ⟨_, rfl, rfl⟩
  · exact .inr ⟨rfl, by omega⟩

theorem push_cases (s : State) (r : Word) :
    (∃ h : s.sp.val < 16,
        push s r = .ok { s with stack := s.stack.set s.sp.val r, sp := ⟨s.sp.val + 1, by omega⟩ }) ∨
      (push s r = .error .stackOverflow ∧ s.sp = 16) := by
  by_cases h : s.sp.val < 16
  · exact .inl ⟨h, push_ok r h⟩
  · have h16 : s.sp = 16 := Fin.ext (show s.sp.val = 16 by omega)
    exact .inr ⟨push_full r h16, h16⟩

theorem pop_cases (s : State) :
    (∃ h : 0 < s.sp.val,
        pop s = .ok (s.stack[s.sp.val - 1]'(by omega), { s with sp := ⟨s.sp.val - 1, by omega⟩ })) ∨
      (pop s = .error .stackUnderflow ∧ s.sp = 0) := by
  by_cases h : 0 < s.sp.val
  · exact .inl ⟨h, pop_ok h⟩
  · have h0 : s.sp = 0 := Fin.ext (show s.sp.val = 0 by omega)
    exact .inr ⟨pop_empty h0, h0⟩

end Sys2Proof.Machine
end

