-- ==== Sys2Proof/Laws/Events.lean ====
section
/-! SUPPORT. What the actions of the host and of the timer driver leave, one lemma for each (spec/10_state.md rules R27
to R34, spec/60_exceptions.md rule R170). -/

namespace Sys2Proof.Machine

theorem mergeKeys_get (ks : Vector (Option Bool) 16) (keys : Vector Bool 16) (k : Fin 16) :
    (mergeKeys ks keys)[k] = (ks[k]).getD keys[k] := by
  simp [mergeKeys]

theorem setKeysEvent_eq (ks : Vector (Option Bool) 16) (s : State) :
    setKeysEvent ks s = { s with keys := mergeKeys ks s.keys, reply := .nothing } := rfl

theorem tickEvent_eq (s : State) :
    tickEvent s = { s with dt := countDown s.dt, st := countDown s.st, reply := .nothing } := rfl

/-- Loading bytes changes memory and nothing else, and keeps its canonical form inside the image. -/
theorem pokeBytes_frame (bs : List Byte) (s : State) (k : Nat) :
    ∃ m, pokeBytes s k bs = { s with mem := m } ∧
      (k + bs.length ≤ 4096 → Memory.wf s.cfg s.mem = true → Memory.wf s.cfg m = true) := by
  induction bs generalizing s k with
  | nil => exact ⟨s.mem, rfl, fun _ h => h⟩
  | cons b rest ih =>
    obtain ⟨m, hm, hw⟩ := ih (s.poke k b) (k + 1)
    refine ⟨m, by rw [pokeBytes, hm]; rfl, fun hl hs => hw ?_ (State.poke_wf hs b ?_)⟩
    · simp at hl; omega
    · simp at hl; omega

/-- Loading bytes leaves the other addresses alone. -/
theorem pokeBytes_other (bs : List Byte) (s : State) (k : Nat) {q : Nat} (hq : q < k ∨ k + bs.length ≤ q) :
    (pokeBytes s k bs).peek q = s.peek q := by
  induction bs generalizing s k with
  | nil => rfl
  | cons b rest ih =>
    rw [pokeBytes, ih _ _ (by simp at hq; omega), State.peek_poke_ne s b (by simp at hq; omega)]

/-- Loading bytes inside the image stores each at its address. -/
theorem pokeBytes_stores (bs : List Byte) (s : State) (k : Nat) (hs : Memory.wf s.cfg s.mem = true)
    (hk : k + bs.length ≤ 4096) (j : Nat) (hj : j < bs.length) : (pokeBytes s k bs).peek (k + j) = bs[j] := by
  induction bs generalizing s k j with
  | nil => exact absurd hj (Nat.not_lt_zero j)
  | cons b rest ih =>
    rw [pokeBytes]
    cases j with
    | zero =>
      rw [pokeBytes_other rest _ _ (by omega), State.peek_poke hs]
      simp
    | succ j =>
      have hk' : k + 1 + rest.length ≤ 4096 := by simp at hk; omega
      have := ih (s.poke k b) (k + 1) (State.poke_wf hs b (by omega)) hk' j (by simpa using hj)
      rw [show k + (j + 1) = k + 1 + j by omega]
      simpa using this

/-- A word placed where its two bytes can be fetched is the word fetched (R46). -/
theorem fetch_placed {s : State} (w : Word) (hs : Memory.wf s.cfg s.mem = true)
    (h : s.cfg.addrPolicy = .wrap ∨ s.pc.toNat < 0x0FFF) :
    fetch (pokeBytes (pokeBytes s (s.pc.toNat % 4096) [w.extractLsb' 8 8]) ((s.pc + 1).toNat % 4096)
      [w.extractLsb' 0 8]) = .ok w := by
  have h1 : (1 : Word).toNat = 1 := rfl
  have hne : (s.pc + 1).toNat % 4096 ≠ s.pc.toNat % 4096 := by rw [BitVec.toNat_add]; omega
  simp only [pokeBytes]
  rw [fetch_inside (by exact h)]
  congr 1
  simp only [State.poke_pc]
  rw [State.peek_poke_ne _ _ hne, State.peek_poke hs, State.peek_poke (State.poke_wf hs _ (Nat.mod_lt _ (by decide)))]
  simp only [if_true, wordOfBytes]
  apply BitVec.eq_of_toNat_eq
  have := w.isLt
  rw [append_toNat]
  simp only [BitVec.extractLsb'_toNat, Nat.shiftRight_eq_div_pow]
  omega

/-- The next cycle after withFetchWord fetches the word (R46). -/
theorem fetch_withFetchWord {s : State} (nbits w : Nat) (hs : Memory.wf s.cfg s.mem = true) :
    fetch (s.withFetchWord nbits w) = .ok (BitVec.ofNat 16 (w % 2 ^ nbits)) := by
  unfold State.withFetchWord
  refine fetch_placed _ hs ?_
  cases hf : fetch s with
  | error e => exact .inr (show (0x0200 : Word).toNat < 0x0FFF by decide)
  | ok v => exact fetch_ok hf

end Sys2Proof.Machine
end

