-- ==== Sys2Proof/Laws/PerInstr.lean ====
section
/-! SUPPORT. Statements about every instruction as syntax, one lemma for each constructor (LAWS.json,
"per_instruction"). The family EncodingRow: the word of an instruction has the fixed bits of its row of the opcode
table (spec/30_encoding.md rule R64). -/

namespace Sys2Proof.Laws.EncodingRow

/-- The row's mask and match select the instruction's word. -/
def Statement (i : Instr) : Prop := i.row.selects (encode i) = true

/-- The masks of formats `NNN` and `XKK`, `XYN`: the fixed bits are `op` (R62). -/
theorem selects_op (w : Word) (op : Nibble) (h : opField w = op) :
    (OpcodeRow.mk 0xF000#16 (packNNN op 0#12)).selects w = true := by
  simp [OpcodeRow.selects, mask_op, h]

/-- The mask of format `XY_`: the fixed bits are `op` and `n` (R62). -/
theorem selects_op_n (w : Word) (op n : Nibble) (h : opField w = op) (h' : nField w = n) :
    (OpcodeRow.mk 0xF00F#16 (packXYN op 0 0 n)).selects w = true := by
  simp [OpcodeRow.selects, mask_op_n, h, h']

/-- The mask of format `X__`: the fixed bits are `op` and `kk` (R62). -/
theorem selects_op_kk (w : Word) (op : Nibble) (kk : Byte) (h : opField w = op) (h' : kkField w = kk) :
    (OpcodeRow.mk 0xF0FF#16 (packXKK op 0 kk)).selects w = true := by
  simp [OpcodeRow.selects, mask_op_kk, h, h']

theorem cls : Statement .cls := rfl
theorem ret : Statement .ret := rfl
theorem jp (nnn : Addr12) : Statement (.jp nnn) := selects_op _ 0x1#4 (by simp [encode])
theorem call (nnn : Addr12) : Statement (.call nnn) := selects_op _ 0x2#4 (by simp [encode])
theorem seByte (x : RegIdx) (kk : Byte) : Statement (.seByte x kk) := selects_op _ 0x3#4 (by simp [encode])
theorem sneByte (x : RegIdx) (kk : Byte) : Statement (.sneByte x kk) := selects_op _ 0x4#4 (by simp [encode])
theorem seReg (x y : RegIdx) : Statement (.seReg x y) :=
  selects_op_n _ 0x5#4 0x0#4 (by simp [encode]) (by simp [encode])
theorem sneReg (x y : RegIdx) : Statement (.sneReg x y) :=
  selects_op_n _ 0x9#4 0x0#4 (by simp [encode]) (by simp [encode])
theorem ldByte (x : RegIdx) (kk : Byte) : Statement (.ldByte x kk) := selects_op _ 0x6#4 (by simp [encode])
theorem addByte (x : RegIdx) (kk : Byte) : Statement (.addByte x kk) := selects_op _ 0x7#4 (by simp [encode])
theorem ldReg (x y : RegIdx) : Statement (.ldReg x y) :=
  selects_op_n _ 0x8#4 0x0#4 (by simp [encode]) (by simp [encode])
theorem orReg (x y : RegIdx) : Statement (.orReg x y) :=
  selects_op_n _ 0x8#4 0x1#4 (by simp [encode]) (by simp [encode])
theorem andReg (x y : RegIdx) : Statement (.andReg x y) :=
  selects_op_n _ 0x8#4 0x2#4 (by simp [encode]) (by simp [encode])
theorem xorReg (x y : RegIdx) : Statement (.xorReg x y) :=
  selects_op_n _ 0x8#4 0x3#4 (by simp [encode]) (by simp [encode])
theorem addReg (x y : RegIdx) : Statement (.addReg x y) :=
  selects_op_n _ 0x8#4 0x4#4 (by simp [encode]) (by simp [encode])
theorem subReg (x y : RegIdx) : Statement (.subReg x y) :=
  selects_op_n _ 0x8#4 0x5#4 (by simp [encode]) (by simp [encode])
theorem shr (x y : RegIdx) : Statement (.shr x y) :=
  selects_op_n _ 0x8#4 0x6#4 (by simp [encode]) (by simp [encode])
theorem subnReg (x y : RegIdx) : Statement (.subnReg x y) :=
  selects_op_n _ 0x8#4 0x7#4 (by simp [encode]) (by simp [encode])
theorem shl (x y : RegIdx) : Statement (.shl x y) :=
  selects_op_n _ 0x8#4 0xE#4 (by simp [encode]) (by simp [encode])
theorem ldI (nnn : Addr12) : Statement (.ldI nnn) := selects_op _ 0xA#4 (by simp [encode])
theorem jpV0 (nnn : Addr12) : Statement (.jpV0 nnn) := selects_op _ 0xB#4 (by simp [encode])
theorem rnd (x : RegIdx) (kk : Byte) : Statement (.rnd x kk) := selects_op _ 0xC#4 (by simp [encode])
theorem drw (x y : RegIdx) (n : Nibble) : Statement (.drw x y n) := selects_op _ 0xD#4 (by simp [encode])
theorem skp (x : RegIdx) : Statement (.skp x) :=
  selects_op_kk _ 0xE#4 0x9E#8 (by simp [encode]) (by simp [encode])
theorem sknp (x : RegIdx) : Statement (.sknp x) :=
  selects_op_kk _ 0xE#4 0xA1#8 (by simp [encode]) (by simp [encode])
theorem ldVxDt (x : RegIdx) : Statement (.ldVxDt x) :=
  selects_op_kk _ 0xF#4 0x07#8 (by simp [encode]) (by simp [encode])
theorem ldVxK (x : RegIdx) : Statement (.ldVxK x) :=
  selects_op_kk _ 0xF#4 0x0A#8 (by simp [encode]) (by simp [encode])
theorem ldDtVx (x : RegIdx) : Statement (.ldDtVx x) :=
  selects_op_kk _ 0xF#4 0x15#8 (by simp [encode]) (by simp [encode])
theorem ldStVx (x : RegIdx) : Statement (.ldStVx x) :=
  selects_op_kk _ 0xF#4 0x18#8 (by simp [encode]) (by simp [encode])
theorem addI (x : RegIdx) : Statement (.addI x) :=
  selects_op_kk _ 0xF#4 0x1E#8 (by simp [encode]) (by simp [encode])
theorem ldF (x : RegIdx) : Statement (.ldF x) :=
  selects_op_kk _ 0xF#4 0x29#8 (by simp [encode]) (by simp [encode])
theorem ldB (x : RegIdx) : Statement (.ldB x) :=
  selects_op_kk _ 0xF#4 0x33#8 (by simp [encode]) (by simp [encode])
theorem storeRegs (x : RegIdx) : Statement (.storeRegs x) :=
  selects_op_kk _ 0xF#4 0x55#8 (by simp [encode]) (by simp [encode])
theorem loadRegs (x : RegIdx) : Statement (.loadRegs x) :=
  selects_op_kk _ 0xF#4 0x65#8 (by simp [encode]) (by simp [encode])
theorem sys (nnn : Addr12) : Statement (.sys nnn) := selects_op _ 0x0#4 (by simp [encode])

end Sys2Proof.Laws.EncodingRow
end

