-- ==== Sys2Proof/Laws/Run.lean ====
section
/-! SUPPORT. A run of several steps, one step at a time; and what one step of each agent is (spec/10_state.md rules R25,
R35). -/

namespace Sys2Proof.Machine

theorem run_zero (s : State) : Host.Core.run Sys2Proof.core 0 s = .next s := rfl

/-- A run whose first step is known. -/
theorem run_next {s t : State} (n : Nat) (h : step s = .next t) :
    Host.Core.run Sys2Proof.core (n + 1) s = Host.Core.run Sys2Proof.core n t := by
  have h' : Sys2Proof.core.step s = .next t := h
  simp only [Host.Core.run, h']

/-- A run that ends in a next state has a next state after its first step. -/
theorem run_cases {s t : State} (n : Nat) (h : Host.Core.run Sys2Proof.core (n + 1) s = .next t) :
    ∃ u, step s = .next u ∧ Host.Core.run Sys2Proof.core n u = .next t := by
  simp only [Host.Core.run] at h
  cases hs : Sys2Proof.core.step s with
  | next u => rw [hs] at h; exact ⟨u, hs, h⟩
  | fault r => rw [hs] at h; cases h
  | refused r => rw [hs] at h; cases h

/-- A relation that every step keeps holds between the ends of a run. -/
theorem run_keeps {R : State → State → Prop} (hrefl : ∀ s, R s s) (htrans : ∀ s t u, R s t → R t u → R s u)
    (hstep : ∀ s t, step s = .next t → R s t) :
    ∀ (n : Nat) (s t : State), Host.Core.run Sys2Proof.core n s = .next t → R s t := by
  intro n
  induction n with
  | zero => intro s t h; rw [run_zero] at h; cases h; exact hrefl s
  | succ n ih =>
    intro s t h
    obtain ⟨u, hu, hr⟩ := run_cases n h
    exact htrans s u t (hstep s u hu) (ih u t hr)

end Sys2Proof.Machine
end

