-- ==== Sys2Proof/Tests/Slice0.lean ====
section
/-! SUPPORT. Tests on small states, with expected values from spec/95_test_vectors.md (the vector's id stands beside
each), decode tests on words written out from spec/30_encoding.md rule R64, and for every statement with hypotheses a
state that meets them. -/

namespace Sys2Proof.Tests

open Sys2Proof.Machine Sys2Proof.Safety

/-! ### Helpers -/

/-- Whether the outcome is a next state with the property. -/
def nextSat (o : Host.Outcome State Fault Refusal) (p : State → Bool) : Bool :=
  match o with
  | .next t => p t
  | .fault _ => false
  | .refused _ => false

/-- The reset state with some registers set. -/
def regs (vs : List (RegIdx × Byte)) : State := vs.foldl (fun s p => s.setV p.1 p.2) State.reset

/-- One cycle on the word `w` placed at `PC`. -/
def after (s : State) (w : Nat) (p : State → Bool) : Bool := nextSat (step (s.withFetchWord 16 w)) p

/-- `mem[a], mem[a+1], ...` -/
def bytesAt (s : State) (a n : Nat) : List Byte := (List.range n).map fun k => s.peek (a + k)

/-- The lit cells of row `r`. -/
def litInRow (s : State) (r : Nat) : List Nat := (List.range 64).filter fun c => cell s.fb r c

def wrapping (s : State) : State := { s with cfg := { s.cfg with addrPolicy := .wrap } }

def permissive (s : State) : State := { s with cfg := { s.cfg with unknownOpcodePolicy := .permissive } }

def plainLogic (s : State) : State := { s with cfg := { s.cfg with logicVfReset := false } }

/-- The stack holding the entries `10, 11, ...` up to depth `n`. -/
def depth (n : Fin 17) : State := { State.reset with sp := n, stack := Vector.ofFn fun k => BitVec.ofNat 16 (10 + k.val) }

/-- The reset state with the keys of the list pressed. -/
def pressing (ks : List (Fin 16)) : State := { State.reset with keys := Vector.ofFn fun k => ks.contains k }

/-- A state whose next action is `e`. -/
def upNext (e : Event) : State := { State.reset with events := [e] }

/-- A halted state: a RET with an empty stack (P8). -/
def haltedState : State := State.reset.halted 0x00EE .stackUnderflow

/-! ### WellFormed: each check refuses an ill-formed term -/

theorem test_sys_of_cls_is_ill_formed : (Instr.sys 0x0E0).wellFormed = false := by decide

theorem test_sys_of_ret_is_ill_formed : (Instr.sys 0x0EE).wellFormed = false := by decide

theorem test_other_sys_are_well_formed :
    (Instr.sys 0x000).wellFormed = true ∧ (Instr.sys 0x1E0).wellFormed = true ∧
      (Instr.sys 0xFEE).wellFormed = true := by decide

/-! ### Decode: every constructor from a word written out from R64 -/

theorem test_decode_family_0 :
    decodeTableWord 16 0b0000000011100000 = some .cls ∧
    decodeTableWord 16 0b0000000011101110 = some .ret ∧
    decodeTableWord 16 0b0000000111100000 = some (.sys 0x1E0) ∧
    decodeTableWord 16 0b0000111111101110 = some (.sys 0xFEE) := by decide

theorem test_decode_jumps :
    decodeTableWord 16 0b0001101010111100 = some (.jp 0xABC) ∧
    decodeTableWord 16 0b0010001100000001 = some (.call 0x301) ∧
    decodeTableWord 16 0b1011111111111111 = some (.jpV0 0xFFF) := by decide

theorem test_decode_skips :
    decodeTableWord 16 0b0011001100101010 = some (.seByte 3 0x2A) ∧
    decodeTableWord 16 0b0100001100101011 = some (.sneByte 3 0x2B) ∧
    decodeTableWord 16 0b0101000100100000 = some (.seReg 1 2) ∧
    decodeTableWord 16 0b1001000100100000 = some (.sneReg 1 2) ∧
    decodeTableWord 16 0b1110010110011110 = some (.skp 5) ∧
    decodeTableWord 16 0b1110000010100001 = some (.sknp 0) := by decide

theorem test_decode_immediates :
    decodeTableWord 16 0b0110101000101111 = some (.ldByte 10 0x2F) ∧
    decodeTableWord 16 0b0111111100000010 = some (.addByte 15 0x02) ∧
    decodeTableWord 16 0b1100000011111111 = some (.rnd 0 0xFF) := by decide

theorem test_decode_family_8 :
    decodeTableWord 16 0b1000000100100000 = some (.ldReg 1 2) ∧
    decodeTableWord 16 0b1000000100100001 = some (.orReg 1 2) ∧
    decodeTableWord 16 0b1000000100100010 = some (.andReg 1 2) ∧
    decodeTableWord 16 0b1000000100100011 = some (.xorReg 1 2) ∧
    decodeTableWord 16 0b1000101010110100 = some (.addReg 10 11) ∧
    decodeTableWord 16 0b1000000100100101 = some (.subReg 1 2) ∧
    decodeTableWord 16 0b1000001101000110 = some (.shr 3 4) ∧
    decodeTableWord 16 0b1000000100100111 = some (.subnReg 1 2) ∧
    decodeTableWord 16 0b1000000100101110 = some (.shl 1 2) := by decide

theorem test_decode_index_and_display :
    decodeTableWord 16 0b1010001011110000 = some (.ldI 0x2F0) ∧
    decodeTableWord 16 0b1101000100101111 = some (.drw 1 2 15) := by decide

theorem test_decode_family_f :
    decodeTableWord 16 0b1111001100000111 = some (.ldVxDt 3) ∧
    decodeTableWord 16 0b1111010000001010 = some (.ldVxK 4) ∧
    decodeTableWord 16 0b1111001000010101 = some (.ldDtVx 2) ∧
    decodeTableWord 16 0b1111001000011000 = some (.ldStVx 2) ∧
    decodeTableWord 16 0b1111001000011110 = some (.addI 2) ∧
    decodeTableWord 16 0b1111010000101001 = some (.ldF 4) ∧
    decodeTableWord 16 0b1111000000110011 = some (.ldB 0) ∧
    decodeTableWord 16 0b1111000101010101 = some (.storeRegs 1) ∧
    decodeTableWord 16 0b1111111101100101 = some (.loadRegs 15) := by decide

/-- T30-9 to T30-12, T30-14, T30-16, T30-17, T30-19. -/
theorem test_unrecognised_words :
    ([0x5121, 0x912F, 0x8128, 0x812F, 0xE19F, 0xF000, 0xFFFF, 0xFE75] : List Nat).all
      (fun w => (decodeTableWord 16 w).isNone) = true := by decide

theorem test_incomplete_word :
    decodeBytes [] = .error .incompleteWord ∧ decodeBytes [0xD0] = .error .incompleteWord := by decide

/-- A word is two bytes, the high byte first, and the rest stays (R46). -/
theorem test_decode_leaves_the_rest : decodeBytes [0x6A, 0x2F, 0x12] = .ok (.ldByte 10 0x2F, [0x12]) := by decide

/-- Rows 1 to 34 are pairwise disjoint (R64): two rows ask for different values of a bit that both fix. -/
theorem test_rows_are_disjoint :
    opcodeRows34.Pairwise fun r r' => (r.pattern ^^^ r'.pattern) &&& (r.mask &&& r'.mask) ≠ 0 := by decide

/-! ### Control transfer -/

/-- T40-2. -/
theorem test_sys : after State.reset 0x0FFF (fun t => decide (t.pc = 0x0202)) = true := by decide

/-- T40-3. -/
theorem test_jp : after State.reset 0x1ABC (fun t => decide (t.pc = 0x0ABC)) = true := by decide

/-- T40-8. -/
theorem test_call_to_the_last_slot :
    after { depth 15 with pc := 0x0400 } 0x2ABC
      (fun t => decide (t.stack[15] = 0x0402 ∧ t.sp = 16 ∧ t.pc = 0x0ABC)) = true := by decide

/-- T40-9. -/
theorem test_call_on_a_full_stack :
    after (depth 16) 0x2ABC (fun t => decide (t.halt = true ∧ t.errCause = 1 ∧ t.errOpcode = 0x2ABC ∧ t.pc = 0x0200 ∧
      t.errPc = 0x0200 ∧ t.sp = 16 ∧ t.stack[15] = 25 ∧ t.reply = .cycleDone ⟨false, 0x2ABC, 1, 0⟩)) = true := by decide

/-- T40-12: the slot keeps its value. -/
theorem test_ret_from_a_full_stack :
    after (depth 16) 0x00EE (fun t => decide (t.sp = 15 ∧ t.pc = 25 ∧ t.stack[15] = 25)) = true := by decide

/-- T40-13. -/
theorem test_ret_on_an_empty_stack :
    after State.reset 0x00EE (fun t => decide (t.halt = true ∧ t.errCause = 2 ∧ t.pc = 0x0200 ∧ t.sp = 0 ∧
      t.reply = .cycleDone ⟨false, 0x00EE, 2, 0⟩)) = true := by decide

/-- T40-16, T40-15: the sum is 16 bits, and register B plays no part. -/
theorem test_jpV0 :
    after (regs [(0, 0xFF), (15, 0x55)]) 0xBFFF (fun t => decide (t.pc = 0x10FE)) = true := by decide

/-! ### Skips -/

/-- T41-1, T41-2. -/
theorem test_seByte :
    after (regs [(3, 0x2A)]) 0x332A (fun t => decide (t.pc = 0x0204)) = true ∧
    after (regs [(3, 0x2A)]) 0x332B (fun t => decide (t.pc = 0x0202)) = true := by decide

/-- T41-4, T41-5. -/
theorem test_sneByte :
    after (regs [(3, 0x2A)]) 0x432A (fun t => decide (t.pc = 0x0202)) = true ∧
    after (regs [(3, 0x2A)]) 0x432B (fun t => decide (t.pc = 0x0204)) = true := by decide

/-- T41-6, T41-7. -/
theorem test_seReg :
    after (regs [(1, 7), (2, 7)]) 0x5120 (fun t => decide (t.pc = 0x0204)) = true ∧
    after (regs [(1, 7), (2, 8)]) 0x5120 (fun t => decide (t.pc = 0x0202)) = true := by decide

/-- T41-9, T41-10. -/
theorem test_sneReg :
    after (regs [(1, 7), (2, 8)]) 0x9120 (fun t => decide (t.pc = 0x0204)) = true ∧
    after (regs [(1, 7), (2, 7)]) 0x9120 (fun t => decide (t.pc = 0x0202)) = true := by decide

/-- T41-13, T41-18: the key named by V5, and key 15. -/
theorem test_skp :
    after ((pressing [11]).setV 5 0x0A) 0xE59E (fun t => decide (t.pc = 0x0202)) = true ∧
    after ((pressing [15]).setV 3 0x0F) 0xE39E (fun t => decide (t.pc = 0x0204)) = true := by decide

/-- T41-14, T41-15. -/
theorem test_sknp :
    after (regs [(5, 0x0A)]) 0xE5A1 (fun t => decide (t.pc = 0x0204)) = true ∧
    after ((pressing [10]).setV 5 0x0A) 0xE5A1 (fun t => decide (t.pc = 0x0202)) = true := by decide

/-- T41-16, T41-17. -/
theorem test_key_number_above_15 :
    after (regs [(3, 0x10)]) 0xE39E (fun t => decide (t.errCause = 5 ∧ t.pc = 0x0200 ∧
      t.reply = .cycleDone ⟨false, 0xE39E, 5, 0x0010⟩)) = true ∧
    after (regs [(3, 0xFF)]) 0xE3A1 (fun t => decide (t.halt = true ∧
      t.reply = .cycleDone ⟨false, 0xE3A1, 5, 0x00FF⟩)) = true := by decide

/-! ### Registers and arithmetic -/

/-- T42-2: VF as an ordinary register. -/
theorem test_ldByte : after (regs [(15, 0x55)]) 0x6F07 (fun t => decide (t.readV 15 = 0x07)) = true := by decide

/-- T42-3: no carry is recorded. -/
theorem test_addByte :
    after (regs [(0, 0xF0), (15, 0x55)]) 0x7020 (fun t => decide (t.readV 0 = 0x10 ∧ t.readV 15 = 0x55)) = true := by
  decide

/-- T42-8. -/
theorem test_ldReg :
    after (regs [(2, 0x33), (15, 0x55)]) 0x8120 (fun t => decide (t.readV 1 = 0x33 ∧ t.readV 15 = 0x55)) = true := by
  decide

/-- T42-13, T42-14. -/
theorem test_orReg :
    after (regs [(15, 0x0C), (1, 0x05)]) 0x8F11 (fun t => decide (t.readV 15 = 0x00)) = true ∧
    after (plainLogic (regs [(15, 0x0C), (1, 0x05)])) 0x8F11 (fun t => decide (t.readV 15 = 0x0D)) = true := by decide

/-- T42-17, T42-18. -/
theorem test_andReg :
    after (regs [(1, 0x0F), (2, 0xF0), (15, 1)]) 0x8122
      (fun t => decide (t.readV 1 = 0x00 ∧ t.readV 15 = 0x00)) = true ∧
    after (plainLogic (regs [(1, 0x3C), (2, 0x0F), (15, 1)])) 0x8122
      (fun t => decide (t.readV 1 = 0x0C ∧ t.readV 15 = 0x01)) = true := by decide

/-- T42-21, T42-22. -/
theorem test_xorReg :
    after (regs [(1, 0x0F), (2, 0xF0), (15, 1)]) 0x8123
      (fun t => decide (t.readV 1 = 0xFF ∧ t.readV 15 = 0x00)) = true ∧
    after (plainLogic (regs [(1, 0x3C), (2, 0x0F), (15, 1)])) 0x8123
      (fun t => decide (t.readV 1 = 0x33 ∧ t.readV 15 = 0x01)) = true := by decide

/-- S2b, T42-30: the carry, and the carry that wins over the sum. -/
theorem test_addReg :
    after (regs [(1, 0xFF), (2, 0x01), (15, 0x55)]) 0x8124
      (fun t => decide (t.readV 1 = 0x00 ∧ t.readV 15 = 0x01)) = true ∧
    after (regs [(15, 0xF0), (1, 0x20)]) 0x8F14 (fun t => decide (t.readV 15 = 0x01)) = true := by decide

/-- S3a, S3d. -/
theorem test_subReg :
    after (regs [(1, 0x33), (2, 0x33)]) 0x8125 (fun t => decide (t.readV 1 = 0x00 ∧ t.readV 15 = 0x01)) = true ∧
    after (regs [(1, 0x10), (2, 0x20)]) 0x8125 (fun t => decide (t.readV 1 = 0xF0 ∧ t.readV 15 = 0x00)) = true := by
  decide

/-- T42-49, T42-54: V4 is neither read nor written; the flag wins. -/
theorem test_shr :
    after (regs [(3, 0x05), (4, 0xAA), (15, 0x55)]) 0x8346
      (fun t => decide (t.readV 3 = 0x02 ∧ t.readV 4 = 0xAA ∧ t.readV 15 = 0x01)) = true ∧
    after (regs [(15, 0x02)]) 0x8F46 (fun t => decide (t.readV 15 = 0x00)) = true := by decide

/-- S3e, S3f. -/
theorem test_subnReg :
    after (regs [(1, 0x10), (2, 0x20)]) 0x8127 (fun t => decide (t.readV 1 = 0x10 ∧ t.readV 15 = 0x01)) = true ∧
    after (regs [(1, 0x20), (2, 0x10)]) 0x8127 (fun t => decide (t.readV 1 = 0xF0 ∧ t.readV 15 = 0x00)) = true := by
  decide

/-- T42-58, T42-60. -/
theorem test_shl :
    after (regs [(3, 0xC1), (4, 0xAA), (15, 0x55)]) 0x834E
      (fun t => decide (t.readV 3 = 0x82 ∧ t.readV 4 = 0xAA ∧ t.readV 15 = 0x01)) = true ∧
    after (regs [(15, 0x81)]) 0x8F4E (fun t => decide (t.readV 15 = 0x01)) = true := by decide

/-- T42-62: with an empty mask the register is 0 whatever the byte is; T42-63: with a full mask it is the byte. -/
theorem test_rnd (s : State) :
    (∃ t, exec (.rnd 3 0x00) s = .next t ∧ t.readV 3 = 0x00) ∧
      ∃ t, exec (.rnd 3 0xFF) s = .next t ∧ t.readV 3 = Config.rnd s.draws := by
  refine ⟨⟨_, rfl, ?_⟩, ⟨_, rfl, ?_⟩⟩
  · simp [drawRandom]
  · simpa [drawRandom] using BitVec.and_allOnes (x := Config.rnd s.draws)

/-! ### The index register and memory -/

/-- T43-1. -/
theorem test_ldI : after State.reset 0xA2F0 (fun t => decide (t.i = 0x02F0 ∧ t.pc = 0x0202)) = true := by decide

/-- T43-4, T43-5. -/
theorem test_addI :
    after ((regs [(1, 0x01), (15, 0x07)]).setI 0x0FFF) 0xF11E
      (fun t => decide (t.i = 0x1000 ∧ t.readV 15 = 0x07 ∧ t.halt = false)) = true ∧
    after ((regs [(1, 0x02)]).setI 0xFFFF) 0xF11E (fun t => decide (t.i = 0x0001)) = true := by decide

/-- T43-6, T43-10. -/
theorem test_ldF :
    after (regs [(4, 0x0A)]) 0xF429 (fun t => decide (t.i = 0x0082)) = true ∧
    after (regs [(7, 0xFF)]) 0xF729 (fun t => decide (t.i = 0x054B)) = true := by decide

/-- T43-16, T43-18. -/
theorem test_ldB :
    after ((regs [(0, 0x7B)]).setI 0x0FFD) 0xF033
      (fun t => decide (bytesAt t 0xFFD 3 = [1, 2, 3] ∧ t.i = 0x0FFD)) = true ∧
    after (wrapping ((regs [(0, 0x7B)]).setI 0x0FFE)) 0xF033
      (fun t => decide (bytesAt t 0xFFE 2 = [1, 2] ∧ t.peek 0 = 3 ∧ t.i = 0x0FFE)) = true := by decide

/-- T43-17. -/
theorem test_ldB_over_the_end :
    after ((regs [(0, 0x7B)]).setI 0x0FFE) 0xF033 (fun t => decide (t.halt = true ∧ t.errCause = 4 ∧
      bytesAt t 0xFFE 2 = [0, 0] ∧ t.pc = 0x0200 ∧ t.reply = .cycleDone ⟨false, 0xF033, 4, 0x1000⟩)) = true := by decide

/-- T43-20, T43-24. -/
theorem test_storeRegs :
    after ((regs [(0, 0x11), (1, 0x22)]).setI 0x0400) 0xF155
      (fun t => decide (bytesAt t 0x400 3 = [0x11, 0x22, 0x00] ∧ t.i = 0x0402)) = true ∧
    after ((regs [(0, 0x01), (1, 0x02)]).setI 0x0FFF) 0xF155 (fun t => decide (t.peek 0xFFF = 0x00 ∧ t.i = 0x0FFF ∧
      t.reply = .cycleDone ⟨false, 0xF155, 4, 0x1000⟩)) = true := by decide

/-- T43-30 (the font), T43-29. -/
theorem test_loadRegs :
    after ((regs [(3, 0x77)]).setI 0x0050) 0xF265 (fun t => decide (t.readV 0 = 0xF0 ∧ t.readV 1 = 0x90 ∧
      t.readV 2 = 0x90 ∧ t.readV 3 = 0x77 ∧ t.i = 0x0053)) = true ∧
    after ((regs [(0, 0x01), (1, 0x02)]).setI 0x0FFF) 0xF165 (fun t => decide (t.readV 0 = 0x01 ∧ t.readV 1 = 0x02 ∧
      t.i = 0x0FFF ∧ t.reply = .cycleDone ⟨false, 0xF165, 4, 0x1000⟩)) = true := by decide

/-! ### The display -/

/-- T44-1. -/
theorem test_cls :
    after { State.reset with fb := flipCell (flipCell blankScreen 3 4) 31 63 } 0x00E0
      (fun t => decide (t.fb = blankScreen ∧ t.drawFlag = true ∧ t.reply = .cycleDone ⟨true, 0x00E0, 0, 0⟩)) = true := by
  decide

/-- T44-6, with the bytes 80 01: column from V0, row from V1, the first byte the top row. -/
theorem test_drw :
    after (pokeBytes ((regs [(0, 0x0A), (1, 0x05)]).setI 0x0300) 0x300 [0x80, 0x01]) 0xD012
      (fun t => decide (litInRow t 5 = [10] ∧ litInRow t 6 = [17] ∧ t.readV 15 = 0 ∧ t.drawFlag = true)) = true := by
  decide

/-- T44-23: a collision on the last column, and clipping behind it. -/
theorem test_drw_clips_and_collides :
    after (pokeBytes { (regs [(0, 0x3C)]).setI 0x0300 with fb := flipCell blankScreen 0 63 } 0x300 [0xFF]) 0xD011
      (fun t => decide (litInRow t 0 = [60, 61, 62] ∧ t.readV 15 = 1)) = true := by decide

/-! ### Timers and the key wait -/

/-- T45-1. -/
theorem test_ldVxDt : after (State.reset.setDt 0x2C) 0xF307 (fun t => decide (t.readV 3 = 0x2C ∧ t.dt = 0x2C)) = true := by
  decide

/-- T45-2. -/
theorem test_ldDtVx : after (regs [(2, 0x3C)]) 0xF215 (fun t => decide (t.dt = 0x3C ∧ t.st = 0)) = true := by decide

/-- T45-4. -/
theorem test_ldStVx : after (regs [(2, 0x05)]) 0xF218 (fun t => decide (t.st = 0x05 ∧ t.dt = 0)) = true := by decide

/-- T45-14, T45-12. -/
theorem test_ldVxK :
    after (pressing [12, 9, 7]) 0xF40A (fun t => decide (t.readV 4 = 0x07 ∧ t.pc = 0x0202)) = true ∧
    after (regs [(4, 0xAB)]) 0xF40A (fun t => decide (t.readV 4 = 0xAB ∧ t.pc = 0x0200 ∧
      t.reply = .cycleDone ⟨false, 0xF40A, 0, 0⟩)) = true := by decide

/-! ### The step and the host's actions -/

/-- T30-24, T30-25. -/
theorem test_unknown_opcode :
    after State.reset 0x5121 (fun t => decide (t.halt = true ∧ t.errCause = 3 ∧ t.errOpcode = 0x5121 ∧ t.pc = 0x0200 ∧
      t.reply = .cycleDone ⟨false, 0x5121, 3, 0x5121⟩)) = true ∧
    after (permissive State.reset) 0x5121 (fun t => decide (t.halt = false ∧ t.errCause = 0 ∧ t.pc = 0x0202 ∧
      t.reply = .cycleDone ⟨false, 0x5121, 3, 0x5121⟩)) = true := by decide

/-- T60-1, T40-5: the fetch at 0x1000, and at 0x0FFF. -/
theorem test_fetch_outside :
    nextSat (step { State.reset with pc := 0x1000 }) (fun t => decide (t.errPc = 0x1000 ∧ t.errOpcode = 0 ∧
      t.reply = .cycleDone ⟨false, 0, 4, 0x1000⟩)) = true ∧
    nextSat (step { State.reset with pc := 0x0FFF }) (fun t => decide (t.errPc = 0x0FFF ∧
      t.reply = .cycleDone ⟨false, 0, 4, 0x1000⟩)) = true := by decide

/-- T60-2, T60-3. -/
theorem test_halted_core :
    nextSat (step haltedState) (fun t => decide (t.halt = true ∧ t.reply = .cycleDone ⟨false, 0x00EE, 2, 0⟩)) = true ∧
    nextSat (step { haltedState.setDt 4 with events := [.tick60] }) (fun t => decide (t.dt = 3 ∧ t.halt = true)) = true := by
  decide

/-- T60-4. -/
theorem test_reset_event :
    nextSat (step { haltedState.setV 3 9 with events := [.reset] })
      (fun t => decide (t = { State.reset with reply := .nothing })) = true := by decide

/-- T70-1: the 80 bytes of the font in the reset state, and the bytes beside them (R42). -/
theorem test_reset_font :
    bytesAt State.reset 0x050 80 = [0xF0, 0x90, 0x90, 0x90, 0xF0, 0x20, 0x60, 0x20, 0x20, 0x70, 0xF0, 0x10, 0xF0, 0x80, 0xF0, 0xF0, 0x10, 0xF0, 0x10, 0xF0] ++
      [0x90, 0x90, 0xF0, 0x10, 0x10, 0xF0, 0x80, 0xF0, 0x10, 0xF0, 0xF0, 0x80, 0xF0, 0x90, 0xF0, 0xF0, 0x10, 0x20, 0x40, 0x40] ++
      [0xF0, 0x90, 0xF0, 0x90, 0xF0, 0xF0, 0x90, 0xF0, 0x10, 0xF0, 0xF0, 0x90, 0xF0, 0x90, 0x90, 0xE0, 0x90, 0xE0, 0x90, 0xE0] ++
      [0xF0, 0x80, 0x80, 0x80, 0xF0, 0xE0, 0x90, 0x90, 0x90, 0xE0, 0xF0, 0x80, 0xF0, 0x80, 0xF0, 0xF0, 0x80, 0xF0, 0x80, 0x80] ∧
    State.reset.peek 0x04F = 0x00 ∧ State.reset.peek 0x0A0 = 0x00 := by decide

/-- R28: an image at 0x200; a second load is refused (R183). -/
theorem test_load_rom :
    nextSat (step (upNext (.loadRom [0x12, 0x00]))) (fun t => decide (bytesAt t 0x1FF 4 = [0, 0x12, 0, 0] ∧
      t.reply = .romLoaded true ∧ t.loadable = false)) = true ∧
    step { upNext (.loadRom [0x12]) with loadable := false } = .refused .loadRomOutsideBoot := ⟨by decide, rfl⟩

/-- T60-8. -/
theorem test_draw_flag :
    nextSat (step { upNext .readAndClearDrawFlag with drawFlag := true })
      (fun t => decide (t.reply = .flag true ∧ t.drawFlag = false)) = true := by decide

/-- T45-7, T45-8. -/
theorem test_tick :
    nextSat (step { upNext .tick60 with st := 0xFF }) (fun t => decide (t.dt = 0 ∧ t.st = 0xFE)) = true := by decide

/-- R29: the named key changes, another pressed key stays. -/
theorem test_set_keys :
    nextSat (step { pressing [3] with events := [.setKeys (Vector.ofFn fun k => if k = 7 then some true else none)] })
      (fun t => decide (t.keys = (pressing [3, 7]).keys)) = true := by decide

/-- The word that withFetchWord places is what the next step runs, also where ADDR_POLICY would reject `PC`. -/
theorem test_withFetchWord :
    after { haltedState with pc := 0xFFFF, events := [.tick60] } 0x6A2F
      (fun t => decide (t.readV 10 = 0x2F ∧ t.pc = 0x0202)) = true ∧
    after (wrapping { State.reset with pc := 0x0FFF }) 0x6A2F
      (fun t => decide (t.readV 10 = 0x2F ∧ t.pc = 0x1001 ∧ t.peek 0xFFF = 0x6A ∧ t.peek 0 = 0x2F)) = true := by decide

/-! ### Witnesses: states and operands that meet the hypotheses of the statements, at the bounds of their clauses -/

theorem witness_DecodeOfEncodeIsTheInstruction :
    (Instr.sys 0x0E1).wellFormed = true ∧ (Instr.drw 15 0 15).wellFormed = true := by decide

theorem witness_EncodeOfDecodeIsTheWord :
    decodeWord 0x8346 = some (.shr 3 4) ∧ decodeWord 0x0FFF = some (.sys 0xFFF) := by decide

/-- A word that a row selects, one for row 35 alone, one that no row selects. -/
theorem witness_DecoderAgreesWithTheOpcodeTable :
    ((⟨0xF00F, 0x8006⟩ : OpcodeRow) ∈ opcodeRows34 ∧ (⟨0xF00F, 0x8006⟩ : OpcodeRow).selects 0x8346 = true) ∧
    ((∀ r, r ∈ opcodeRows34 → r.selects 0x00E1 = false) ∧ opcodeRow35.selects 0x00E1 = true) ∧
    ((∀ r, r ∈ opcodeRows34 → r.selects 0x5121 = false) ∧ opcodeRow35.selects 0x5121 = false) := by decide

/-- One word for each clause of the list, and a recognised word beside each. -/
theorem witness_UnrecognisedWordsAreTheListedOnes :
    [0x512F, 0x9121, 0x8128, 0x812D, 0x812F, 0xE19F, 0xF166].all (fun w => (decodeWord w).isNone) = true ∧
    [0x5120, 0x9120, 0x8127, 0x812E, 0xE19E, 0xF165].all (fun w => (decodeWord w).isSome) = true := by decide

/-- At the last address from which `reject` can fetch, and at the end of memory under `wrap`. -/
theorem witness_StepRunsTheDecodedInstruction :
    (∃ s : State, ∃ i, s.nextEvent = .cycle ∧ s.halt = false ∧ s.cfg.addrPolicy = .reject ∧ s.pc.toNat = 0x0FFE ∧
      decodeBytes [s.peek (s.pc.toNat % 4096), s.peek ((s.pc + 1).toNat % 4096)] = .ok (i, [])) ∧
    (∃ s : State, ∃ i, s.nextEvent = .cycle ∧ s.halt = false ∧ s.cfg.addrPolicy = .wrap ∧ s.pc = 0xFFFF ∧
      decodeBytes [s.peek (s.pc.toNat % 4096), s.peek ((s.pc + 1).toNat % 4096)] = .ok (i, [])) :=
  ⟨⟨{ State.reset with pc := 0x0FFE }, .sys 0, by decide⟩,
    ⟨pokeBytes (wrapping { State.reset with pc := 0xFFFF }) 0xFFF [0x6A], .ldByte 10 0x00, by decide⟩⟩

/-- With only the second byte outside, and with both. -/
theorem witness_FetchOutsideMemoryHalts :
    (∃ s : State, s.nextEvent = .cycle ∧ s.halt = false ∧ s.cfg.addrPolicy = .reject ∧ s.pc = 0x0FFF) ∧
    (∃ s : State, s.nextEvent = .cycle ∧ s.halt = false ∧ s.cfg.addrPolicy = .reject ∧ s.pc = 0x1000) :=
  ⟨⟨{ State.reset with pc := 0x0FFF }, by decide⟩, ⟨{ State.reset with pc := 0x1000 }, by decide⟩⟩

/-- Under each policy. -/
theorem witness_UnrecognisedWordHaltsOrIsSkipped :
    (∃ s : State, s.nextEvent = .cycle ∧ s.halt = false ∧ s.pc.toNat < 0x0FFF ∧ s.cfg.unknownOpcodePolicy = .strict ∧
      decodeBytes [s.peek (s.pc.toNat % 4096), s.peek ((s.pc + 1).toNat % 4096)] = .error (.unknownOpcode 0x5121)) ∧
    (∃ s : State, s.nextEvent = .cycle ∧ s.halt = false ∧ s.pc.toNat < 0x0FFF ∧
      s.cfg.unknownOpcodePolicy = .permissive ∧
      decodeBytes [s.peek (s.pc.toNat % 4096), s.peek ((s.pc + 1).toNat % 4096)] = .error (.unknownOpcode 0x5121)) :=
  ⟨⟨State.reset.withFetchWord 16 0x5121, by decide⟩, ⟨(permissive State.reset).withFetchWord 16 0x5121, by decide⟩⟩

theorem witness_HaltedCoreExecutesNothing : haltedState.nextEvent = .cycle ∧ haltedState.halt = true := by decide

/-- Both outcomes: a next state, and a load outside its time. -/
theorem witness_OnlyALateLoadIsRefused :
    (∃ t, step State.reset = .next t) ∧
    step { upNext (.loadRom []) with loadable := false } = .refused .loadRomOutsideBoot := ⟨⟨_, rfl⟩, rfl⟩

/-- Both arms of the table: an instruction that raises an error, and the same one completing. -/
theorem witness_InstructionsRaiseExactlyTheTabledErrors :
    errorOf (.storeRegs 1) (State.reset.setI 0x0FFF) = some (.addressOutOfRange 0x1000) ∧
    errorOf (.storeRegs 0) (State.reset.setI 0x0FFF) = none := by decide

theorem witness_StateIsWrittenOnlyByItsInstructions : ∃ t, exec (.storeRegs 15) State.reset = .next t := ⟨_, rfl⟩

/-- The clauses that have hypotheses: both values of LOGIC_VF_RESET, a sprite that is drawn, one that is not. -/
theorem witness_FlagIsWrittenOnlyByItsInstructions :
    (∃ t, State.reset.cfg.logicVfReset = true ∧ exec (.orReg 15 1) State.reset = .next t) ∧
    (∃ t, (plainLogic State.reset).cfg.logicVfReset = false ∧ exec (.orReg 1 15) (plainLogic State.reset) = .next t) ∧
    (∃ t, errorOf (.drw 0 1 2) (State.reset.setI 0x0FFE) = none ∧ exec (.drw 0 1 2) (State.reset.setI 0x0FFE) = .next t) ∧
    (∃ t, errorOf (.drw 0 1 2) (State.reset.setI 0x0FFF) ≠ none ∧ exec (.drw 0 1 2) (State.reset.setI 0x0FFF) = .next t) :=
  ⟨⟨_, rfl, rfl⟩, ⟨_, rfl, rfl⟩, ⟨_, by decide, rfl⟩, ⟨_, by decide, rfl⟩⟩

theorem witness_CallPushesTheNextAddress : (depth 0).sp.val < 16 ∧ (depth 15).sp.val < 16 := by decide

theorem witness_ReturnPopsTheLastAddress : 0 < (depth 1).sp.val ∧ 0 < (depth 16).sp.val := by decide

/-- With 15 entries before the CALL, and the state after it as the state before the RET. -/
theorem witness_CallThenReturnComesBack :
    ∃ s t v : State, s.sp.val = 15 ∧ exec (.call 0x300) s = .next t ∧ t.sp = t.sp ∧
      (∀ k : Fin 16, k.val < t.sp.val → t.stack[k] = t.stack[k]) ∧ exec .ret t = .next v :=
  ⟨depth 15, _, _, rfl, rfl, rfl, fun _ _ => rfl, rfl⟩

theorem witness_StackErrorsAreReported : (depth 16).sp = 16 ∧ (depth 0).sp = 0 := by decide

/-- The last key, and the first. -/
theorem witness_KeyTestsSkipOnTheKey :
    ((regs [(3, 0x0F)]).readV 3).toNat = (15 : Fin 16).val ∧ ((regs []).readV 3).toNat = (0 : Fin 16).val := by decide

theorem witness_KeyNumberAboveFifteenHalts :
    15 < ((regs [(3, 0x10)]).readV 3).toNat ∧ 15 < ((regs [(3, 0xFF)]).readV 3).toNat := by decide

/-- The three instructions, and both values of LOGIC_VF_RESET. -/
theorem witness_LogicComputesBitwiseResults :
    (∃ i r, i = Instr.orReg 15 1 ∧ r = State.reset.readV 15 ||| State.reset.readV 1) ∧
    (∃ i r, i = Instr.andReg 1 15 ∧ r = State.reset.readV 1 &&& State.reset.readV 15) ∧
    (∃ i r, i = Instr.xorReg 6 6 ∧ r = State.reset.readV 6 ^^^ State.reset.readV 6) ∧
    State.reset.cfg.logicVfReset = true ∧ (plainLogic State.reset).cfg.logicVfReset = false :=
  ⟨⟨_, _, rfl, rfl⟩, ⟨_, _, rfl, rfl⟩, ⟨_, _, rfl, rfl⟩, rfl, rfl⟩

/-- Both directions, with equal operands and with a borrow. -/
theorem witness_SubtractionsSetNoBorrow :
    (∃ i a b, i = Instr.subReg 1 2 ∧ a = (regs [(2, 1)]).readV 1 ∧ b = (regs [(2, 1)]).readV 2 ∧ a.toNat < b.toNat) ∧
    (∃ i a b, i = Instr.subnReg 1 1 ∧ a = (regs [(1, 7)]).readV 1 ∧ b = (regs [(1, 7)]).readV 1 ∧ a.toNat = b.toNat) :=
  ⟨⟨_, _, _, rfl, rfl, rfl, by decide⟩, ⟨_, _, _, rfl, rfl, rfl, by decide⟩⟩

/-- The last addresses inside under `reject`, and a block over the end under `wrap`. -/
theorem witness_BcdStoresThreeDigits :
    (MemoryCanonical (State.reset.setI 0x0FFD) ∧ (State.reset.setI 0x0FFD).i.toNat + 2 < 4096) ∧
    (MemoryCanonical (wrapping (State.reset.setI 0xFFFF)) ∧
      (wrapping (State.reset.setI 0xFFFF)).cfg.addrPolicy = .wrap) := ⟨⟨rfl, by decide⟩, rfl, rfl⟩

theorem witness_StoreRegistersWritesTheBlock :
    (MemoryCanonical (State.reset.setI 0x0FF0) ∧ (State.reset.setI 0x0FF0).i.toNat + (15 : RegIdx).val < 4096) ∧
    (MemoryCanonical (State.reset.setI 0x0FFF) ∧ (State.reset.setI 0x0FFF).i.toNat + (0 : RegIdx).val < 4096) ∧
    (MemoryCanonical (wrapping (State.reset.setI 0xFFFF)) ∧
      (wrapping (State.reset.setI 0xFFFF)).cfg.addrPolicy = .wrap) := ⟨⟨rfl, by decide⟩, ⟨rfl, by decide⟩, rfl, rfl⟩

theorem witness_LoadRegistersReadsTheBlock :
    (State.reset.setI 0x0FF0).i.toNat + (15 : RegIdx).val < 4096 ∧
    (State.reset.setI 0x0FFF).i.toNat + (0 : RegIdx).val < 4096 ∧
    (wrapping (State.reset.setI 0xFFFF)).cfg.addrPolicy = .wrap := by decide

/-- The state between has other registers, and the same memory and index as the statement asks. -/
theorem witness_StoreThenLoadRestoresTheRegisters :
    ∃ s t u v : State, MemoryCanonical s ∧ s.i.toNat + (3 : RegIdx).val < 4096 ∧ exec (.storeRegs 3) s = .next t ∧
      u.cfg = t.cfg ∧ SameMemory t u ∧ u.i = s.i ∧ u.readV 0 ≠ s.readV 0 ∧ exec (.loadRegs 3) u = .next v :=
  ⟨(regs [(0, 0x11), (1, 0x22)]).setI 0x0400, _,
    { (regs [(0, 0xEE)]).setI 0x0400 with mem := [(0x400, 0x11), (0x401, 0x22)] }, _, rfl, by decide, rfl, rfl,
    fun a => rfl, rfl, by decide, rfl⟩

/-- Each instruction, from inside and from outside. -/
theorem witness_BlockOverTheEndHaltsAndWritesNothing :
    (∃ i last, (i = Instr.ldB 0 ∧ last = 2) ∧ 4096 ≤ (State.reset.setI 0x0FFE).i.toNat + last) ∧
    (∃ i last, (i = Instr.storeRegs 15 ∧ last = (15 : RegIdx).val) ∧ 4096 ≤ (State.reset.setI 0x0FF1).i.toNat + last) ∧
    (∃ i last, (i = Instr.loadRegs 0 ∧ last = (0 : RegIdx).val) ∧ 4096 ≤ (State.reset.setI 0xFFFF).i.toNat + last) ∧
    State.reset.cfg.addrPolicy = .reject :=
  ⟨⟨_, _, ⟨rfl, rfl⟩, by decide⟩, ⟨_, _, ⟨rfl, rfl⟩, by decide⟩, ⟨_, _, ⟨rfl, rfl⟩, by decide⟩, rfl⟩

/-- T44-10: only the rows on the grid need their bytes; and a sprite over the end of memory under `wrap`. -/
theorem witness_DrawFlipsTheSpriteCells :
    (∀ r, r < (4 : Nibble).toNat → (((regs [(1, 30)]).setI 0x0FFE).readV 1).toNat + r < 32 →
      (atI ((regs [(1, 30)]).setI 0x0FFE) r).toNat < 4096) ∧
    (wrapping (State.reset.setI 0xFFFF)).cfg.addrPolicy = .wrap := by decide

/-- P4: the state before the first drawing, and the one it leaves. -/
def beforeDrawing : State := (regs [(1, 0x3C), (2, 0x1E)]).setI 0x0050

def afterDrawing : State :=
  match exec (.drw 1 2 5) beforeDrawing with
  | .next t => t
  | .fault _ => beforeDrawing
  | .refused _ => beforeDrawing

/-- A font glyph at the corner (P4), a sprite with bits of 1 on the grid. -/
theorem witness_DrawTwiceRestoresTheScreen :
    ∃ s t u v : State, s.halt = false ∧ exec (.drw 1 2 5) s = .next t ∧ t.halt = false ∧
      u = { t with v := s.v, pc := u.pc } ∧ exec (.drw 1 2 5) u = .next v ∧
      ∃ r c, r < 32 ∧ c < 64 ∧ cell s.fb r c = false ∧ cell t.fb r c = true :=
  ⟨beforeDrawing, afterDrawing, { afterDrawing with v := beforeDrawing.v }, _, rfl, rfl, rfl, rfl, rfl, 30, 60,
    by decide, by decide, by decide, by decide⟩

theorem witness_SpriteOutsideMemoryHalts :
    State.reset.cfg.addrPolicy = .reject ∧ 2 < (4 : Nibble).toNat ∧
    ((State.reset.setI 0x0FFE).readV 1).toNat + 2 < 32 ∧ 4096 ≤ (atI (State.reset.setI 0x0FFE) 2).toNat ∧
    ∀ q, q < 2 → (atI (State.reset.setI 0x0FFE) q).toNat < 4096 := by decide

/-- Key 15 alone, and key 7 with higher ones. -/
theorem witness_KeyWaitTakesTheLowestPressedKey :
    ((pressing [15]).keys[(15 : Fin 16)] = true ∧ ∀ j : Fin 16, j < 15 → (pressing [15]).keys[j] = false) ∧
    ((pressing [12, 9, 7]).keys[(7 : Fin 16)] = true ∧
      ∀ j : Fin 16, j < 7 → (pressing [12, 9, 7]).keys[j] = false) := by decide

theorem witness_KeyWaitChangesNothingUntilAKey :
    (State.reset.withFetchWord 16 0xF40A).halt = false ∧ (State.reset.withFetchWord 16 0xF40A).events = [] ∧
    (∀ k : Fin 16, (State.reset.withFetchWord 16 0xF40A).keys[k] = false) ∧
    fetch (State.reset.withFetchWord 16 0xF40A) = .ok (encode (.ldVxK 4)) := ⟨rfl, rfl, by decide, rfl⟩

theorem witness_TickDecrementsTheTimers : ({ haltedState with events := [.tick60] } : State).nextEvent = .tick60 := rfl

/-- S9: more ticks than either timer holds. -/
theorem witness_TimersDecayToZeroAndStay :
    ∃ s : State, s.dt = 5 ∧ s.st = 2 ∧ s.events = List.replicate 7 .tick60 ++ [.cycle] :=
  ⟨{ State.reset with dt := 5, st := 2, events := List.replicate 7 .tick60 ++ [.cycle] }, rfl, rfl, rfl⟩

theorem witness_TicksCommuteWithOtherInstructions :
    (∀ x, Instr.cls ≠ .ldVxDt x ∧ Instr.cls ≠ .ldDtVx x ∧ Instr.cls ≠ .ldStVx x) ∧
    ∃ t, exec .cls { State.reset with dt := 1 } = .next t := ⟨fun x => by simp, _, rfl⟩

theorem witness_ResetPutsEveryItemAtItsResetValue :
    ({ haltedState with events := [.reset] } : State).nextEvent = .reset := rfl

/-- An image of ROM_MAX bytes, one byte more, and a load outside its time. -/
theorem witness_LoadRomCopiesTheImage :
    (∃ s : State, ∃ bs, s.nextEvent = .loadRom bs ∧ MemoryCanonical s ∧ s.loadable = true ∧ bs.length = 3584) ∧
    (∃ s : State, ∃ bs, s.nextEvent = .loadRom bs ∧ MemoryCanonical s ∧ s.loadable = true ∧ bs.length = 3585) ∧
    (∃ s : State, ∃ bs, s.nextEvent = .loadRom bs ∧ MemoryCanonical s ∧ s.loadable = false) :=
  ⟨⟨upNext (.loadRom (List.replicate 3584 0xAA)), _, rfl, rfl, rfl, List.length_replicate⟩,
    ⟨upNext (.loadRom (List.replicate 3585 0xAA)), _, rfl, rfl, rfl, List.length_replicate⟩,
    ⟨{ upNext (.loadRom []) with loadable := false }, _, rfl, rfl, rfl⟩⟩

/-- A key that is named, and one that is not. -/
theorem witness_SetKeysWritesTheNamedKeys :
    ∃ ks : Vector (Option Bool) 16, (upNext (.setKeys ks)).nextEvent = .setKeys ks ∧
      ks[(15 : Fin 16)] = some true ∧ ks[(0 : Fin 16)] = none :=
  ⟨Vector.ofFn fun k => if k = 15 then some true else none, rfl, by decide, by decide⟩

theorem witness_ScreenReadsReturnTheScreen :
    (upNext .readFramebuffer).nextEvent = .readFramebuffer ∧
    (upNext .readAndClearDrawFlag).nextEvent = .readAndClearDrawFlag := ⟨rfl, rfl⟩

theorem witness_StatusReadReturnsTheRegisters : (upNext .readStatus).nextEvent = .readStatus := rfl

/-- A store to the last byte of memory. -/
theorem witness_MemoryStaysCanonical :
    MemoryCanonical (((regs [(0, 0x01)]).setI 0x0FFF).withFetchWord 16 0xF055) ∧
    ∃ t, step (((regs [(0, 0x01)]).setI 0x0FFF).withFetchWord 16 0xF055) = .next t := ⟨rfl, _, rfl⟩

/-- A running core that goes on to halt, and a halted one. -/
theorem witness_StatusStaysConsistent :
    (StatusConsistent (State.reset.withFetchWord 16 0x00EE) ∧
      ∃ t, step (State.reset.withFetchWord 16 0x00EE) = .next t) ∧
    (StatusConsistent haltedState ∧ ∃ t, step haltedState = .next t) :=
  ⟨⟨⟨rfl, rfl, rfl⟩, _, rfl⟩, ⟨rfl, .inr (.inr ⟨.ret, .stackUnderflow, rfl, rfl, rfl⟩)⟩, _, rfl⟩

theorem witness_OnlyResetLeavesTheHaltedState :
    haltedState.halt = true ∧ Event.reset ∉ haltedState.events ∧
    ∃ t, Host.Core.run Sys2Proof.core 2 haltedState = .next t := ⟨rfl, by simp [haltedState, State.reset], _, rfl⟩

theorem witness_ParametersNeverChange : ∃ t, Host.Core.run Sys2Proof.core 2 State.reset = .next t := ⟨_, rfl⟩

/-- Two states that differ in a stale slot, before a CALL that writes it. -/
theorem witness_StaleStackSlotsAreUnobservable :
    ∃ s s' t : State, SameButStaleSlots s s' ∧ s ≠ s' ∧ step s = .next t :=
  ⟨State.reset, { State.reset with stack := State.reset.stack.set 0 0x0777 }, _,
    ⟨rfl, fun k hk => absurd hk (Nat.not_lt_zero k.val)⟩, by decide, rfl⟩

theorem witness_UnreadRegistersDoNotMatter :
    ∃ s s' t : State, SameButUnread s s' ∧ s ≠ s' ∧ exec .cls s = .next t :=
  ⟨State.reset, { State.reset with st := 9, drawFlag := true, errPc := 0x0300 }, _, rfl, by decide, rfl⟩

/-- `1200` at 0x200. -/
theorem witness_FinishedRunStaysFinished :
    Finished (State.reset.withFetchWord 16 0x1200) ∧ (State.reset.withFetchWord 16 0x1200).events = [] :=
  ⟨⟨rfl, 0x200, rfl, rfl⟩, rfl⟩

end Sys2Proof.Tests
end

section
/-! PROOFS. What the host's `set_keys` and its two reads of the screen do (spec/10_state.md rules R29, R32, R33). -/

namespace Sys2Proof.Machine

open Sys2Proof.Safety

/-! ### One step is the next action, and what returning a value leaves -/

theorem step_of_nextEvent {s : State} {e : Event} (h : s.nextEvent = e) : step s = runEvent e s.takeEvent := by
  rw [step, h]

/-- Returning a value to the host changes no item of R10. -/
theorem sameButStatus_answer (s : State) (r : Reply) : SameButStatus s (s.answer r) :=
  ⟨rfl, rfl, rfl, rfl, ⟨rfl, rfl⟩, ⟨rfl, rfl⟩, ⟨rfl, rfl⟩, ⟨rfl, rfl, rfl, rfl⟩, rfl⟩

theorem sameStatus_answer (s : State) (r : Reply) : SameStatus s (s.answer r) := ⟨rfl, rfl, rfl, rfl⟩

/-! ### The key vector (R29) -/

theorem mergeKeys_of_some {ks : Vector (Option Bool) 16} {k : Fin 16} {b : Bool} (h : ks[k] = some b)
    (keys : Vector Bool 16) : (mergeKeys ks keys)[k] = b := by
  rw [mergeKeys_get, h, Option.getD_some]

theorem mergeKeys_of_none {ks : Vector (Option Bool) 16} {k : Fin 16} (h : ks[k] = none)
    (keys : Vector Bool 16) : (mergeKeys ks keys)[k] = keys[k] := by
  rw [mergeKeys_get, h, Option.getD_none]

theorem step_setKeys {s : State} {ks : Vector (Option Bool) 16} (h : s.nextEvent = .setKeys ks) :
    step s = .next { s with keys := mergeKeys ks s.keys, events := s.events.tail, reply := .nothing } := by
  rw [step_of_nextEvent h]
  rfl

/-- Settles O49: the new key vector is `mergeKeys`, read at a named and at an unnamed key; no other item is written. -/
theorem setKeysWritesTheNamedKeys : Obligations.SetKeysWritesTheNamedKeys := by
  intro s ks h
  refine ⟨_, step_setKeys h, ?named, ?unnamed, ?frame⟩
  case named => exact fun k b hb => mergeKeys_of_some hb s.keys
  case unnamed => exact fun k hk => mergeKeys_of_none hk s.keys
  case frame =>
    -- the frame does not depend on the new key vector
    generalize mergeKeys ks s.keys = keys
    exact ⟨fun _ _ => rfl, rfl, rfl, fun _ => rfl, ⟨rfl, rfl⟩, ⟨rfl, rfl⟩, ⟨rfl, rfl⟩, ⟨rfl, rfl, rfl, rfl⟩, rfl, rfl⟩

/-! ### The screen in row-major order (R18, R32) -/

/-- The library's flattened vector, whose length and entries are known. -/
theorem rowMajor_eq_flatten (fb : Framebuffer) : rowMajor fb = fb.flatten.toList := by
  simp only [rowMajor, List.flatMap, Vector.flatten, Vector.toList, Array.toList_flatten, Array.toList_map,
    List.map_map]
  rfl

theorem rowMajor_length (fb : Framebuffer) : (rowMajor fb).length = 2048 := by
  rw [rowMajor_eq_flatten, Vector.length_toList]

theorem rowMajor_getElem? (fb : Framebuffer) {r c : Nat} (hr : r < 32) (hc : c < 64) :
    (rowMajor fb)[r * 64 + c]? = some (cell fb r c) := by
  have hidx : r * 64 + c < 32 * 64 := by omega
  have hdiv : (r * 64 + c) / 64 = r := by omega
  have hmod : (r * 64 + c) % 64 = c := by omega
  have hcell : cell fb r c = fb[r][c] := dif_pos ⟨hr, hc⟩
  rw [rowMajor_eq_flatten, hcell, Vector.getElem?_toList, Vector.getElem?_eq_getElem hidx,
    Vector.getElem_flatten]
  simp only [hdiv, hmod]

/-- Settles O50: both reads only return a value, after the flag is cleared in the second; the value of the first is
`rowMajor`, read at `64 r + c`. -/
theorem screenReadsReturnTheScreen : Obligations.ScreenReadsReturnTheScreen := by
  intro s
  refine ⟨fun h => ?framebuffer, fun h => ?flag⟩
  case framebuffer =>
    exact ⟨readFramebufferEvent s.takeEvent, rowMajor s.fb, step_of_nextEvent h, rfl, rowMajor_length s.fb,
      fun _ _ hr hc => rowMajor_getElem? s.fb hr hc, sameButStatus_answer s.takeEvent _,
      sameStatus_answer s.takeEvent _⟩
  case flag =>
    exact ⟨readFlagEvent s.takeEvent, step_of_nextEvent h, rfl,
      sameButStatus_answer { s.takeEvent with drawFlag := false } _,
      sameStatus_answer { s.takeEvent with drawFlag := false } _⟩

end Sys2Proof.Machine
end

section
/-! PROOFS. What the jumps without an error do (spec/40_control.md rules R80, R82, R84). -/

namespace Sys2Proof.Machine

open Sys2Proof.Safety

/-! ### Instructions that complete, and those that write only `PC` -/

/-- An instruction whose effect is a state completes with it and returns `(changed, opcode, 0, 0)` (R30). -/
theorem exec_of_effect_ok {i : Instr} {s u : State} (h : effect i s = .ok u) :
    exec i s = .next (u.answer (.cycleDone ⟨changesScreen i, encode i, 0, 0⟩)) := by
  rw [exec_eq_finish, h, finish_ok]

theorem registerFrame_setPc_answer (s : State) (a : Word) (r : Reply) : RegisterFrame s ((s.setPc a).answer r) :=
  ⟨fun _ => rfl, ⟨rfl, rfl⟩, ⟨rfl, rfl⟩, ⟨rfl, rfl⟩, ⟨rfl, rfl, rfl, rfl⟩, ⟨rfl, rfl, rfl, rfl⟩, rfl⟩

/-- An instruction whose effect writes only `PC` goes to the written address; nothing else changes. -/
theorem exec_of_effect_setPc {i : Instr} {s : State} {a : Word} (h : effect i s = .ok (s.setPc a)) :
    ∃ t, exec i s = .next t ∧ t.pc = a ∧ SameRegsBut [] s t ∧ t.i = s.i ∧ RegisterFrame s t :=
  ⟨_, exec_of_effect_ok h, rfl, fun _ _ => rfl, rfl, registerFrame_setPc_answer s a _⟩

/-! ### The targets (R8, R82, R84) -/

@[simp] theorem zext12_toNat (a : Addr12) : (zext12 a).toNat = a.toNat :=
  BitVec.toNat_setWidth_of_le (by decide)

@[simp] theorem zext8_toNat (b : Byte) : (zext8 b).toNat = b.toNat :=
  BitVec.toNat_setWidth_of_le (by decide)

/-- The sum is at most `0xFFF + 0xFF`, so the 16-bit addition keeps it whole (R84). -/
theorem zext12_add_zext8_toNat (a : Addr12) (b : Byte) : (zext12 a + zext8 b).toNat = a.toNat + b.toNat := by
  have ha := a.isLt
  have hb := b.isLt
  rw [BitVec.toNat_add, zext12_toNat, zext8_toNat, Nat.mod_eq_of_lt (by omega)]

/-- Settles O14: the effect of each of the three is a write of its target to `PC`. -/
theorem jumpsWriteThePcAndNothingElse : Obligations.JumpsWriteThePcAndNothingElse := by
  intro nnn s
  refine ⟨?sys, ?jp, ?jpV0⟩
  case sys => exact exec_of_effect_setPc (i := .sys nnn) rfl
  case jp =>
    obtain ⟨t, hexec, hpc, hframe⟩ := exec_of_effect_setPc (i := .jp nnn) (s := s) rfl
    exact ⟨t, hexec, by rw [hpc, zext12_toNat], hframe⟩
  case jpV0 =>
    obtain ⟨t, hexec, hpc, hframe⟩ := exec_of_effect_setPc (i := .jpV0 nnn) (s := s) rfl
    exact ⟨t, hexec, by rw [hpc, zext12_add_zext8_toNat], hframe⟩

end Sys2Proof.Machine
end

section
/-! PROOFS. What the four register comparisons do (spec/41_skip.md rules R90 to R93). -/

namespace Sys2Proof.Machine

/-! ### The target of a skip, by the equation that is tested (R15) -/

theorem State.skipIf_beq {α : Type} [BEq α] [LawfulBEq α] [DecidableEq α] (s : State) (a b : α) :
    s.skipIf (a == b) = s.setPc (if a = b then s.pc + 4 else s.pc + 2) := by
  simp only [skipIf_eq, beq_iff_eq]

/-- Skipping when the two differ, with the branches in the order of the test for equality. -/
theorem State.skipIf_bne {α : Type} [BEq α] [LawfulBEq α] [DecidableEq α] (s : State) (a b : α) :
    s.skipIf (a != b) = s.setPc (if a = b then s.pc + 2 else s.pc + 4) := by
  simp only [skipIf_eq, bne_iff_ne, ne_eq, ite_not]

/-- Settles O19: the effect of each of the four is a write of its skip target to `PC`. -/
theorem comparisonsSkipTheNextInstruction : Obligations.ComparisonsSkipTheNextInstruction := by
  intro x y kk s
  refine ⟨?seByte, ?sneByte, ?seReg, ?sneReg⟩
  case seByte => exact exec_of_effect_setPc (i := .seByte x kk) (congrArg Except.ok (s.skipIf_beq _ _))
  case sneByte => exact exec_of_effect_setPc (i := .sneByte x kk) (congrArg Except.ok (s.skipIf_bne _ _))
  case seReg => exact exec_of_effect_setPc (i := .seReg x y) (congrArg Except.ok (s.skipIf_beq _ _))
  case sneReg => exact exec_of_effect_setPc (i := .sneReg x y) (congrArg Except.ok (s.skipIf_bne _ _))

end Sys2Proof.Machine
end

section
/-! PROOFS. What the register loads and the two additions do (spec/42_alu.md rules R100 to R102, R106, R111). -/

namespace Sys2Proof.Machine

open Sys2Proof.Safety

/-! ### Instructions that write one register, and those that write a result and its flag -/

/-- New general registers, `PC` and reply leave the rest of the state alone. -/
theorem registerFrame_regs_pc_reply (s : State) (v : Vector Byte 16) (a : Word) (r : Reply) :
    RegisterFrame s { s with v := v, pc := a, reply := r } :=
  ⟨fun _ => rfl, ⟨rfl, rfl⟩, ⟨rfl, rfl⟩, ⟨rfl, rfl⟩, ⟨rfl, rfl, rfl, rfl⟩, ⟨rfl, rfl, rfl, rfl⟩, rfl⟩

theorem sameRegsBut_setV (s : State) (x : RegIdx) (b : Byte) : SameRegsBut [x] s (s.setV x b) :=
  fun _ hr => State.readV_setV_ne s b (List.ne_of_not_mem_cons hr)

/-- The result is read back unless the flag, which is written last, has taken its register (R100). -/
theorem State.setResult_readV_result (s : State) {x : RegIdx} (r : Byte) (c : Bool) (hx : x ≠ regF) :
    (s.setResult x r c).readV x = r := by
  rw [State.setResult_eq, State.readV_setV_ne _ _ hx, State.readV_setV_same]

theorem State.setResult_readV_flag (s : State) (x : RegIdx) (r : Byte) (c : Bool) :
    (s.setResult x r c).readV regF = flagByte c := by
  rw [State.setResult_eq, State.readV_setV_same]

theorem sameRegsBut_setResult (s : State) (x : RegIdx) (r : Byte) (c : Bool) :
    SameRegsBut [x, regF] s (s.setResult x r c) := by
  intro q hq
  have hx : q ≠ x := List.ne_of_not_mem_cons hq
  have hf : q ≠ regF := List.ne_of_not_mem_cons (List.not_mem_of_not_mem_cons hq)
  rw [State.setResult_eq, State.readV_setV_ne _ _ hf, State.readV_setV_ne _ _ hx]

/-- An instruction whose effect writes one register and advances changes that register and `PC`, and nothing else. -/
theorem exec_of_effect_setV {i : Instr} {s : State} {x : RegIdx} {b : Byte}
    (h : effect i s = .ok (s.setV x b).advance) :
    ∃ t, exec i s = .next t ∧ t.readV x = b ∧ SameRegsBut [x] s t ∧ t.pc = s.pc + 2 ∧ t.i = s.i ∧
      RegisterFrame s t :=
  ⟨_, exec_of_effect_ok h, s.readV_setV_same x b, sameRegsBut_setV s x b, rfl, rfl,
    registerFrame_regs_pc_reply s _ _ _⟩

/-- An instruction whose effect writes a result and its flag and advances changes `V[x]`, `VF` and `PC`, and nothing
else. -/
theorem exec_of_effect_setResult {i : Instr} {s : State} {x : RegIdx} {r : Byte} {c : Bool}
    (h : effect i s = .ok (s.setResult x r c).advance) :
    ∃ t, exec i s = .next t ∧ (x ≠ regF → t.readV x = r) ∧ t.readV regF = flagByte c ∧
      SameRegsBut [x, regF] s t ∧ t.pc = s.pc + 2 ∧ t.i = s.i ∧ RegisterFrame s t :=
  ⟨_, exec_of_effect_ok h, s.setResult_readV_result r c, s.setResult_readV_flag x r c,
    sameRegsBut_setResult s x r c, rfl, rfl, registerFrame_regs_pc_reply s _ _ _⟩

/-! ### The loads and the additions -/

/-- Settles O22: the effect of both loads is a write of one register. -/
theorem registerLoadsWriteOneRegister : Obligations.RegisterLoadsWriteOneRegister := by
  intro x y kk s
  refine ⟨?ldByte, ?ldReg⟩
  case ldByte => exact exec_of_effect_setV (i := .ldByte x kk) rfl
  case ldReg => exact exec_of_effect_setV (i := .ldReg x y) rfl

theorem addResult_toNat (a b : Byte) : (addResult a b).toNat = (a.toNat + b.toNat) % 256 :=
  BitVec.toNat_ofNat _ _

theorem flagByte_toNat (c : Bool) : (flagByte c).toNat = if c then 1 else 0 := by
  cases c <;> rfl

/-- The carry as the byte that `VF` receives (R106). -/
theorem flagByte_addCarry_toNat (a b : Byte) :
    (flagByte (addCarry a b)).toNat = if 255 < a.toNat + b.toNat then 1 else 0 := by
  simp only [flagByte_toNat, addCarry, decide_eq_true_eq]

/-- Settles O23: the effect is a write of one register with the narrowed sum. -/
theorem addImmediateWrapsWithoutFlag : Obligations.AddImmediateWrapsWithoutFlag := by
  intro x kk s
  obtain ⟨t, hexec, hresult, hframe⟩ := exec_of_effect_setV (i := .addByte x kk) (s := s) rfl
  exact ⟨t, hexec, by rw [hresult, addResult_toNat], hframe⟩

/-- Settles O25: the effect writes the narrowed sum and then the carry, both of the values before the instruction. -/
theorem addSetsTheCarry : Obligations.AddSetsTheCarry := by
  intro x y s
  obtain ⟨t, hexec, hresult, hflag, hframe⟩ := exec_of_effect_setResult (i := .addReg x y) (s := s) rfl
  exact ⟨t, hexec, fun hx => by rw [hresult hx, addResult_toNat],
    (congrArg BitVec.toNat hflag).trans (flagByte_addCarry_toNat _ _), hframe⟩

end Sys2Proof.Machine
end

section
/-! PROOFS. What the load of the index register does (spec/43_index_memory.md rule R120). -/

namespace Sys2Proof.Machine

open Sys2Proof.Safety

/-! ### Instructions that write `I` -/

/-- A new `I`, `PC` and reply leave the rest of the state alone. -/
theorem registerFrame_i_pc_reply (s : State) (i a : Word) (r : Reply) :
    RegisterFrame s { s with i := i, pc := a, reply := r } :=
  ⟨fun _ => rfl, ⟨rfl, rfl⟩, ⟨rfl, rfl⟩, ⟨rfl, rfl⟩, ⟨rfl, rfl, rfl, rfl⟩, ⟨rfl, rfl, rfl, rfl⟩, rfl⟩

/-- An instruction whose effect writes `I` and advances changes `I` and `PC`, and nothing else; it returns
`(changed, opcode, 0, 0)` (R30). -/
theorem exec_of_effect_setI {i : Instr} {s : State} {a : Word} (h : effect i s = .ok (s.setI a).advance) :
    ∃ t, exec i s = .next t ∧ t.i = a ∧ t.pc = s.pc + 2 ∧ SameRegsBut [] s t ∧ RegisterFrame s t ∧
      Returned t (changesScreen i) (encode i) :=
  ⟨_, exec_of_effect_ok h, rfl, rfl, fun _ _ => rfl, registerFrame_i_pc_reply s a _ _, rfl⟩

/-- Settles O29: the effect is a write of the zero-extended address to `I`. -/
theorem loadIndexWritesTheAddress : Obligations.LoadIndexWritesTheAddress := by
  intro nnn s
  obtain ⟨t, hexec, hi, hpc, hregs, hframe, -⟩ := exec_of_effect_setI (i := .ldI nnn) (s := s) rfl
  exact ⟨t, hexec, by rw [hi, zext12_toNat], hpc, hregs, hframe⟩

end Sys2Proof.Machine
end

section
/-! PROOFS. What the clear of the screen does (spec/44_display.md rule R130). -/

namespace Sys2Proof.Machine

open Sys2Proof.Safety

/-! ### Instructions that write the screen and nothing else but `PC` -/

/-- An instruction whose effect shows a framebuffer and advances changes the framebuffer, `draw_flag` and `PC`, and
nothing else; it returns `(changed, opcode, 0, 0)` (R19, R30). -/
theorem exec_of_effect_show {i : Instr} {s : State} {fb : Framebuffer} (h : effect i s = .ok (s.show fb).advance) :
    ∃ t, exec i s = .next t ∧ t.fb = fb ∧ t.drawFlag = true ∧ t.pc = s.pc + 2 ∧ SameRegsBut [] s t ∧ t.i = s.i ∧
      SameMemory s t ∧ SameStack s t ∧ SameTimers s t ∧ SameStatus s t ∧ SameOutside s t ∧ t.draws = s.draws ∧
      Returned t (changesScreen i) (encode i) :=
  ⟨_, exec_of_effect_ok h, rfl, rfl, rfl, fun _ _ => rfl, rfl, fun _ => rfl, ⟨rfl, rfl⟩, ⟨rfl, rfl⟩,
    ⟨rfl, rfl, rfl, rfl⟩, ⟨rfl, rfl, rfl, rfl⟩, rfl, rfl⟩

/-- Settles O36: the effect shows the blank screen, whose every cell is 0. -/
theorem clearScreenClearsEveryCell : Obligations.ClearScreenClearsEveryCell := by
  refine ⟨by decide, fun s => ?_⟩
  obtain ⟨t, hexec, hfb, hflag, hpc, hregs, hi, hmem, hstack, htimers, hstatus, houtside, hdraws, hreply⟩ :=
    exec_of_effect_show (i := .cls) (s := s) rfl
  have hblank : ∀ r c, r < 32 → c < 64 → cell t.fb r c = false := fun r c _ _ => by rw [hfb, cell_blankScreen]
  exact ⟨t, ⟨true, encode .cls, 0, 0⟩, hexec, hblank, hflag, hpc, hregs, hi, hmem, hstack, htimers, hstatus, houtside,
    hdraws, hreply, rfl⟩

end Sys2Proof.Machine
end

section
/-! PROOFS. What the timer instructions do (spec/45_timer_key.md rules R140, R142, R143). -/

namespace Sys2Proof.Machine

open Sys2Proof.Safety

/-! ### Instructions that write the timers and nothing else but `PC` -/

/-- An instruction whose effect writes the two timers and advances changes the timers and `PC`, and nothing else. A
timer that the instruction leaves alone is one written with its own value. -/
theorem exec_of_effect_setTimers {i : Instr} {s : State} {d e : Byte}
    (h : effect i s = .ok ((s.setDt d).setSt e).advance) :
    ∃ t, exec i s = .next t ∧ t.dt = d ∧ t.st = e ∧ SameRegsBut [] s t ∧ t.pc = s.pc + 2 ∧ t.i = s.i ∧
      SameMemory s t ∧ SameStack s t ∧ SameScreen s t ∧ SameStatus s t ∧ SameOutside s t ∧ t.draws = s.draws :=
  ⟨_, exec_of_effect_ok h, rfl, rfl, fun _ _ => rfl, rfl, rfl, fun _ => rfl, ⟨rfl, rfl⟩, ⟨rfl, rfl⟩,
    ⟨rfl, rfl, rfl, rfl⟩, ⟨rfl, rfl, rfl, rfl⟩, rfl⟩

/-- Settles O40: the read of `DT` is a write of one register; each of the other two writes its own timer with `V[x]`
and leaves the other at its value. -/
theorem timerInstructionsMoveTheTimers : Obligations.TimerInstructionsMoveTheTimers := by
  intro x s
  refine ⟨?ldVxDt, ?ldDtVx, ?ldStVx⟩
  case ldVxDt => exact exec_of_effect_setV (i := .ldVxDt x) rfl
  case ldDtVx => exact exec_of_effect_setTimers (i := .ldDtVx x) (d := s.readV x) (e := s.st) rfl
  case ldStVx =>
    obtain ⟨t, hexec, hdt, hst, hframe⟩ :=
      exec_of_effect_setTimers (i := .ldStVx x) (d := s.dt) (e := s.readV x) (s := s) rfl
    exact ⟨t, hexec, hst, hdt, hframe⟩

end Sys2Proof.Machine
end

section
/-! PROOFS. The decoder, the encoder and the opcode table agree (spec/30_encoding.md rules R60 to R69). -/

namespace Sys2Proof

/-! ### The families of the decoder, each behind its `op` (R65) -/

section families
variable {w : Word}

theorem decodeWord_op0 (h : opField w = 0x0#4) : decodeWord w = decodeFamily0 w := by simp [decodeWord, h]
theorem decodeWord_op1 (h : opField w = 0x1#4) : decodeWord w = some (.jp (nnnField w)) := by
  simp [decodeWord, h]
theorem decodeWord_op2 (h : opField w = 0x2#4) : decodeWord w = some (.call (nnnField w)) := by
  simp [decodeWord, h]
theorem decodeWord_op3 (h : opField w = 0x3#4) :
    decodeWord w = some (.seByte (regOfBits (xField w)) (kkField w)) := by simp [decodeWord, h]
theorem decodeWord_op4 (h : opField w = 0x4#4) :
    decodeWord w = some (.sneByte (regOfBits (xField w)) (kkField w)) := by simp [decodeWord, h]
theorem decodeWord_op5 (h : opField w = 0x5#4) : decodeWord w = decodeFamily5 w := by simp [decodeWord, h]
theorem decodeWord_op6 (h : opField w = 0x6#4) :
    decodeWord w = some (.ldByte (regOfBits (xField w)) (kkField w)) := by simp [decodeWord, h]
theorem decodeWord_op7 (h : opField w = 0x7#4) :
    decodeWord w = some (.addByte (regOfBits (xField w)) (kkField w)) := by simp [decodeWord, h]
theorem decodeWord_op8 (h : opField w = 0x8#4) : decodeWord w = decodeFamily8 w := by simp [decodeWord, h]
theorem decodeWord_op9 (h : opField w = 0x9#4) : decodeWord w = decodeFamily9 w := by simp [decodeWord, h]
theorem decodeWord_opA (h : opField w = 0xA#4) : decodeWord w = some (.ldI (nnnField w)) := by
  simp [decodeWord, h]
theorem decodeWord_opB (h : opField w = 0xB#4) : decodeWord w = some (.jpV0 (nnnField w)) := by
  simp [decodeWord, h]
theorem decodeWord_opC (h : opField w = 0xC#4) :
    decodeWord w = some (.rnd (regOfBits (xField w)) (kkField w)) := by simp [decodeWord, h]
theorem decodeWord_opD (h : opField w = 0xD#4) :
    decodeWord w = some (.drw (regOfBits (xField w)) (regOfBits (yField w)) (nField w)) := by
  simp [decodeWord, h]
theorem decodeWord_opE (h : opField w = 0xE#4) : decodeWord w = decodeFamilyE w := by simp [decodeWord, h]
theorem decodeWord_opF (h : opField w = 0xF#4) : decodeWord w = decodeFamilyF w := by simp [decodeWord, h]

/-- Family 0 is SYS when `nnn` is neither of its two other operands (R65). -/
theorem decodeFamily0_of_free (h : sysOperandFree (nnnField w) = true) :
    decodeFamily0 w = some (.sys (nnnField w)) := by
  simp only [sysOperandFree, Bool.and_eq_true, bne_iff_ne] at h
  obtain ⟨hcls, hret⟩ := h
  rw [decodeFamily0, if_neg hcls, if_neg hret]

/-- The sixteen values of `op`. -/
theorem nibble_cases (n : Nibble) :
    n = 0x0#4 ∨ n = 0x1#4 ∨ n = 0x2#4 ∨ n = 0x3#4 ∨ n = 0x4#4 ∨ n = 0x5#4 ∨ n = 0x6#4 ∨ n = 0x7#4 ∨
      n = 0x8#4 ∨ n = 0x9#4 ∨ n = 0xA#4 ∨ n = 0xB#4 ∨ n = 0xC#4 ∨ n = 0xD#4 ∨ n = 0xE#4 ∨ n = 0xF#4 := by
  revert n; decide

end families

/-- Settles O1: the decoder's branch is chosen by the fields of the assembled word, which are the encoder's. -/
theorem decodeOfEncodeIsTheInstruction : Obligations.DecodeOfEncodeIsTheInstruction := by
  intro i hwf
  cases i with
  | cls | ret => rfl
  | sys nnn =>
    have hop : opField (encode (.sys nnn)) = 0x0#4 := opField_packNNN _ _
    have hnnn : nnnField (encode (.sys nnn)) = nnn := nnnField_packNNN _ _
    rw [decodeWord_op0 hop, decodeFamily0_of_free (by rw [hnnn]; exact hwf), hnnn]
  | jp | call | ldI | jpV0 => simp [encode, decodeWord]
  | seByte | sneByte | ldByte | addByte | rnd => simp [encode, decodeWord]
  | drw => simp [encode, decodeWord]
  | seReg => simp [encode, decodeWord, decodeFamily5]
  | sneReg => simp [encode, decodeWord, decodeFamily9]
  | ldReg | orReg | andReg | xorReg | addReg | subReg | shr | subnReg | shl =>
    simp [encode, decodeWord, decodeFamily8]
  | skp | sknp => simp [encode, decodeWord, decodeFamilyE]
  | ldVxDt | ldVxK | ldDtVx | ldStVx | addI | ldF | ldB | storeRegs | loadRegs =>
    simp [encode, decodeWord, decodeFamilyF]

/-! ### What a decoded word was assembled from (R61) -/

section assembled
variable {w : Word} {op : Nibble}

theorem packNNN_of_op (hop : opField w = op) : packNNN op (nnnField w) = w := by
  rw [← hop, packNNN_fields]

theorem packXKK_of_op (hop : opField w = op) : packXKK op (regOfBits (xField w)) (kkField w) = w := by
  rw [← hop, packXKK_fields]

theorem packXYN_of_op (hop : opField w = op) :
    packXYN op (regOfBits (xField w)) (regOfBits (yField w)) (nField w) = w := by rw [← hop, packXYN_fields]

theorem packXKK_of_op_kk {kk : Byte} (hop : opField w = op) (hkk : kkField w = kk) :
    packXKK op (regOfBits (xField w)) kk = w := by rw [← hkk, packXKK_of_op hop]

theorem packXYN_of_op_n {n : Nibble} (hop : opField w = op) (hn : nField w = n) :
    packXYN op (regOfBits (xField w)) (regOfBits (yField w)) n = w := by rw [← hn, packXYN_of_op hop]

end assembled

/-- A word stands for an instruction: it is the instruction's word, and the instruction is well-formed. -/
def StandsFor (w : Word) (i : Instr) : Prop := encode i = w ∧ i.wellFormed = true

theorem decodeFamily0_standsFor {w : Word} {i : Instr} (hop : opField w = 0x0#4) (h : decodeFamily0 w = some i) :
    StandsFor w i := by
  have hw := packNNN_of_op hop
  unfold decodeFamily0 at h
  split at h
  · next hn => cases h; exact ⟨by rw [← hw, hn]; rfl, rfl⟩
  · next hcls =>
    split at h
    · next hn => cases h; exact ⟨by rw [← hw, hn]; rfl, rfl⟩
    · next hret => cases h; exact ⟨hw, by simp [Instr.wellFormed, sysOperandFree, hcls, hret]⟩

theorem decodeFamily5_standsFor {w : Word} {i : Instr} (hop : opField w = 0x5#4) (h : decodeFamily5 w = some i) :
    StandsFor w i := by
  unfold decodeFamily5 at h
  split at h <;> cases h
  next hn => exact ⟨packXYN_of_op_n hop hn, rfl⟩

theorem decodeFamily9_standsFor {w : Word} {i : Instr} (hop : opField w = 0x9#4) (h : decodeFamily9 w = some i) :
    StandsFor w i := by
  unfold decodeFamily9 at h
  split at h <;> cases h
  next hn => exact ⟨packXYN_of_op_n hop hn, rfl⟩

theorem decodeFamily8_standsFor {w : Word} {i : Instr} (hop : opField w = 0x8#4) (h : decodeFamily8 w = some i) :
    StandsFor w i := by
  unfold decodeFamily8 at h
  repeat' split at h
  all_goals cases h
  all_goals next hn => exact ⟨packXYN_of_op_n hop hn, rfl⟩

theorem decodeFamilyE_standsFor {w : Word} {i : Instr} (hop : opField w = 0xE#4) (h : decodeFamilyE w = some i) :
    StandsFor w i := by
  unfold decodeFamilyE at h
  repeat' split at h
  all_goals cases h
  all_goals next hkk => exact ⟨packXKK_of_op_kk hop hkk, rfl⟩

theorem decodeFamilyF_standsFor {w : Word} {i : Instr} (hop : opField w = 0xF#4) (h : decodeFamilyF w = some i) :
    StandsFor w i := by
  unfold decodeFamilyF at h
  repeat' split at h
  all_goals cases h
  all_goals next hkk => exact ⟨packXKK_of_op_kk hop hkk, rfl⟩

/-- Settles O2: by the sixteen values of `op`, and the families' own lemmas. -/
theorem encodeOfDecodeIsTheWord : Obligations.EncodeOfDecodeIsTheWord := by
  intro w i h
  rcases nibble_cases (opField w) with hop | hop | hop | hop | hop | hop | hop | hop | hop | hop | hop | hop |
    hop | hop | hop | hop
  · exact decodeFamily0_standsFor hop (by rwa [decodeWord_op0 hop] at h)
  · rw [decodeWord_op1 hop] at h; cases h; exact ⟨packNNN_of_op hop, rfl⟩
  · rw [decodeWord_op2 hop] at h; cases h; exact ⟨packNNN_of_op hop, rfl⟩
  · rw [decodeWord_op3 hop] at h; cases h; exact ⟨packXKK_of_op hop, rfl⟩
  · rw [decodeWord_op4 hop] at h; cases h; exact ⟨packXKK_of_op hop, rfl⟩
  · exact decodeFamily5_standsFor hop (by rwa [decodeWord_op5 hop] at h)
  · rw [decodeWord_op6 hop] at h; cases h; exact ⟨packXKK_of_op hop, rfl⟩
  · rw [decodeWord_op7 hop] at h; cases h; exact ⟨packXKK_of_op hop, rfl⟩
  · exact decodeFamily8_standsFor hop (by rwa [decodeWord_op8 hop] at h)
  · exact decodeFamily9_standsFor hop (by rwa [decodeWord_op9 hop] at h)
  · rw [decodeWord_opA hop] at h; cases h; exact ⟨packNNN_of_op hop, rfl⟩
  · rw [decodeWord_opB hop] at h; cases h; exact ⟨packNNN_of_op hop, rfl⟩
  · rw [decodeWord_opC hop] at h; cases h; exact ⟨packXKK_of_op hop, rfl⟩
  · rw [decodeWord_opD hop] at h; cases h; exact ⟨packXYN_of_op hop, rfl⟩
  · exact decodeFamilyE_standsFor hop (by rwa [decodeWord_opE hop] at h)
  · exact decodeFamilyF_standsFor hop (by rwa [decodeWord_opF hop] at h)

/-! ### The unrecognised words (R67) -/

theorem decodeFamily0_ne_none (w : Word) : decodeFamily0 w ≠ none := by
  unfold decodeFamily0; split_ifs <;> simp

theorem decodeFamily5_eq_none (w : Word) : decodeFamily5 w = none ↔ nField w ≠ 0 := by simp [decodeFamily5]

theorem decodeFamily9_eq_none (w : Word) : decodeFamily9 w = none ↔ nField w ≠ 0 := by simp [decodeFamily9]

theorem nibble_unused8 (n : Nibble) :
    n ∉ [0x0#4, 0x1#4, 0x2#4, 0x3#4, 0x4#4, 0x5#4, 0x6#4, 0x7#4, 0xE#4] ↔
      n ∈ [0x8#4, 0x9#4, 0xA#4, 0xB#4, 0xC#4, 0xD#4, 0xF#4] := by
  revert n; decide

theorem decodeFamily8_eq_none (w : Word) :
    decodeFamily8 w = none ↔ nField w ∈ [0x8#4, 0x9#4, 0xA#4, 0xB#4, 0xC#4, 0xD#4, 0xF#4] := by
  rw [← nibble_unused8]
  simp [decodeFamily8, ite_eq_iff]

theorem decodeFamilyE_eq_none (w : Word) : decodeFamilyE w = none ↔ kkField w ∉ [0x9E#8, 0xA1#8] := by
  simp [decodeFamilyE, ite_eq_iff]

theorem decodeFamilyF_eq_none (w : Word) :
    decodeFamilyF w = none ↔
      kkField w ∉ [0x07#8, 0x0A#8, 0x15#8, 0x18#8, 0x1E#8, 0x29#8, 0x33#8, 0x55#8, 0x65#8] := by
  simp [decodeFamilyF, ite_eq_iff]

/-- Settles O4: by the sixteen values of `op`, of which five have words without an instruction. -/
theorem unrecognisedWordsAreTheListedOnes : Obligations.UnrecognisedWordsAreTheListedOnes := by
  intro w
  rcases nibble_cases (opField w) with hop | hop | hop | hop | hop | hop | hop | hop | hop | hop | hop | hop |
    hop | hop | hop | hop
  · simpa [hop] using (decodeWord_op0 hop).trans_ne (decodeFamily0_ne_none w)
  · simp [hop, decodeWord_op1 hop]
  · simp [hop, decodeWord_op2 hop]
  · simp [hop, decodeWord_op3 hop]
  · simp [hop, decodeWord_op4 hop]
  · rw [decodeWord_op5 hop, decodeFamily5_eq_none]; simp [hop]
  · simp [hop, decodeWord_op6 hop]
  · simp [hop, decodeWord_op7 hop]
  · rw [decodeWord_op8 hop, decodeFamily8_eq_none]; simp [hop]
  · rw [decodeWord_op9 hop, decodeFamily9_eq_none]; simp [hop]
  · simp [hop, decodeWord_opA hop]
  · simp [hop, decodeWord_opB hop]
  · simp [hop, decodeWord_opC hop]
  · simp [hop, decodeWord_opD hop]
  · rw [decodeWord_opE hop, decodeFamilyE_eq_none]; simp [hop]
  · rw [decodeWord_opF hop, decodeFamilyF_eq_none]; simp [hop]

/-- Settles O5: the decoder evaluated on the five words. -/
theorem writtenOutWordsDecode : Obligations.WrittenOutWordsDecode := by
  unfold Obligations.WrittenOutWordsDecode
  decide

/-! ### The opcode table (R64) -/

section rows
variable {w : Word}

theorem opField_of_selects {op : Nibble} (h : (OpcodeRow.mk 0xF000#16 (packNNN op 0#12)).selects w = true) :
    opField w = op := by
  simp only [OpcodeRow.selects, mask_op, beq_iff_eq] at h
  simpa using congrArg opField h

theorem fields_of_selects_op_n {op n : Nibble}
    (h : (OpcodeRow.mk 0xF00F#16 (packXYN op 0 0 n)).selects w = true) : opField w = op ∧ nField w = n := by
  simp only [OpcodeRow.selects, mask_op_n, beq_iff_eq] at h
  exact ⟨by simpa using congrArg opField h, by simpa using congrArg nField h⟩

theorem fields_of_selects_op_kk {op : Nibble} {kk : Byte}
    (h : (OpcodeRow.mk 0xF0FF#16 (packXKK op 0 kk)).selects w = true) : opField w = op ∧ kkField w = kk := by
  simp only [OpcodeRow.selects, mask_op_kk, beq_iff_eq] at h
  exact ⟨by simpa using congrArg opField h, by simpa using congrArg kkField h⟩

theorem eq_of_selects_all {p : Word} (h : (OpcodeRow.mk 0xFFFF#16 p).selects w = true) : w = p := by
  have hmask : w &&& 0xFFFF#16 = w := BitVec.and_allOnes
  simpa [OpcodeRow.selects, hmask] using h

/-- A word decodes to an instruction of the row. -/
def DecodesToRow (w : Word) (r : OpcodeRow) : Prop := ∃ i, decodeWord w = some i ∧ i.row = r

/-! What a row selects has the row's fixed fields, so the family's branch is known. -/

theorem decodesToRow_op5 (h : (OpcodeRow.mk 0xF00F#16 0x5000#16).selects w = true) :
    DecodesToRow w ⟨0xF00F, 0x5000⟩ := by
  obtain ⟨hop, hn⟩ := fields_of_selects_op_n (op := 0x5) (n := 0x0) h
  exact ⟨_, (decodeWord_op5 hop).trans (if_pos hn), rfl⟩

theorem decodesToRow_op9 (h : (OpcodeRow.mk 0xF00F#16 0x9000#16).selects w = true) :
    DecodesToRow w ⟨0xF00F, 0x9000⟩ := by
  obtain ⟨hop, hn⟩ := fields_of_selects_op_n (op := 0x9) (n := 0x0) h
  exact ⟨_, (decodeWord_op9 hop).trans (if_pos hn), rfl⟩

theorem decodesToRow_op8 {n : Nibble} (hn : n ∈ [0x0#4, 0x1#4, 0x2#4, 0x3#4, 0x4#4, 0x5#4, 0x6#4, 0x7#4, 0xE#4])
    (h : (OpcodeRow.mk 0xF00F#16 (packXYN 0x8#4 0 0 n)).selects w = true) :
    DecodesToRow w ⟨0xF00F, packXYN 0x8 0 0 n⟩ := by
  obtain ⟨hop, hnf⟩ := fields_of_selects_op_n h
  rw [DecodesToRow, decodeWord_op8 hop]
  simp only [List.mem_cons, List.not_mem_nil, or_false] at hn
  rcases hn with rfl | rfl | rfl | rfl | rfl | rfl | rfl | rfl | rfl <;>
    simp [decodeFamily8, hnf, Instr.row] <;> rfl

theorem decodesToRow_opE {kk : Byte} (hkk : kk ∈ [0x9E#8, 0xA1#8])
    (h : (OpcodeRow.mk 0xF0FF#16 (packXKK 0xE#4 0 kk)).selects w = true) :
    DecodesToRow w ⟨0xF0FF, packXKK 0xE 0 kk⟩ := by
  obtain ⟨hop, hkf⟩ := fields_of_selects_op_kk h
  rw [DecodesToRow, decodeWord_opE hop]
  simp only [List.mem_cons, List.not_mem_nil, or_false] at hkk
  rcases hkk with rfl | rfl <;> simp [decodeFamilyE, hkf, Instr.row] <;> rfl

theorem decodesToRow_opF {kk : Byte}
    (hkk : kk ∈ [0x07#8, 0x0A#8, 0x15#8, 0x18#8, 0x1E#8, 0x29#8, 0x33#8, 0x55#8, 0x65#8])
    (h : (OpcodeRow.mk 0xF0FF#16 (packXKK 0xF#4 0 kk)).selects w = true) :
    DecodesToRow w ⟨0xF0FF, packXKK 0xF 0 kk⟩ := by
  obtain ⟨hop, hkf⟩ := fields_of_selects_op_kk h
  rw [DecodesToRow, decodeWord_opF hop]
  simp only [List.mem_cons, List.not_mem_nil, or_false] at hkk
  rcases hkk with rfl | rfl | rfl | rfl | rfl | rfl | rfl | rfl | rfl <;>
    simp [decodeFamilyF, hkf, Instr.row] <;> rfl

/-- What one of rows 1 to 34 selects decodes to an instruction of that row: one line for each row, in its order. -/
theorem decodesToRow_of_selects {r : OpcodeRow} (hr : r ∈ opcodeRows34) (h : r.selects w = true) :
    DecodesToRow w r := by
  simp only [opcodeRows34, List.mem_append, List.mem_cons, List.not_mem_nil, or_false] at hr
  rcases hr with ((rfl | rfl | rfl | rfl | rfl | rfl | rfl | rfl | rfl | rfl | rfl | rfl) |
    (rfl | rfl | rfl | rfl | rfl | rfl | rfl | rfl | rfl | rfl | rfl)) |
    rfl | rfl | rfl | rfl | rfl | rfl | rfl | rfl | rfl | rfl | rfl
  · exact ⟨.cls, by rw [eq_of_selects_all h]; rfl, rfl⟩
  · exact ⟨.ret, by rw [eq_of_selects_all h]; rfl, rfl⟩
  · exact ⟨_, decodeWord_op1 (opField_of_selects (op := 0x1) h), rfl⟩
  · exact ⟨_, decodeWord_op2 (opField_of_selects (op := 0x2) h), rfl⟩
  · exact ⟨_, decodeWord_op3 (opField_of_selects (op := 0x3) h), rfl⟩
  · exact ⟨_, decodeWord_op4 (opField_of_selects (op := 0x4) h), rfl⟩
  · exact decodesToRow_op5 h
  · exact decodesToRow_op9 h
  · exact ⟨_, decodeWord_op6 (opField_of_selects (op := 0x6) h), rfl⟩
  · exact ⟨_, decodeWord_op7 (opField_of_selects (op := 0x7) h), rfl⟩
  · exact decodesToRow_op8 (n := 0x0) (by decide) h
  · exact decodesToRow_op8 (n := 0x1) (by decide) h
  · exact decodesToRow_op8 (n := 0x2) (by decide) h
  · exact decodesToRow_op8 (n := 0x3) (by decide) h
  · exact decodesToRow_op8 (n := 0x4) (by decide) h
  · exact decodesToRow_op8 (n := 0x5) (by decide) h
  · exact decodesToRow_op8 (n := 0x6) (by decide) h
  · exact decodesToRow_op8 (n := 0x7) (by decide) h
  · exact decodesToRow_op8 (n := 0xE) (by decide) h
  · exact ⟨_, decodeWord_opA (opField_of_selects (op := 0xA) h), rfl⟩
  · exact ⟨_, decodeWord_opB (opField_of_selects (op := 0xB) h), rfl⟩
  · exact ⟨_, decodeWord_opC (opField_of_selects (op := 0xC) h), rfl⟩
  · exact ⟨_, decodeWord_opD (opField_of_selects (op := 0xD) h), rfl⟩
  · exact decodesToRow_opE (kk := 0x9E) (by decide) h
  · exact decodesToRow_opE (kk := 0xA1) (by decide) h
  · exact decodesToRow_opF (kk := 0x07) (by decide) h
  · exact decodesToRow_opF (kk := 0x0A) (by decide) h
  · exact decodesToRow_opF (kk := 0x15) (by decide) h
  · exact decodesToRow_opF (kk := 0x18) (by decide) h
  · exact decodesToRow_opF (kk := 0x1E) (by decide) h
  · exact decodesToRow_opF (kk := 0x29) (by decide) h
  · exact decodesToRow_opF (kk := 0x33) (by decide) h
  · exact decodesToRow_opF (kk := 0x55) (by decide) h
  · exact decodesToRow_opF (kk := 0x65) (by decide) h

end rows

/-- The word of an instruction has the fixed bits of its row (R64). -/
theorem row_selects_encode (i : Instr) : i.row.selects (encode i) = true := by
  cases i with
  | cls => exact Laws.EncodingRow.cls
  | ret => exact Laws.EncodingRow.ret
  | jp a => exact Laws.EncodingRow.jp a
  | call a => exact Laws.EncodingRow.call a
  | seByte a b => exact Laws.EncodingRow.seByte a b
  | sneByte a b => exact Laws.EncodingRow.sneByte a b
  | seReg a b => exact Laws.EncodingRow.seReg a b
  | sneReg a b => exact Laws.EncodingRow.sneReg a b
  | ldByte a b => exact Laws.EncodingRow.ldByte a b
  | addByte a b => exact Laws.EncodingRow.addByte a b
  | ldReg a b => exact Laws.EncodingRow.ldReg a b
  | orReg a b => exact Laws.EncodingRow.orReg a b
  | andReg a b => exact Laws.EncodingRow.andReg a b
  | xorReg a b => exact Laws.EncodingRow.xorReg a b
  | addReg a b => exact Laws.EncodingRow.addReg a b
  | subReg a b => exact Laws.EncodingRow.subReg a b
  | shr a b => exact Laws.EncodingRow.shr a b
  | subnReg a b => exact Laws.EncodingRow.subnReg a b
  | shl a b => exact Laws.EncodingRow.shl a b
  | ldI a => exact Laws.EncodingRow.ldI a
  | jpV0 a => exact Laws.EncodingRow.jpV0 a
  | rnd a b => exact Laws.EncodingRow.rnd a b
  | drw a b c => exact Laws.EncodingRow.drw a b c
  | skp a => exact Laws.EncodingRow.skp a
  | sknp a => exact Laws.EncodingRow.sknp a
  | ldVxDt a => exact Laws.EncodingRow.ldVxDt a
  | ldVxK a => exact Laws.EncodingRow.ldVxK a
  | ldDtVx a => exact Laws.EncodingRow.ldDtVx a
  | ldStVx a => exact Laws.EncodingRow.ldStVx a
  | addI a => exact Laws.EncodingRow.addI a
  | ldF a => exact Laws.EncodingRow.ldF a
  | ldB a => exact Laws.EncodingRow.ldB a
  | storeRegs a => exact Laws.EncodingRow.storeRegs a
  | loadRegs a => exact Laws.EncodingRow.loadRegs a
  | sys a => exact Laws.EncodingRow.sys a

theorem row_mem_opcodeRows34 {i : Instr} (h : ∀ nnn, i ≠ .sys nnn) : i.row ∈ opcodeRows34 := by
  cases i with
  | sys nnn => exact absurd rfl (h nnn)
  | _ => simp [Instr.row, opcodeRows34]

/-- Settles O3: by `decodesToRow_of_selects`; and since the word of an instruction has the fixed bits of its row, a word
that none of rows 1 to 34 selects decodes to SYS or to nothing. -/
theorem decoderAgreesWithTheOpcodeTable : Obligations.DecoderAgreesWithTheOpcodeTable := by
  intro w
  refine ⟨fun r hr h => decodesToRow_of_selects hr h, fun hnone => ?_⟩
  cases hdec : decodeWord w with
  | none =>
    rw [if_neg]
    intro h35
    rw [decodeWord_op0 (opField_of_selects (op := 0x0) h35)] at hdec
    exact decodeFamily0_ne_none w hdec
  | some i =>
    obtain ⟨hw, -⟩ := encodeOfDecodeIsTheWord w i hdec
    have hsel : i.row.selects w = true := by rw [← hw]; exact row_selects_encode i
    by_cases hsys : ∃ nnn, i = .sys nnn
    · obtain ⟨nnn, rfl⟩ := hsys
      rw [if_pos (show opcodeRow35.selects w = true from hsel), ← hw]
      simp [encode]
    · have hrow := row_mem_opcodeRows34 fun nnn h => hsys ⟨nnn, h⟩
      rw [hnone _ hrow] at hsel
      cases hsel

end Sys2Proof
end

section
/-! PROOFS. Which items an instruction writes (spec/10_state.md rule R10), which error it raises
(spec/60_exceptions.md rule R150), and that every step but a late `load_rom` has a next state. -/

namespace Sys2Proof.Machine

open Sys2Proof.Safety

/-! ### What each effect with an error can do -/

theorem keySkip_cases (x : RegIdx) (p : Bool) (s : State) :
    (∃ k : Fin 16, (s.readV x).toNat = k.val ∧ keySkip x p s = .ok (s.skipIf (s.keys[k] == p))) ∨
      (15 < (s.readV x).toNat ∧ keySkip x p s = .error (.keyIndexOutOfRange (s.readV x))) := by
  unfold keySkip
  rcases keyOperand_cases s x with ⟨k, hk, hval⟩ | ⟨hk, hgt⟩
  · rw [hk]; exact .inl ⟨k, hval, rfl⟩
  · rw [hk]; exact .inr ⟨hgt, rfl⟩

theorem callEffect_cases (nnn : Addr12) (s : State) :
    (∃ _ : s.sp.val < 16, callEffect nnn s = .ok { s with
        stack := s.stack.set s.sp.val (s.pc + 2), sp := ⟨s.sp.val + 1, by omega⟩, pc := zext12 nnn }) ∨
      (s.sp = 16 ∧ callEffect nnn s = .error .stackOverflow) := by
  unfold callEffect
  rcases push_cases s (s.pc + 2) with ⟨hlt, hpush⟩ | ⟨hpush, hfull⟩
  · rw [hpush]; exact .inl ⟨hlt, rfl⟩
  · rw [hpush]; exact .inr ⟨hfull, rfl⟩

theorem retEffect_cases (s : State) :
    (∃ _ : 0 < s.sp.val, retEffect s = .ok { s with
        sp := ⟨s.sp.val - 1, by omega⟩, pc := s.stack[s.sp.val - 1]'(by omega) }) ∨
      (s.sp = 0 ∧ retEffect s = .error .stackUnderflow) := by
  unfold retEffect
  rcases pop_cases s with ⟨hlt, hpop⟩ | ⟨hpop, hempty⟩
  · rw [hpop]; exact .inl ⟨hlt, rfl⟩
  · rw [hpop]; exact .inr ⟨hempty, rfl⟩

theorem bcdEffect_cases (x : RegIdx) (s : State) :
    (∃ t, memWriteBlock s s.i (bcdDigits (s.readV x)) = .ok t ∧ firstOutside s 3 = none ∧
        bcdEffect x s = .ok t.advance) ∨
      (∃ e, firstOutside s 3 = some e ∧ bcdEffect x s = .error e) := by
  unfold bcdEffect
  rcases memWriteBlock_firstOutside s (bcdDigits (s.readV x)) with ⟨t, ht, hnone⟩ | ⟨e, he, hsome⟩
  · rw [ht]; exact .inl ⟨t, rfl, hnone, rfl⟩
  · rw [he]; exact .inr ⟨e, hsome, rfl⟩

theorem storeRegsEffect_cases (x : RegIdx) (s : State) :
    (∃ t, memWriteBlock s s.i (regsUpTo s x) = .ok t ∧ firstOutside s (x.val + 1) = none ∧
        storeRegsEffect x s = .ok (t.advanceI x).advance) ∨
      (∃ e, firstOutside s (x.val + 1) = some e ∧ storeRegsEffect x s = .error e) := by
  unfold storeRegsEffect
  rw [← regsUpTo_length s x]
  rcases memWriteBlock_firstOutside s (regsUpTo s x) with ⟨t, ht, hnone⟩ | ⟨e, he, hsome⟩
  · rw [ht]; exact .inl ⟨t, rfl, hnone, rfl⟩
  · rw [he]; exact .inr ⟨e, hsome, rfl⟩

theorem loadRegsEffect_cases (x : RegIdx) (s : State) :
    (∃ bs, memReadBlock s s.i (x.val + 1) = .ok bs ∧ firstOutside s (x.val + 1) = none ∧
        loadRegsEffect x s = .ok { s with
          v := loadRegsFrom s.v 0 bs, i := s.i + BitVec.ofNat 16 (x.val + 1), pc := s.pc + 2 }) ∨
      (∃ e, firstOutside s (x.val + 1) = some e ∧ loadRegsEffect x s = .error e) := by
  unfold loadRegsEffect
  rcases memReadBlock_firstOutside s (x.val + 1) with ⟨bs, hbs, hnone⟩ | ⟨e, he, hsome⟩
  · rw [hbs]; exact .inl ⟨bs, rfl, hnone, rfl⟩
  · rw [he]; exact .inr ⟨e, hsome, rfl⟩

/-- The framebuffer and the collision that DRW makes of the bytes it has read (R131). -/
def drawn (x y : RegIdx) (s : State) (bs : List Byte) : Framebuffer × Bool :=
  drawRows bs (s.readV y).toNat (s.readV x).toNat (s.fb, false)

theorem drawEffect_cases (x y : RegIdx) (n : Nibble) (s : State) :
    (∃ bs, memReadBlock s s.i (rowsDrawn (s.readV y) n) = .ok bs ∧
        firstOutside s (rowsDrawn (s.readV y) n) = none ∧
        drawEffect x y n s = .ok ((s.show (drawn x y s bs).1).setFlag (drawn x y s bs).2).advance) ∨
      (∃ e, firstOutside s (rowsDrawn (s.readV y) n) = some e ∧ drawEffect x y n s = .error e) := by
  unfold drawEffect
  rcases memReadBlock_firstOutside s (rowsDrawn (s.readV y) n) with ⟨bs, hbs, hnone⟩ | ⟨e, he, hsome⟩
  · rw [hbs]; exact .inl ⟨bs, rfl, hnone, rfl⟩
  · rw [he]; exact .inr ⟨e, hsome, rfl⟩

/-! ### The error table (R150) -/

/-- An effect raises an error exactly when the table gives it. -/
def FollowsErrorTable (i : Instr) (s : State) : Prop :=
  (∃ u, effect i s = .ok u ∧ errorOf i s = none) ∨ (∃ e, effect i s = .error e ∧ errorOf i s = some e)

theorem followsErrorTable (i : Instr) (s : State) : FollowsErrorTable i s := by
  cases i with
  | call nnn =>
    rcases callEffect_cases nnn s with ⟨hlt, hok⟩ | ⟨hfull, herr⟩
    · have hne : s.sp ≠ 16 := fun h => by rw [h] at hlt; exact absurd hlt (by decide)
      exact .inl ⟨_, hok, if_neg hne⟩
    · exact .inr ⟨_, herr, if_pos hfull⟩
  | ret =>
    rcases retEffect_cases s with ⟨hlt, hok⟩ | ⟨hempty, herr⟩
    · have hne : s.sp ≠ 0 := fun h => by rw [h] at hlt; exact absurd hlt (by decide)
      exact .inl ⟨_, hok, if_neg hne⟩
    · exact .inr ⟨_, herr, if_pos hempty⟩
  | skp x =>
    rcases keySkip_cases x true s with ⟨k, hk, hok⟩ | ⟨hgt, herr⟩
    · exact .inl ⟨_, hok, if_neg (by omega)⟩
    · exact .inr ⟨_, herr, if_pos hgt⟩
  | sknp x =>
    rcases keySkip_cases x false s with ⟨k, hk, hok⟩ | ⟨hgt, herr⟩
    · exact .inl ⟨_, hok, if_neg (by omega)⟩
    · exact .inr ⟨_, herr, if_pos hgt⟩
  | drw x y n =>
    rcases drawEffect_cases x y n s with ⟨bs, -, hnone, hok⟩ | ⟨e, hsome, herr⟩
    · exact .inl ⟨_, hok, hnone⟩
    · exact .inr ⟨e, herr, hsome⟩
  | ldB x =>
    rcases bcdEffect_cases x s with ⟨t, -, hnone, hok⟩ | ⟨e, hsome, herr⟩
    · exact .inl ⟨_, hok, hnone⟩
    · exact .inr ⟨e, herr, hsome⟩
  | storeRegs x =>
    rcases storeRegsEffect_cases x s with ⟨t, -, hnone, hok⟩ | ⟨e, hsome, herr⟩
    · exact .inl ⟨_, hok, hnone⟩
    · exact .inr ⟨e, herr, hsome⟩
  | loadRegs x =>
    rcases loadRegsEffect_cases x s with ⟨bs, -, hnone, hok⟩ | ⟨e, hsome, herr⟩
    · exact .inl ⟨_, hok, hnone⟩
    · exact .inr ⟨e, herr, hsome⟩
  | _ => exact .inl ⟨_, rfl, rfl⟩

theorem effect_ok_of_errorOf {i : Instr} {s : State} (h : errorOf i s = none) : ∃ u, effect i s = .ok u := by
  rcases followsErrorTable i s with ⟨u, hu, -⟩ | ⟨e, -, hsome⟩
  · exact ⟨u, hu⟩
  · rw [h] at hsome; cases hsome

theorem effect_error_of_errorOf {i : Instr} {s : State} {e : Err} (h : errorOf i s = some e) :
    effect i s = .error e := by
  rcases followsErrorTable i s with ⟨u, -, hnone⟩ | ⟨e', he, hsome⟩
  · rw [h] at hnone; cases hnone
  · rw [h] at hsome; cases hsome; exact he

/-! ### What an effect writes: the table of R10, read by instruction -/

/-- `u` differs from `s` only in the items that the instruction may write. -/
def Writes (i : Instr) (s u : State) : Prop :=
  match i with
  | .sys _ | .jp _ | .jpV0 _ | .seByte _ _ | .sneByte _ _ | .seReg _ _ | .sneReg _ _ | .skp _ | .sknp _ =>
    ∃ pc, u = { s with pc := pc }
  | .call _ => ∃ stack sp pc, u = { s with stack := stack, sp := sp, pc := pc }
  | .ret => ∃ sp pc, u = { s with sp := sp, pc := pc }
  | .ldByte _ _ | .addByte _ _ | .ldReg _ _ | .orReg _ _ | .andReg _ _ | .xorReg _ _ | .addReg _ _ | .subReg _ _
  | .shr _ _ | .subnReg _ _ | .shl _ _ | .ldVxDt _ | .ldVxK _ => ∃ v pc, u = { s with v := v, pc := pc }
  | .rnd _ _ => ∃ v pc, u = { s with v := v, draws := s.draws + 1, pc := pc }
  | .ldDtVx _ => ∃ dt pc, u = { s with dt := dt, pc := pc }
  | .ldStVx _ => ∃ st pc, u = { s with st := st, pc := pc }
  | .ldI _ | .addI _ | .ldF _ => ∃ a pc, u = { s with i := a, pc := pc }
  | .ldB _ => ∃ m pc, u = { s with mem := m, pc := pc }
  | .storeRegs _ => ∃ m a pc, u = { s with mem := m, i := a, pc := pc }
  | .loadRegs _ => ∃ v a pc, u = { s with v := v, i := a, pc := pc }
  | .cls => ∃ fb pc, u = { s with fb := fb, drawFlag := true, pc := pc }
  | .drw _ _ _ => ∃ v fb pc, u = { s with v := v, fb := fb, drawFlag := true, pc := pc }

theorem State.resetFlagIfLogic_writes (s : State) : ∃ v, s.resetFlagIfLogic = { s with v := v } := by
  rw [State.resetFlagIfLogic_eq]
  split
  · exact ⟨_, rfl⟩
  · exact ⟨s.v, rfl⟩

/-- A logic operation: the result, perhaps the flag, and `PC`. -/
theorem logic_writes (s : State) (x : RegIdx) (b : Byte) :
    ∃ v pc, (s.setV x b).resetFlagIfLogic.advance = { s with v := v, pc := pc } := by
  obtain ⟨v, hv⟩ := (s.setV x b).resetFlagIfLogic_writes
  exact ⟨v, s.pc + 2, by rw [hv]; rfl⟩

theorem effect_writes {i : Instr} {s u : State} (h : effect i s = .ok u) : Writes i s u := by
  cases i with
  | sys | jp | jpV0 | seByte | sneByte | seReg | sneReg => cases h; exact ⟨_, rfl⟩
  | skp x | sknp x =>
    rcases keySkip_cases x _ s with ⟨k, -, hok⟩ | ⟨-, herr⟩
    · cases h.symm.trans hok; exact ⟨_, rfl⟩
    · cases h.symm.trans herr
  | call nnn =>
    rcases callEffect_cases nnn s with ⟨hlt, hok⟩ | ⟨-, herr⟩
    · cases h.symm.trans hok; exact ⟨_, _, _, rfl⟩
    · cases h.symm.trans herr
  | ret =>
    rcases retEffect_cases s with ⟨hlt, hok⟩ | ⟨-, herr⟩
    · cases h.symm.trans hok; exact ⟨_, _, rfl⟩
    · cases h.symm.trans herr
  | ldByte | addByte | ldReg | addReg | subReg | shr | subnReg | shl | ldVxDt | rnd =>
    cases h; exact ⟨_, _, rfl⟩
  | orReg | andReg | xorReg => cases h; exact logic_writes ..
  | ldVxK x =>
    cases h
    cases lowestKey s.keys with
    | none => exact ⟨s.v, s.pc, rfl⟩
    | some k => exact ⟨_, _, rfl⟩
  | ldDtVx | ldStVx | ldI | addI | ldF | cls => cases h; exact ⟨_, _, rfl⟩
  | ldB x =>
    rcases bcdEffect_cases x s with ⟨t, ht, -, hok⟩ | ⟨e, -, herr⟩
    · cases h.symm.trans hok
      obtain ⟨⟨m, rfl⟩, -⟩ := memWriteBlock_frame ht
      exact ⟨m, _, rfl⟩
    · cases h.symm.trans herr
  | storeRegs x =>
    rcases storeRegsEffect_cases x s with ⟨t, ht, -, hok⟩ | ⟨e, -, herr⟩
    · cases h.symm.trans hok
      obtain ⟨⟨m, rfl⟩, -⟩ := memWriteBlock_frame ht
      exact ⟨m, _, _, rfl⟩
    · cases h.symm.trans herr
  | loadRegs x =>
    rcases loadRegsEffect_cases x s with ⟨bs, -, -, hok⟩ | ⟨e, -, herr⟩
    · cases h.symm.trans hok; exact ⟨_, _, _, rfl⟩
    · cases h.symm.trans herr
  | drw x y n =>
    rcases drawEffect_cases x y n s with ⟨bs, -, -, hok⟩ | ⟨e, -, herr⟩
    · cases h.symm.trans hok; exact ⟨_, _, _, rfl⟩
    · cases h.symm.trans herr

/-! ### The same table, read by item -/

/-- Each item is as before unless the instruction is one of those that R10 names for it. -/
structure ItemsKept (i : Instr) (s t : State) : Prop where
  outside : SameOutside s t
  mem : (∀ x, i ≠ .ldB x) → (∀ x, i ≠ .storeRegs x) → t.mem = s.mem
  index : (∀ n, i ≠ .ldI n) → (∀ x, i ≠ .addI x) → (∀ x, i ≠ .ldF x) → (∀ x, i ≠ .storeRegs x) →
    (∀ x, i ≠ .loadRegs x) → t.i = s.i
  stack : (∀ n, i ≠ .call n) → t.stack = s.stack
  sp : (∀ n, i ≠ .call n) → i ≠ .ret → t.sp = s.sp
  dt : (∀ x, i ≠ .ldDtVx x) → t.dt = s.dt
  st : (∀ x, i ≠ .ldStVx x) → t.st = s.st
  screen : i ≠ .cls → (∀ x y n, i ≠ .drw x y n) → SameScreen s t
  draws : (∀ x k, i ≠ .rnd x k) → t.draws = s.draws

theorem itemsKept_of_writes {i : Instr} {s u : State} (h : Writes i s u) : ItemsKept i s u := by
  cases i
  case sys | jp | jpV0 | seByte | sneByte | seReg | sneReg | skp | sknp =>
    obtain ⟨pc, rfl⟩ := h
    constructor <;> simp [SameOutside, SameScreen]
  case storeRegs | loadRegs | call | drw =>
    obtain ⟨a, b, pc, rfl⟩ := h
    constructor <;> simp [SameOutside, SameScreen]
  all_goals
    obtain ⟨a, pc, rfl⟩ := h
    constructor <;> simp [SameOutside, SameScreen]

theorem itemsKept_halted (i : Instr) (s : State) (w : Word) (e : Err) : ItemsKept i s (s.halted w e) := by
  constructor <;> simp [SameOutside, SameScreen]

theorem exec_itemsKept {i : Instr} {s t : State} (h : exec i s = .next t) : ItemsKept i s t := by
  rcases exec_cases h with ⟨u, hu, rfl⟩ | ⟨e, -, rfl⟩
  · -- returning the record writes none of the items
    obtain ⟨houtside, hmem, hindex, hstack, hsp, hdt, hst, hscreen, hdraws⟩ := itemsKept_of_writes (effect_writes hu)
    exact ⟨houtside, hmem, hindex, hstack, hsp, hdt, hst, hscreen, hdraws⟩
  · exact itemsKept_halted ..

/-- Settles O12: `exec_itemsKept`, with the memory read at every address. -/
theorem stateIsWrittenOnlyByItsInstructions : Obligations.StateIsWrittenOnlyByItsInstructions := by
  intro i s t h
  obtain ⟨houtside, hmem, hindex, hstack, hsp, hdt, hst, hscreen, hdraws⟩ := exec_itemsKept h
  have hcfg : t.cfg = s.cfg := houtside.2.1
  exact ⟨houtside, fun h1 h2 a => by rw [State.peek, hmem h1 h2, hcfg]; rfl, hindex, hstack, hsp, hdt, hst, hscreen,
    hdraws⟩

/-- An effect leaves the status registers alone: only the end of the cycle writes them (R21). -/
theorem effect_sameStatus {i : Instr} {s u : State} (h : effect i s = .ok u) : SameStatus s u := by
  have hw := effect_writes h
  cases i
  case sys | jp | jpV0 | seByte | sneByte | seReg | sneReg | skp | sknp =>
    obtain ⟨pc, rfl⟩ := hw
    exact ⟨rfl, rfl, rfl, rfl⟩
  case storeRegs | loadRegs | call | drw =>
    obtain ⟨a, b, pc, rfl⟩ := hw
    exact ⟨rfl, rfl, rfl, rfl⟩
  all_goals
    obtain ⟨a, pc, rfl⟩ := hw
    exact ⟨rfl, rfl, rfl, rfl⟩

/-! ### The two ends of a cycle (R30, R156) -/

theorem sameButStatus_halted (s : State) (w : Word) (e : Err) : SameButStatus s (s.halted w e) :=
  ⟨rfl, rfl, rfl, rfl, ⟨rfl, rfl⟩, ⟨rfl, rfl⟩, ⟨rfl, rfl⟩, ⟨rfl, rfl, rfl, rfl⟩, rfl⟩

theorem exec_of_errorOf_some {i : Instr} {s : State} {e : Err} (h : errorOf i s = some e) :
    exec i s = .next (s.halted (encode i) e) := by
  rw [exec_eq_finish, effect_error_of_errorOf h, finish_error]

/-- An instruction that the table gives an error halts the core and keeps the rest (R156). -/
theorem exec_halts {i : Instr} {s : State} {e : Err} (h : errorOf i s = some e) :
    ∃ t, exec i s = .next t ∧ SameButStatus s t ∧ t.halt = true ∧ t.errCause = e.code ∧ t.errOpcode = encode i ∧
      t.errPc = s.pc ∧ t.reply = .cycleDone ⟨false, encode i, e.code, e.info⟩ :=
  ⟨_, exec_of_errorOf_some h, sameButStatus_halted .., rfl, rfl, rfl, rfl, rfl⟩

/-- Settles O11: an effect follows the table, and the two ends of a cycle do the rest. -/
theorem instructionsRaiseExactlyTheTabledErrors : Obligations.InstructionsRaiseExactlyTheTabledErrors := by
  intro i s
  cases h : errorOf i s with
  | some e => exact exec_halts h
  | none =>
    obtain ⟨u, hu⟩ := effect_ok_of_errorOf h
    have hstatus : SameStatus s u := effect_sameStatus hu
    exact ⟨_, exec_of_effect_ok hu, hstatus, rfl⟩

/-! ### Every step but a late load has a next state -/

theorem exec_next (i : Instr) (s : State) : ∃ t, exec i s = .next t := by
  rw [exec_eq_finish]; exact finish_next ..

theorem unrecognised_next (w : Word) (s : State) : ∃ t, unrecognised w s = .next t := by
  unfold unrecognised
  split
  · exact ⟨_, rfl⟩
  · exact ⟨_, rfl⟩

theorem cycle_next (s : State) : ∃ t, cycle s = .next t := by
  rcases cycle_cases s with ⟨-, h⟩ | ⟨-, ⟨e, -, h⟩ | ⟨w, -, -, h⟩ | ⟨w, i, -, -, h⟩⟩
  · exact ⟨_, h⟩
  · exact ⟨_, h⟩
  · rw [h]; exact unrecognised_next ..
  · rw [h]; exact exec_next ..

/-- `load_rom` is refused outside its time and answers otherwise (R28, R183). -/
theorem loadRomEvent_cases (bs : List Byte) (s : State) :
    (s.loadable = true ∧ bs.length ≤ romMax ∧
        loadRomEvent bs s =
          .next (({ pokeBytes s romBase bs with loadable := false } : State).answer (.romLoaded true))) ∨
      (s.loadable = true ∧ romMax < bs.length ∧
        loadRomEvent bs s = .next (({ s with loadable := false } : State).answer (.romLoaded false))) ∨
      (s.loadable = false ∧ loadRomEvent bs s = .refused .loadRomOutsideBoot) := by
  unfold loadRomEvent
  split
  · next hl =>
    split
    · next hle => exact .inl ⟨hl, hle, rfl⟩
    · next hgt => exact .inr (.inl ⟨hl, by omega, rfl⟩)
  · next hl => exact .inr (.inr ⟨by simpa using hl, rfl⟩)

/-- Settles O10: a cycle always has a next state, and of the host's actions only `load_rom` can be refused. -/
theorem onlyALateLoadIsRefused : Obligations.OnlyALateLoadIsRefused := by
  intro s
  cases he : s.nextEvent with
  | cycle => rw [step_of_nextEvent he]; exact .inl (cycle_next _)
  | loadRom bs =>
    rw [step_of_nextEvent he, runEvent]
    rcases loadRomEvent_cases bs s.takeEvent with ⟨-, -, h⟩ | ⟨-, -, h⟩ | ⟨hl, h⟩
    · exact .inl ⟨_, h⟩
    · exact .inl ⟨_, h⟩
    · exact .inr ⟨h, hl, bs, rfl⟩
  | _ => rw [step_of_nextEvent he]; exact .inl ⟨_, rfl⟩

end Sys2Proof.Machine
end

section
/-! PROOFS. The flag register (spec/10_state.md rule R13, spec/42_alu.md rule R100), and the ALU, random and index
instructions (rules R103 to R112, R121, R122). -/

namespace Sys2Proof.Machine

open Sys2Proof.Safety

/-! ### The state after an instruction whose effect is known -/

theorem eq_answer_of_effect {i : Instr} {s t u : State} (hu : effect i s = .ok u) (h : exec i s = .next t) :
    t = u.answer (.cycleDone ⟨changesScreen i, encode i, 0, 0⟩) := by
  rw [exec_of_effect_ok hu] at h
  exact (Host.Outcome.next.inj h).symm

theorem returned_of_effect {i : Instr} {s t u : State} (hu : effect i s = .ok u) (h : exec i s = .next t) :
    Returned t (changesScreen i) (encode i) := by
  rw [eq_answer_of_effect hu h]; rfl

theorem readV_of_effect {i : Instr} {s t u : State} (hu : effect i s = .ok u) (h : exec i s = .next t)
    (r : RegIdx) : t.readV r = u.readV r := by
  rw [eq_answer_of_effect hu h]; rfl

/-! ### The values of the flags, as numbers -/

theorem flagByte_decide (p : Prop) [Decidable p] : flagByte (decide p) = if p then 1 else 0 := by
  simp only [flagByte, decide_eq_true_eq]

theorem flagByte_subNoBorrow (a b : Byte) :
    flagByte (subNoBorrow a b) = if b.toNat ≤ a.toNat then 1 else 0 := flagByte_decide _

theorem flagByte_addCarry (a b : Byte) :
    flagByte (addCarry a b) = if 255 < a.toNat + b.toNat then 1 else 0 := flagByte_decide _

/-- The lowest bit of a byte. -/
theorem flagByte_shrFlag_toNat (b : Byte) : (flagByte (shrFlag b)).toNat = b.toNat % 2 := by
  rw [flagByte_toNat, shrFlag, BitVec.getLsbD, Nat.testBit_zero]
  rcases Nat.mod_two_eq_zero_or_one b.toNat with h | h <;> simp [h]

/-- The highest bit of a byte. -/
theorem flagByte_shlFlag_toNat (b : Byte) : (flagByte (shlFlag b)).toNat = b.toNat / 128 := by
  have hb := b.isLt
  rw [flagByte_toNat, shlFlag, BitVec.getLsbD, Nat.testBit_eq_decide_div_mod_eq]
  rcases (show b.toNat / 128 = 0 ∨ b.toNat / 128 = 1 by omega) with h | h <;> simp [h]

theorem flagByte_cases (c : Bool) : flagByte c = 0 ∨ flagByte c = 1 := by
  cases c
  · exact .inl rfl
  · exact .inr rfl

/-! ### VF after an instruction (R13) -/

/-- Without LOGIC_VF_RESET the flag step does nothing; with it, it writes 0 last (R103 to R105). -/
theorem State.resetFlagIfLogic_of_false {s : State} (h : s.cfg.logicVfReset = false) : s.resetFlagIfLogic = s := by
  rw [State.resetFlagIfLogic_eq, h]; rfl

theorem State.resetFlagIfLogic_of_true {s : State} (h : s.cfg.logicVfReset = true) :
    s.resetFlagIfLogic = s.setFlag false := by
  rw [State.resetFlagIfLogic, if_pos h]

/-- A logic operation under LOGIC_VF_RESET is a result and the flag 0. -/
theorem logic_effect_of_true {i : Instr} {s : State} {x : RegIdx} {b : Byte}
    (hi : effect i s = .ok (s.setV x b).resetFlagIfLogic.advance) (h : s.cfg.logicVfReset = true) :
    effect i s = .ok (s.setResult x b false).advance := by
  rw [hi, State.resetFlagIfLogic_of_true (s := s.setV x b) h]; rfl

/-- A logic operation without LOGIC_VF_RESET is a write of one register. -/
theorem logic_effect_of_false {i : Instr} {s : State} {x : RegIdx} {b : Byte}
    (hi : effect i s = .ok (s.setV x b).resetFlagIfLogic.advance) (h : s.cfg.logicVfReset = false) :
    effect i s = .ok (s.setV x b).advance := by
  rw [hi, State.resetFlagIfLogic_of_false (s := s.setV x b) h]

theorem logic_flag {i : Instr} {s t : State} {x : RegIdx} {b : Byte} (h : exec i s = .next t)
    (hi : effect i s = .ok (s.setV x b).resetFlagIfLogic.advance) :
    (s.cfg.logicVfReset = true → t.readV 15 = 0) ∧
      (s.cfg.logicVfReset = false → x ≠ 15 → t.readV 15 = s.readV 15) := by
  refine ⟨fun hc => ?_, fun hc hx => ?_⟩
  · rw [readV_of_effect (logic_effect_of_true hi hc) h]
    exact s.setResult_readV_flag x b false
  · rw [readV_of_effect (logic_effect_of_false hi hc) h]
    exact State.readV_setV_ne s b hx.symm

theorem setResult_flag {i : Instr} {s t : State} {x : RegIdx} {b : Byte} {c : Bool} (h : exec i s = .next t)
    (hi : effect i s = .ok (s.setResult x b c).advance) : t.readV 15 = flagByte c := by
  rw [readV_of_effect hi h]
  exact s.setResult_readV_flag x b c

theorem setV_flag {i : Instr} {s t : State} {x : RegIdx} {b : Byte} (h : exec i s = .next t)
    (hi : effect i s = .ok (s.setV x b).advance) (hx : x ≠ 15) : t.readV 15 = s.readV 15 := by
  rw [readV_of_effect hi h]
  exact State.readV_setV_ne s b hx.symm

/-- An instruction that writes no register leaves them all alone, when it raises an error too. -/
theorem readV_of_sameRegs {i : Instr} {s t : State} (h : exec i s = .next t)
    (hi : ∀ u, effect i s = .ok u → u.v = s.v) (r : RegIdx) : t.readV r = s.readV r := by
  rcases exec_cases h with ⟨u, hu, rfl⟩ | ⟨e, -, rfl⟩
  · rw [State.answer_readV, State.readV, hi u hu]; rfl
  · rfl

theorem ldVxK_flag {x : RegIdx} {s t : State} (h : exec (.ldVxK x) s = .next t) (hx : x ≠ 15) :
    t.readV 15 = s.readV 15 := by
  rw [readV_of_effect (i := .ldVxK x) rfl h]
  cases lowestKey s.keys with
  | none => rfl
  | some k => exact State.readV_setV_ne s _ hx.symm

/-- The registers above `x` are not loaded (R125). -/
theorem loadRegsFrom_above {v : Vector Byte 16} {bs : List Byte} {r : RegIdx} (h : bs.length ≤ r.val) :
    (loadRegsFrom v 0 bs)[r] = v[r] := by
  rw [loadRegsFrom_get, if_pos (Nat.zero_le _), List.getD_eq_getElem?_getD, List.getElem?_eq_none (by omega),
    Option.getD_none]

theorem loadRegs_flag {x : RegIdx} {s t : State} (h : exec (.loadRegs x) s = .next t) (hx : x ≠ 15) :
    t.readV 15 = s.readV 15 := by
  refine (exec_cases h).elim (fun ⟨u, hu, ht⟩ => ?_) (fun ⟨e, _, ht⟩ => by rw [ht]; rfl)
  rcases loadRegsEffect_cases x s with ⟨bs, hbs, -, hok⟩ | ⟨e, -, herr⟩
  · cases hu.symm.trans hok
    have hlen := (memReadBlock_ok hbs).1
    have hlt : x.val < 15 := by
      have := Fin.val_ne_of_ne hx
      have := x.isLt
      omega
    rw [ht]
    exact loadRegsFrom_above (r := 15) (by rw [hlen]; exact hlt)
  · cases hu.symm.trans herr

theorem drw_flag {x y : RegIdx} {n : Nibble} {s t : State} (h : exec (.drw x y n) s = .next t) :
    (errorOf (.drw x y n) s = none → t.readV 15 = 0 ∨ t.readV 15 = 1) ∧
      (errorOf (.drw x y n) s ≠ none → t.readV 15 = s.readV 15) := by
  rcases drawEffect_cases x y n s with ⟨bs, -, hnone, hok⟩ | ⟨e, hsome, herr⟩
  · refine ⟨fun _ => ?_, fun hne => absurd hnone hne⟩
    rw [readV_of_effect (i := .drw x y n) hok h, State.advance_eq, State.setPc_readV, State.setFlag_eq,
      show (15 : RegIdx) = regF from rfl, State.readV_setV_same]
    exact flagByte_cases _
  · have hsome' : errorOf (.drw x y n) s = some e := hsome
    refine ⟨fun hnone => absurd (hsome'.symm.trans hnone) (by simp), fun _ => ?_⟩
    rw [exec_of_errorOf_some hsome'] at h
    cases h; rfl

/-- Settles O13: by the form of each instruction's effect. -/
theorem flagIsWrittenOnlyByItsInstructions : Obligations.FlagIsWrittenOnlyByItsInstructions := by
  intro i s t h
  cases i
  case orReg | andReg | xorReg => exact logic_flag h rfl
  case addReg => exact (setResult_flag h rfl).trans (flagByte_addCarry _ _)
  case subReg | subnReg => exact (setResult_flag h rfl).trans (flagByte_subNoBorrow _ _)
  case shr => exact (congrArg BitVec.toNat (setResult_flag h rfl)).trans (flagByte_shrFlag_toNat _)
  case shl => exact (congrArg BitVec.toNat (setResult_flag h rfl)).trans (flagByte_shlFlag_toNat _)
  case drw => exact drw_flag h
  case ldByte | addByte | ldReg | ldVxDt => exact setV_flag h rfl
  case rnd x kk => exact fun hx => (readV_of_effect (i := .rnd x kk) rfl h 15).trans (State.readV_setV_ne _ _ hx.symm)
  case ldVxK => exact ldVxK_flag h
  case loadRegs => exact loadRegs_flag h
  case sys | jp | jpV0 | seByte | sneByte | seReg | sneReg | skp | sknp =>
    exact readV_of_sameRegs h (fun u hu => by obtain ⟨pc, rfl⟩ := effect_writes hu; rfl) 15
  case storeRegs | call =>
    exact readV_of_sameRegs h (fun u hu => by obtain ⟨a, b, pc, rfl⟩ := effect_writes hu; rfl) 15
  all_goals
    exact readV_of_sameRegs h (fun u hu => by obtain ⟨a, pc, rfl⟩ := effect_writes hu; rfl) 15

/-! ### The ALU (R103 to R110) -/

/-- Settles O24: under LOGIC_VF_RESET the effect is a result and the flag 0, otherwise a write of one register. -/
theorem logicComputesBitwiseResults : Obligations.LogicComputesBitwiseResults := by
  intro x y s i r h
  have hi : effect i s = .ok (s.setV x r).resetFlagIfLogic.advance := by
    rcases h with ⟨rfl, rfl⟩ | ⟨rfl, rfl⟩ | ⟨rfl, rfl⟩ <;> rfl
  have hchanged : changesScreen i = false := by
    rcases h with ⟨rfl, -⟩ | ⟨rfl, -⟩ | ⟨rfl, -⟩ <;> rfl
  cases hc : s.cfg.logicVfReset with
  | true =>
    obtain ⟨t, hexec, hresult, hflag, hregs, hpc, hidx, hframe⟩ :=
      exec_of_effect_setResult (logic_effect_of_true hi hc)
    have hret := returned_of_effect hi hexec
    rw [hchanged] at hret
    exact ⟨t, hexec, fun _ => ⟨hflag, hresult, hregs⟩, fun hf => (by cases hf), hpc, hidx, hframe, hret⟩
  | false =>
    obtain ⟨t, hexec, hresult, hregs, hpc, hidx, hframe⟩ := exec_of_effect_setV (logic_effect_of_false hi hc)
    have hret := returned_of_effect hi hexec
    rw [hchanged] at hret
    exact ⟨t, hexec, fun hf => (by cases hf), fun _ => ⟨hresult, hregs⟩, hpc, hidx, hframe, hret⟩

theorem subResult_toNat (a b : Byte) :
    (subResult a b).toNat = if b.toNat ≤ a.toNat then a.toNat - b.toNat else 256 + a.toNat - b.toNat := by
  have ha := a.isLt
  have hb := b.isLt
  rw [subResult, BitVec.toNat_ofInt]
  split <;> omega

theorem flagByte_subNoBorrow_toNat (a b : Byte) :
    (flagByte (subNoBorrow a b)).toNat = if b.toNat ≤ a.toNat then 1 else 0 := by
  rw [flagByte_subNoBorrow]; split <;> rfl

/-- An instruction whose effect is a difference and its no-borrow flag (R107, R109). -/
theorem exec_of_effect_subtract {i : Instr} {s : State} {x : RegIdx} {a b : Byte}
    (hi : effect i s = .ok (s.setResult x (subResult a b) (subNoBorrow a b)).advance) :
    ∃ t, exec i s = .next t ∧
      (x ≠ 15 → (t.readV x).toNat = (if b.toNat ≤ a.toNat then a.toNat - b.toNat else 256 + a.toNat - b.toNat)) ∧
      (t.readV 15).toNat = (if b.toNat ≤ a.toNat then 1 else 0) ∧
      SameRegsBut [x, 15] s t ∧ t.pc = s.pc + 2 ∧ t.i = s.i ∧ RegisterFrame s t ∧
      Returned t (changesScreen i) (encode i) := by
  obtain ⟨t, hexec, hresult, hflag, hregs, hpc, hidx, hframe⟩ := exec_of_effect_setResult hi
  exact ⟨t, hexec, fun hx => by rw [hresult hx, subResult_toNat],
    (congrArg BitVec.toNat hflag).trans (flagByte_subNoBorrow_toNat a b), hregs, hpc, hidx, hframe,
    returned_of_effect hi hexec⟩

/-- Settles O26: both directions are a difference and its no-borrow flag. -/
theorem subtractionsSetNoBorrow : Obligations.SubtractionsSetNoBorrow := by
  intro x y s i a b h
  rcases h with ⟨rfl, rfl, rfl⟩ | ⟨rfl, rfl, rfl⟩
  · exact exec_of_effect_subtract (i := .subReg x y) rfl
  · exact exec_of_effect_subtract (i := .subnReg x y) rfl

theorem shrResult_toNat (a : Byte) : (shrResult a).toNat = a.toNat / 2 := by
  have := a.isLt
  rw [shrResult, BitVec.toNat_ofNat, Nat.mod_eq_of_lt (by omega)]

theorem shlResult_toNat (a : Byte) : (shlResult a).toNat = 2 * a.toNat % 256 := BitVec.toNat_ofNat _ _

/-- Settles O27: both shifts are a result and the bit shifted out, of the same register. -/
theorem shiftsMoveOneBitIntoTheFlag : Obligations.ShiftsMoveOneBitIntoTheFlag := by
  intro x y s
  refine ⟨?shr, ?shl⟩
  case shr =>
    obtain ⟨t, hexec, hresult, hflag, hregs, hpc, hidx, hframe⟩ :=
      exec_of_effect_setResult (i := .shr x y) (s := s) rfl
    exact ⟨t, hexec, fun hx => by rw [hresult hx, shrResult_toNat],
      (congrArg BitVec.toNat hflag).trans (flagByte_shrFlag_toNat _), hregs, hpc, hidx, hframe,
      returned_of_effect (i := .shr x y) rfl hexec⟩
  case shl =>
    obtain ⟨t, hexec, hresult, hflag, hregs, hpc, hidx, hframe⟩ :=
      exec_of_effect_setResult (i := .shl x y) (s := s) rfl
    exact ⟨t, hexec, fun hx => by rw [hresult hx, shlResult_toNat],
      (congrArg BitVec.toNat hflag).trans (flagByte_shlFlag_toNat _), hregs, hpc, hidx, hframe,
      returned_of_effect (i := .shl x y) rfl hexec⟩

/-! ### RND (R112) -/

theorem and_mask_outside (b kk : Byte) : b &&& kk &&& ~~~kk = 0 := by
  rw [BitVec.and_assoc, BitVec.and_not_self]
  exact BitVec.and_zero

/-- Settles O28: the effect draws one byte and writes one register. -/
theorem randomKeepsOnlyTheMaskedBits : Obligations.RandomKeepsOnlyTheMaskedBits := by
  intro x kk s
  have hread : ((drawRandom s).2.setV x (Config.rnd s.draws &&& kk)).readV x = Config.rnd s.draws &&& kk :=
    State.readV_setV_same _ x _
  have hmask := and_mask_outside (Config.rnd s.draws) kk
  rw [← hread] at hmask
  have hregs : SameRegsBut [x] s ((drawRandom s).2.setV x (Config.rnd s.draws &&& kk)) :=
    sameRegsBut_setV (drawRandom s).2 x _
  exact ⟨_, exec_of_effect_ok (i := .rnd x kk) rfl, hread, hmask, rfl, hregs, rfl, rfl, fun _ => rfl, ⟨rfl, rfl⟩,
    ⟨rfl, rfl⟩, ⟨rfl, rfl⟩, ⟨rfl, rfl, rfl, rfl⟩, ⟨rfl, rfl, rfl, rfl⟩, rfl⟩

/-! ### The index register (R121, R122) -/

theorem add_zext8_toNat (a : Word) (b : Byte) : (a + zext8 b).toNat = (a.toNat + b.toNat) % 65536 := by
  rw [BitVec.toNat_add, zext8_toNat]

theorem glyphAddress_toNat (b : Byte) : (glyphAddress b).toNat = 0x050 + 5 * b.toNat := by
  have hb := b.isLt
  have h50 : (0x0050 : Word).toNat = 0x050 := rfl
  have h5 : (5 : Word).toNat = 5 := rfl
  rw [glyphAddress, BitVec.toNat_add, BitVec.toNat_mul, zext8_toNat, h50, h5]
  omega

/-- Settles O30: the effect of both is a write of `I`. -/
theorem indexArithmeticIsSixteenBits : Obligations.IndexArithmeticIsSixteenBits := by
  intro x s
  refine ⟨?addI, ?ldF⟩
  case addI =>
    obtain ⟨t, hexec, hi, hframe⟩ := exec_of_effect_setI (i := .addI x) (s := s) rfl
    exact ⟨t, hexec, by rw [hi, add_zext8_toNat], hframe⟩
  case ldF =>
    obtain ⟨t, hexec, hi, hframe⟩ := exec_of_effect_setI (i := .ldF x) (s := s) rfl
    exact ⟨t, hexec, by rw [hi, glyphAddress_toNat], hframe⟩

end Sys2Proof.Machine
end

section
/-! PROOFS. The call stack, the key tests and the key wait (spec/40_control.md rules R81, R83, spec/41_skip.md rules
R94, R95, spec/45_timer_key.md rule R141, spec/60_exceptions.md rules R152, R153, R157). -/

namespace Sys2Proof.Machine

open Sys2Proof.Safety

/-! ### The call stack (R81, R83) -/

theorem callEffect_of_lt (nnn : Addr12) {s : State} (h : s.sp.val < 16) :
    effect (.call nnn) s = .ok { s with
      stack := s.stack.set s.sp.val (s.pc + 2), sp := ⟨s.sp.val + 1, by omega⟩, pc := zext12 nnn } := by
  rcases callEffect_cases nnn s with ⟨_, hok⟩ | ⟨hfull, -⟩
  · exact hok
  · rw [hfull] at h; exact absurd h (by decide)

theorem retEffect_of_pos {s : State} (h : 0 < s.sp.val) :
    effect .ret s = .ok { s with
      sp := ⟨s.sp.val - 1, by omega⟩, pc := s.stack[s.sp.val - 1]'(by omega) } := by
  rcases retEffect_cases s with ⟨_, hok⟩ | ⟨hempty, -⟩
  · exact hok
  · rw [hempty] at h; exact absurd h (by decide)

/-- Settles O15: the effect of CALL below 16 entries, with the other slots read past the write. -/
theorem callPushesTheNextAddress : Obligations.CallPushesTheNextAddress := by
  intro nnn s h
  have hother : ∀ k : Fin 16, k.val ≠ s.sp.val → (s.stack.set s.sp.val (s.pc + 2))[k] = s.stack[k] :=
    fun k hk => Vector.getElem_set_ne h k.isLt hk.symm
  exact ⟨_, exec_of_effect_ok (callEffect_of_lt nnn h), zext12_toNat nnn, rfl, Vector.getElem_set_self h, hother,
    fun _ _ => rfl, rfl, fun _ => rfl, ⟨rfl, rfl⟩, ⟨rfl, rfl⟩, ⟨rfl, rfl, rfl, rfl⟩, ⟨rfl, rfl, rfl, rfl⟩, rfl, rfl⟩

/-- Settles O16: the effect of RET with an entry on the stack. -/
theorem returnPopsTheLastAddress : Obligations.ReturnPopsTheLastAddress := fun _ h =>
  ⟨_, exec_of_effect_ok (retEffect_of_pos h), rfl, rfl, rfl, fun _ _ => rfl, rfl, fun _ => rfl, ⟨rfl, rfl⟩, ⟨rfl, rfl⟩,
    ⟨rfl, rfl, rfl, rfl⟩, ⟨rfl, rfl, rfl, rfl⟩, rfl, rfl⟩

/-- Settles O17: the slot that the CALL wrote is the highest live one, so it is the one that the RET reads. -/
theorem callThenReturnComesBack : Obligations.CallThenReturnComesBack := by
  intro nnn s t u v hlt hcall hsp hlive hret
  obtain rfl := eq_answer_of_effect (callEffect_of_lt nnn hlt) hcall
  have husp : u.sp.val = s.sp.val + 1 := congrArg Fin.val hsp
  obtain rfl := eq_answer_of_effect (retEffect_of_pos (s := u) (by omega)) hret
  have hslot : u.stack[s.sp.val] = (s.stack.set s.sp.val (s.pc + 2))[s.sp.val] :=
    hlive ⟨s.sp.val, hlt⟩ (Nat.lt_succ_self _)
  refine ⟨?pc, Fin.ext (show u.sp.val - 1 = s.sp.val by omega), rfl⟩
  case pc =>
    show u.stack[u.sp.val - 1]'_ = s.pc + 2
    simp only [husp, Nat.add_sub_cancel]
    rw [hslot, Vector.getElem_set_self]

/-- Settles O18: the table gives CALL with 16 entries and RET with none their errors. -/
theorem stackErrorsAreReported : Obligations.StackErrorsAreReported := fun nnn _ =>
  ⟨fun hfull => exec_halts (i := .call nnn) (if_pos hfull), fun hempty => exec_halts (i := .ret) (if_pos hempty)⟩

/-! ### The key tests (R94, R95, R157) -/

/-- An instruction whose effect writes only `PC`, with the record that it returns. -/
theorem exec_of_effect_setPc_returned {i : Instr} {s : State} {a : Word} (h : effect i s = .ok (s.setPc a)) :
    ∃ t, exec i s = .next t ∧ t.pc = a ∧ SameRegsBut [] s t ∧ t.i = s.i ∧ RegisterFrame s t ∧
      Returned t (changesScreen i) (encode i) := by
  obtain ⟨t, hexec, hpc, hregs, hi, hframe⟩ := exec_of_effect_setPc h
  exact ⟨t, hexec, hpc, hregs, hi, hframe, returned_of_effect h hexec⟩

theorem keySkip_of_key {x : RegIdx} {k : Fin 16} {s : State} (p : Bool) (h : (s.readV x).toNat = k.val) :
    keySkip x p s = .ok (s.skipIf (s.keys[k] == p)) := by
  rcases keySkip_cases x p s with ⟨j, hj, hok⟩ | ⟨hgt, -⟩
  · have hjk : j = k := Fin.ext (hj.symm.trans h)
    rw [hok, hjk]
  · omega

/-- Skipping when a key is released, with the branches in the order of the test for a pressed one. -/
theorem State.skipIf_beq_false (s : State) (b : Bool) :
    s.skipIf (b == false) = s.setPc (if b = true then s.pc + 2 else s.pc + 4) := by
  cases b <;> rfl

/-- Settles O20: both effects write only `PC`, with the target that the key gives. -/
theorem keyTestsSkipOnTheKey : Obligations.KeyTestsSkipOnTheKey := by
  intro x k s h
  refine ⟨?skp, ?sknp⟩
  case skp =>
    exact exec_of_effect_setPc_returned (i := .skp x)
      ((keySkip_of_key true h).trans (congrArg Except.ok (s.skipIf_beq _ _)))
  case sknp =>
    exact exec_of_effect_setPc_returned (i := .sknp x)
      ((keySkip_of_key false h).trans (congrArg Except.ok (s.skipIf_beq_false _)))

/-- Settles O21: the table gives a key number above 15 its error. -/
theorem keyNumberAboveFifteenHalts : Obligations.KeyNumberAboveFifteenHalts := by
  intro x s i hi h
  rcases hi with rfl | rfl
  · exact exec_halts (i := .skp x) (if_pos h)
  · exact exec_halts (i := .sknp x) (if_pos h)

/-! ### The key wait (R141) -/

theorem lowestKey_of_none {keys : Vector Bool 16} (h : ∀ k : Fin 16, keys[k] = false) : lowestKey keys = none := by
  rw [lowestKey, List.findIdx?_eq_none_iff]
  intro b hb
  obtain ⟨k, hk, rfl⟩ := List.mem_iff_getElem.1 hb
  exact h ⟨k, by simpa using hk⟩

theorem lowestKey_of_lowest {keys : Vector Bool 16} {k : Fin 16} (hk : keys[k] = true)
    (hlow : ∀ j : Fin 16, j < k → keys[j] = false) : lowestKey keys = some k.val := by
  rw [lowestKey, List.findIdx?_eq_some_iff_getElem]
  refine ⟨by simp, hk, fun j hj => ?_⟩
  simpa using hlow ⟨j, by omega⟩ hj

theorem ldVxK_effect_of_none {s : State} (x : RegIdx) (h : ∀ k : Fin 16, s.keys[k] = false) :
    effect (.ldVxK x) s = .ok s := by
  simp only [effect, lowestKey_of_none h]

theorem ldVxK_effect_of_lowest {s : State} (x : RegIdx) {k : Fin 16} (hk : s.keys[k] = true)
    (hlow : ∀ j : Fin 16, j < k → s.keys[j] = false) :
    effect (.ldVxK x) s = .ok (s.setV x (BitVec.ofNat 8 k.val)).advance := by
  simp only [effect, lowestKey_of_lowest hk hlow]

/-- Settles O41: with a key pressed the effect is a write of one register. -/
theorem keyWaitTakesTheLowestPressedKey : Obligations.KeyWaitTakesTheLowestPressedKey := by
  intro x k s hk hlow
  have heffect := ldVxK_effect_of_lowest x hk hlow
  obtain ⟨t, hexec, hresult, hregs, hpc, hi, hframe⟩ := exec_of_effect_setV heffect
  have hval : (BitVec.ofNat 8 k.val).toNat = k.val := by
    rw [BitVec.toNat_ofNat, Nat.mod_eq_of_lt (by omega)]
  exact ⟨t, hexec, by rw [hresult, hval], hregs, hpc, hi, hframe, returned_of_effect heffect hexec⟩

end Sys2Proof.Machine
end

section
/-! PROOFS. The block instructions: LD B, LD [I],Vx and LD Vx,[I] (spec/43_index_memory.md rules R123 to R125,
spec/20_memory.md rules R48, R50). -/

namespace Sys2Proof.Machine

open Sys2Proof.Safety

/-! ### The addresses of a block -/

@[simp] theorem atI_zero (s : State) : atI s 0 = s.i := BitVec.add_zero s.i

theorem atI_toNat (s : State) (k : Nat) : (atI s k).toNat = (s.i.toNat + k) % 65536 := by
  simp only [atI, BitVec.toNat_add, BitVec.toNat_ofNat]
  omega

/-- A block whose last address is inside memory, or that may wrap, has no error. -/
theorem firstOutside_of_inside {s : State} {last : Nat} (h : s.cfg.addrPolicy = .wrap ∨ s.i.toNat + last < 4096) :
    firstOutside s (last + 1) = none := by
  refine firstOutside_eq_none (h.imp_right fun hlt k hk => ?_)
  rw [atI_toNat]
  omega

/-- Under `reject`, the first address outside of a block that reaches the end is 0x1000, or `I` when `I` is outside
itself (R50, R154). -/
theorem firstOutside_of_end {s : State} {last : Nat} (hp : s.cfg.addrPolicy = .reject)
    (h : 4096 ≤ s.i.toNat + last) :
    firstOutside s (last + 1) = some (.addressOutOfRange (if s.i.toNat < 4096 then 0x1000 else s.i)) := by
  split
  · next hin =>
    have hend : atI s (4096 - s.i.toNat) = 0x1000 :=
      BitVec.eq_of_toNat_eq (by rw [atI_toNat]; show _ = 4096; omega)
    rw [← hend]
    refine firstOutside_eq_some hp (by omega) (by rw [hend]; decide) fun j hj => ?_
    rw [atI_toNat]
    omega
  · next hout =>
    rw [← atI_zero s]
    exact firstOutside_eq_some hp (by omega) (by rw [atI_zero]; omega) fun j hj => absurd hj (Nat.not_lt_zero j)

/-! ### LD B (R123) -/

theorem bcdDigits_length (b : Byte) : (bcdDigits b).length = 3 := rfl

theorem bcdDigits_hundreds (b : Byte) : (BitVec.ofNat 8 (b.toNat / 100)).toNat = b.toNat / 100 := by
  have := b.isLt
  rw [BitVec.toNat_ofNat, Nat.mod_eq_of_lt (by omega)]

theorem digit_toNat (n : Nat) : (BitVec.ofNat 8 (n % 10)).toNat = n % 10 := by
  rw [BitVec.toNat_ofNat, Nat.mod_eq_of_lt (by omega)]

/-- Settles O31: the three writes are answered, each is read back, and the others are not touched. -/
theorem bcdStoresThreeDigits : Obligations.BcdStoresThreeDigits := by
  intro x s hm h
  rcases bcdEffect_cases x s with ⟨t, ht, -, hok⟩ | ⟨e, hsome, -⟩
  · have hlen := bcdDigits_length (s.readV x)
    have hstored := memWriteBlock_stores hm (by omega) ht
    have hother : ∀ a, (∀ k, k < 3 → a ≠ (atI s k).toNat % 4096) → t.peek a = s.peek a :=
      fun a ha => memWriteBlock_other ht fun k hk => (ha k hk).symm
    have h0 := (congrArg BitVec.toNat (hstored 0 (by omega))).trans (bcdDigits_hundreds (s.readV x))
    have h1 := (congrArg BitVec.toNat (hstored 1 (by omega))).trans (digit_toNat ((s.readV x).toNat / 10))
    have h2 := (congrArg BitVec.toNat (hstored 2 (by omega))).trans (digit_toNat (s.readV x).toNat)
    obtain ⟨⟨m, rfl⟩, -⟩ := memWriteBlock_frame ht
    exact ⟨_, exec_of_effect_ok (i := .ldB x) hok, h0, h1, h2, hother, rfl, rfl, fun _ _ => rfl, ⟨rfl, rfl⟩,
      ⟨rfl, rfl⟩, ⟨rfl, rfl⟩, ⟨rfl, rfl, rfl, rfl⟩, ⟨rfl, rfl, rfl, rfl⟩, rfl, rfl⟩
  · rw [firstOutside_of_inside h] at hsome; cases hsome

/-! ### LD [I],Vx and LD Vx,[I] (R124, R125) -/

theorem advanceI_toNat (s : State) (x : RegIdx) :
    (s.i + BitVec.ofNat 16 (x.val + 1)).toNat = (s.i.toNat + x.val + 1) % 65536 := atI_toNat s (x.val + 1)

/-- Settles O32: the writes are answered, each is read back, and the others are not touched. -/
theorem storeRegistersWritesTheBlock : Obligations.StoreRegistersWritesTheBlock := by
  intro x s hm h
  rcases storeRegsEffect_cases x s with ⟨t, ht, -, hok⟩ | ⟨e, hsome, -⟩
  · have hlen := regsUpTo_length s x
    have hstored : ∀ k : RegIdx, k ≤ x → t.peek ((atI s k.val).toNat % 4096) = s.readV k := by
      intro k hk
      have hk' : k.val < (regsUpTo s x).length := by rw [hlen]; exact Nat.lt_succ_of_le hk
      exact (memWriteBlock_stores hm (by omega) ht k.val hk').trans (regsUpTo_get s x k.val hk')
    have hother : ∀ a, (∀ k, k ≤ x.val → a ≠ (atI s k).toNat % 4096) → t.peek a = s.peek a :=
      fun a ha => memWriteBlock_other ht fun k hk => (ha k (by omega)).symm
    obtain ⟨⟨m, rfl⟩, -⟩ := memWriteBlock_frame ht
    exact ⟨_, exec_of_effect_ok (i := .storeRegs x) hok, hstored, hother, advanceI_toNat s x, rfl, fun _ _ => rfl,
      ⟨rfl, rfl⟩, ⟨rfl, rfl⟩, ⟨rfl, rfl⟩, ⟨rfl, rfl, rfl, rfl⟩, ⟨rfl, rfl, rfl, rfl⟩, rfl, rfl⟩
  · rw [firstOutside_of_inside h] at hsome; cases hsome

/-- The bytes of a block that is read from `I`. -/
theorem memReadBlock_get {s : State} {n : Nat} {bs : List Byte} (h : memReadBlock s s.i n = .ok bs) (k : Nat)
    (hk : k < bs.length) : bs[k] = s.peek ((atI s k).toNat % 4096) := by
  have hread := (memReadBlock_ok h).2 k hk
  rcases memRead_cases s (s.i + BitVec.ofNat 16 k) with hok | ⟨-, -, herr⟩
  · exact Except.ok.inj (hread.symm.trans hok)
  · rw [herr] at hread; cases hread

/-- Settles O33: the reads are answered, and each register gets its byte or keeps its value. -/
theorem loadRegistersReadsTheBlock : Obligations.LoadRegistersReadsTheBlock := by
  intro x s h
  rcases loadRegsEffect_cases x s with ⟨bs, hbs, -, hok⟩ | ⟨e, hsome, -⟩
  · have hlen := (memReadBlock_ok hbs).1
    have hloaded : ∀ k : RegIdx, k ≤ x → (loadRegsFrom s.v 0 bs)[k] = s.peek ((atI s k.val).toNat % 4096) := by
      intro k hk
      have hk' : k.val < bs.length := by rw [hlen]; exact Nat.lt_succ_of_le hk
      rw [loadRegsFrom_get, if_pos (Nat.zero_le _), ← memReadBlock_get hbs k.val hk']
      exact (List.getElem_eq_getD s.v[k]).symm
    have hkept : ∀ k : RegIdx, x < k → (loadRegsFrom s.v 0 bs)[k] = s.v[k] :=
      fun k hk => loadRegsFrom_above (by rw [hlen]; exact hk)
    exact ⟨_, exec_of_effect_ok (i := .loadRegs x) hok, hloaded, hkept, advanceI_toNat s x, rfl,
      ⟨fun _ => rfl, ⟨rfl, rfl⟩, ⟨rfl, rfl⟩, ⟨rfl, rfl⟩, ⟨rfl, rfl, rfl, rfl⟩, ⟨rfl, rfl, rfl, rfl⟩, rfl⟩, rfl⟩
  · rw [firstOutside_of_inside h] at hsome; cases hsome

/-- Settles O34: the block that `storeRegistersWritesTheBlock` leaves is the one that `loadRegistersReadsTheBlock`
reads, and both move `I` by the same sum. -/
theorem storeThenLoadRestoresTheRegisters : Obligations.StoreThenLoadRestoresTheRegisters := by
  intro x s t u v hm h hstore hcfg hmem hi hload
  obtain ⟨t', hexec, hstored, -, hti, -, -, -, -, -, -, ⟨-, htcfg, -, -⟩, -, -⟩ :=
    storeRegistersWritesTheBlock x s hm h
  cases hexec.symm.trans hstore
  have hu : u.cfg.addrPolicy = .wrap ∨ u.i.toNat + x.val < 4096 := by rwa [hcfg, htcfg, hi]
  obtain ⟨v', hexec', hloaded, -, hvi, -, ⟨-, -, -, -, ⟨hhalt, -, -, -⟩, -, -⟩, -⟩ :=
    loadRegistersReadsTheBlock x u hu
  cases hexec'.symm.trans hload
  have haddr : ∀ k, atI u k = atI s k := fun k => by rw [atI, atI, hi]
  refine ⟨fun k hk => ?regs, BitVec.eq_of_toNat_eq ?index, hhalt⟩
  case regs => rw [hloaded k hk, haddr, hmem, hstored k hk]
  case index => rw [hvi, hti, hi]

/-- Settles O35: the table gives the three instructions the error of the first address outside. -/
theorem blockOverTheEndHaltsAndWritesNothing : Obligations.BlockOverTheEndHaltsAndWritesNothing := by
  intro x s i last hi hp h
  have herr := firstOutside_of_end hp h
  rcases hi with ⟨rfl, rfl⟩ | ⟨rfl, rfl⟩ | ⟨rfl, rfl⟩
  · exact exec_halts (i := .ldB x) herr
  · exact exec_halts (i := .storeRegs x) herr
  · exact exec_halts (i := .loadRegs x) herr

end Sys2Proof.Machine
end

section
/-! PROOFS. The sprite drawing (spec/44_display.md rules R131, R132). -/

namespace Sys2Proof.Machine

open Sys2Proof.Safety

/-! ### Reads depend on the memory and the parameters only -/

section same_memory
variable {s s' : State} (hmem : s'.mem = s.mem) (hcfg : s'.cfg = s.cfg)
include hmem hcfg

theorem peek_congr (k : Nat) : s'.peek k = s.peek k := by rw [State.peek, State.peek, hmem, hcfg]

theorem memRead_congr (a : Word) : memRead s' a = memRead s a := by
  simp only [memRead, hcfg, peek_congr hmem hcfg]

theorem memReadBlock_congr (a : Word) (n : Nat) : memReadBlock s' a n = memReadBlock s a n := by
  induction n generalizing a with
  | zero => rfl
  | succ n ih => simp only [memReadBlock, memRead_congr hmem hcfg, ih]

end same_memory

/-! ### The rows on the grid -/

theorem lt_rowsDrawn_iff (y0 : Byte) (n : Nibble) (r : Nat) :
    r < rowsDrawn y0 n ↔ r < n.toNat ∧ y0.toNat + r < 32 := by
  unfold rowsDrawn
  split <;> omega

theorem rowsDrawn_of_off {y0 : Byte} (n : Nibble) (h : 32 ≤ y0.toNat) : rowsDrawn y0 n = 0 := if_neg (by omega)

theorem add_rowsDrawn_le {y0 : Byte} (n : Nibble) (h : y0.toNat < 32) : y0.toNat + rowsDrawn y0 n ≤ 32 := by
  unfold rowsDrawn
  rw [if_pos (by omega)]
  omega

/-- The sprite has a bit of 1 on the cell: `on` of the closed form (R131, R132). -/
def SpriteOn (x y : RegIdx) (n : Nibble) (s : State) (r c : Nat) : Prop :=
  (s.readV y).toNat ≤ r ∧ r < (s.readV y).toNat + n.toNat ∧ (s.readV x).toNat ≤ c ∧ c < (s.readV x).toNat + 8 ∧
    (s.peek ((atI s (r - (s.readV y).toNat)).toNat % 4096)).getLsbD (7 - (c - (s.readV x).toNat)) = true

/-- The bytes that DRW reads. -/
def SpriteRead (y : RegIdx) (n : Nibble) (s : State) (bs : List Byte) : Prop :=
  memReadBlock s s.i (rowsDrawn (s.readV y) n) = .ok bs

section drawing
variable {x y : RegIdx} {n : Nibble} {s : State} {bs : List Byte} (hbs : SpriteRead y n s bs)
include hbs

theorem onSprite_iff {r : Nat} (c : Nat) (hr : r < 32) :
    onSprite bs (s.readV y).toNat (s.readV x).toNat r c = true ↔ SpriteOn x y n s r c := by
  have hlen : bs.length = rowsDrawn (s.readV y) n := (memReadBlock_ok hbs).1
  have hrows := lt_rowsDrawn_iff (s.readV y) n (r - (s.readV y).toNat)
  unfold onSprite SpriteOn
  by_cases hin : (s.readV y).toNat ≤ r ∧ r < (s.readV y).toNat + n.toNat
  · have hlt : r - (s.readV y).toNat < bs.length := by omega
    rw [List.getD_eq_getElem _ _ hlt, memReadBlock_get hbs _ hlt]
    simp [onRow, spriteBit, hin, and_assoc]
  · by_cases hle : (s.readV y).toNat ≤ r
    · have hge : bs.length ≤ r - (s.readV y).toNat := by omega
      have hlt : ¬ r < (s.readV y).toNat + n.toNat := fun h => hin ⟨hle, h⟩
      rw [List.getD_eq_default _ _ hge, onRow_zero]
      simp [hlt]
    · simp [hle]

theorem drawn_of_off (h : 32 ≤ (s.readV y).toNat) : bs = [] ∧ drawn x y s bs = (s.fb, false) := by
  have hnil : bs = [] :=
    List.eq_nil_of_length_eq_zero ((memReadBlock_ok hbs).1.trans (rowsDrawn_of_off n h))
  exact ⟨hnil, by rw [drawn, hnil]; rfl⟩

theorem rows_fit (h : (s.readV y).toNat < 32) : (s.readV y).toNat + bs.length ≤ 32 := by
  rw [(memReadBlock_ok hbs).1]
  exact add_rowsDrawn_le n h

/-- The drawing flips the cells of the grid that the sprite has a bit of 1 on; off the grid there are no rows. -/
theorem drawn_cell {r c : Nat} (hc : c < 64) :
    cell (drawn x y s bs).1 r c = (cell s.fb r c ^^ onSprite bs (s.readV y).toNat (s.readV x).toNat r c) := by
  by_cases hy : (s.readV y).toNat < 32
  · exact drawRows_cell _ bs _ _ (rows_fit hbs hy) hc
  · obtain ⟨hnil, hdrawn⟩ := drawn_of_off (x := x) hbs (by omega)
    rw [hdrawn, hnil, onSprite_nil, Bool.xor_false]

theorem drawn_collision :
    (drawn x y s bs).2 = true ↔ ∃ r c, r < 32 ∧ c < 64 ∧ SpriteOn x y n s r c ∧ cell s.fb r c = true := by
  have honSprite : (∃ r c, r < 32 ∧ c < 64 ∧ SpriteOn x y n s r c ∧ cell s.fb r c = true) ↔
      ∃ r c, r < 32 ∧ c < 64 ∧ onSprite bs (s.readV y).toNat (s.readV x).toNat r c = true ∧
        cell s.fb r c = true :=
    exists_congr fun r => exists_congr fun c => and_congr_right fun hr => by rw [onSprite_iff hbs c hr]
  rw [honSprite]
  by_cases hy : (s.readV y).toNat < 32
  · exact (drawRows_collision _ bs _ _ (rows_fit hbs hy)).trans (or_iff_right Bool.false_ne_true)
  · obtain ⟨hnil, hdrawn⟩ := drawn_of_off (x := x) hbs (by omega)
    rw [hdrawn]
    simp [hnil, onSprite_nil]

theorem drawn_cell_eq_iff {r c : Nat} (hr : r < 32) (hc : c < 64) :
    cell (drawn x y s bs).1 r c = cell s.fb r c ↔ ¬ SpriteOn x y n s r c := by
  rw [drawn_cell hbs hc, ← onSprite_iff hbs c hr]
  cases onSprite bs (s.readV y).toNat (s.readV x).toNat r c <;> simp

end drawing

/-! ### DRW (R131) -/

theorem flagByte_eq_one (c : Bool) : flagByte c = 1 ↔ c = true := by
  cases c <;> simp [flagByte]

/-- Settles O37: the loops' closed form, on the bytes of the rows on the grid. -/
theorem drawFlipsTheSpriteCells : Obligations.DrawFlipsTheSpriteCells := by
  intro x y n s h
  have hnone : firstOutside s (rowsDrawn (s.readV y) n) = none :=
    firstOutside_eq_none (h.imp_right fun hin r hr =>
      have hrow := (lt_rowsDrawn_iff _ _ r).1 hr
      hin r hrow.1 hrow.2)
  rcases drawEffect_cases x y n s with ⟨bs, hbs, -, hok⟩ | ⟨e, hsome, -⟩
  · have hvf : (((s.show (drawn x y s bs).1).setFlag (drawn x y s bs).2).advance).readV 15 =
        flagByte (drawn x y s bs).2 := State.readV_setV_same (s.show _) regF _
    have hregs : SameRegsBut [15] s (((s.show (drawn x y s bs).1).setFlag (drawn x y s bs).2).advance) :=
      sameRegsBut_setV (s.show _) regF _
    refine ⟨_, exec_of_effect_ok (i := .drw x y n) hok, ⟨fun r c hr hc => drawn_cell_eq_iff hbs hr hc, ?bit, ?flag⟩,
      rfl, rfl, hregs, rfl, fun _ => rfl, ⟨rfl, rfl⟩, ⟨rfl, rfl⟩, ⟨rfl, rfl, rfl, rfl⟩, ⟨rfl, rfl, rfl, rfl⟩, rfl,
      rfl⟩
    case bit =>
      rw [State.answer_readV, hvf]
      exact (flagByte_cases _).symm
    case flag =>
      rw [State.answer_readV, hvf, flagByte_eq_one]
      exact drawn_collision hbs
  · rw [hnone] at hsome; cases hsome

/-- A DRW that does not halt the core has drawn the bytes it read. -/
theorem drw_of_running {x y : RegIdx} {n : Nibble} {s t : State} (h : exec (.drw x y n) s = .next t)
    (ht : t.halt = false) :
    ∃ bs, SpriteRead y n s bs ∧
      t = (((s.show (drawn x y s bs).1).setFlag (drawn x y s bs).2).advance).answer
        (.cycleDone ⟨true, encode (.drw x y n), 0, 0⟩) := by
  rcases drawEffect_cases x y n s with ⟨bs, hbs, -, hok⟩ | ⟨e, hsome, -⟩
  · exact ⟨bs, hbs, eq_answer_of_effect (i := .drw x y n) hok h⟩
  · rw [exec_of_errorOf_some (i := .drw x y n) hsome] at h
    cases h; cases ht

theorem drw_of_read {x y : RegIdx} {n : Nibble} {s : State} {bs : List Byte} (h : SpriteRead y n s bs) :
    exec (.drw x y n) s = .next ((((s.show (drawn x y s bs).1).setFlag (drawn x y s bs).2).advance).answer
        (.cycleDone ⟨true, encode (.drw x y n), 0, 0⟩)) := by
  refine exec_of_effect_ok (i := .drw x y n) ?_
  show drawEffect x y n s = _
  have hread : memReadBlock s s.i (rowsDrawn (s.readV y) n) = .ok bs := h
  simp only [drawEffect, hread, drawn]

/-- Settles O38: both drawings read the same bytes and flip the same cells, and a cell that the first turned on is a
collision of the second. -/
theorem drawTwiceRestoresTheScreen : Obligations.DrawTwiceRestoresTheScreen := by
  intro x y n s t u v _ hfirst ht hu hsecond
  obtain ⟨bs, hbs, hteq⟩ := drw_of_running hfirst ht
  have hreg : ∀ r, u.readV r = s.readV r := fun r => by rw [hu]; rfl
  have hi : u.i = s.i := by rw [hu, hteq]; rfl
  have hfb : u.fb = t.fb := by rw [hu]
  have hhalt : u.halt = t.halt := by rw [hu]
  have hbs' : SpriteRead y n u bs := by
    have hmem : u.mem = s.mem := by rw [hu, hteq]; rfl
    have hcfg : u.cfg = s.cfg := by rw [hu, hteq]; rfl
    rw [SpriteRead, memReadBlock_congr hmem hcfg, hi, hreg]
    exact hbs
  have htfb : t.fb = (drawn x y s bs).1 := by rw [hteq]; rfl
  cases (drw_of_read (x := x) hbs').symm.trans hsecond
  refine ⟨?restored, hhalt.trans ht, ?collision⟩
  case restored =>
    refine framebuffer_ext fun r c _ hc => ?_
    show cell (drawn x y u bs).1 r c = cell s.fb r c
    rw [drawn_cell hbs' hc, hfb, htfb, drawn_cell hbs hc, hreg, hreg, Bool.xor_assoc, Bool.xor_self, Bool.xor_false]
  case collision =>
    rintro ⟨r, c, hr, hc, hoff, hon⟩
    have hsprite : onSprite bs (s.readV y).toNat (s.readV x).toNat r c = true := by
      rw [htfb, drawn_cell hbs hc, hoff, Bool.false_xor] at hon
      exact hon
    have hsprite' : SpriteOn x y n u r c := by
      rw [← onSprite_iff hbs' c hr, hreg, hreg]
      exact hsprite
    have hcollision : (drawn x y u bs).2 = true :=
      (drawn_collision hbs').2 ⟨r, c, hr, hc, hsprite', by rw [hfb]; exact hon⟩
    show ((u.show _).setV regF (flagByte (drawn x y u bs).2)).readV regF = 1
    rw [State.readV_setV_same, hcollision]
    rfl

/-- Settles O39: the table gives DRW the error of the first row on the grid that is outside memory. -/
theorem spriteOutsideMemoryHalts : Obligations.SpriteOutsideMemoryHalts := by
  intro x y n s r hp hr hgrid hout hfirst
  exact exec_halts (i := .drw x y n) (firstOutside_eq_some hp ((lt_rowsDrawn_iff _ _ r).2 ⟨hr, hgrid⟩) hout hfirst)

end Sys2Proof.Machine
end

section
/-! PROOFS. What no instruction can observe: the timers' ticks, the slots above `SP`, and the items that no instruction
reads (spec/60_exceptions.md rule R171, spec/10_state.md rules R16, R17, R19, R21). -/

namespace Sys2Proof.Machine

open Sys2Proof.Safety

/-! ### Writes depend on the memory and the parameters only -/

/-- A block of writes to two states with the same memory leaves the same memory, or fails alike. -/
theorem memWriteBlock_congr {s s' : State} (hmem : s'.mem = s.mem) (hcfg : s'.cfg = s.cfg) (a : Word)
    (bs : List Byte) :
    (∃ m, memWriteBlock s a bs = .ok { s with mem := m } ∧ memWriteBlock s' a bs = .ok { s' with mem := m }) ∨
      (∃ e, memWriteBlock s a bs = .error e ∧ memWriteBlock s' a bs = .error e) := by
  induction bs generalizing s s' a with
  | nil => exact .inl ⟨s.mem, rfl, by rw [← hmem]; rfl⟩
  | cons b rest ih =>
    cases hr : resolve s.cfg.addrPolicy a with
    | error e =>
      have hw : memWrite s a b = .error e := by rw [memWrite, hr]
      have hw' : memWrite s' a b = .error e := by rw [memWrite, hcfg, hr]
      rw [memWriteBlock, memWriteBlock, hw, hw']
      exact .inr ⟨e, rfl, rfl⟩
    | ok k =>
      have hw : memWrite s a b = .ok (s.poke k b) := by rw [memWrite, hr]
      have hw' : memWrite s' a b = .ok (s'.poke k b) := by rw [memWrite, hcfg, hr]
      have hpoke : (s'.poke k b).mem = (s.poke k b).mem := by simp only [State.poke_mem, hmem, hcfg]
      rw [memWriteBlock, memWriteBlock, hw, hw']
      exact ih (s := s.poke k b) (s' := s'.poke k b) hpoke hcfg (a + 1)

/-- Loading bytes into two states with the same memory leaves the same memory. -/
theorem pokeBytes_congr {s s' : State} (hmem : s'.mem = s.mem) (hcfg : s'.cfg = s.cfg) (k : Nat) (bs : List Byte) :
    ∃ m, pokeBytes s k bs = { s with mem := m } ∧ pokeBytes s' k bs = { s' with mem := m } := by
  induction bs generalizing s s' k with
  | nil => exact ⟨s.mem, rfl, by rw [← hmem]; rfl⟩
  | cons b rest ih =>
    have hpoke : (s'.poke k b).mem = (s.poke k b).mem := by simp only [State.poke_mem, hmem, hcfg]
    exact ih (s := s.poke k b) (s' := s'.poke k b) hpoke hcfg (k + 1)

theorem fetch_congr {s s' : State} (hmem : s'.mem = s.mem) (hcfg : s'.cfg = s.cfg) (hpc : s'.pc = s.pc) :
    fetch s' = fetch s := by
  simp only [fetch, memRead_congr hmem hcfg, hpc]

/-! ### Relations that instructions keep -/

/-- Two effects agree up to `R`: related states, or the same error. -/
inductive EffectRel (R : State → State → Prop) : Except Err State → Except Err State → Prop where
  | ok {u u' : State} (h : R u u') : EffectRel R (.ok u) (.ok u')
  | error (e : Err) : EffectRel R (.error e) (.error e)

/-- `R` relates states that agree on all that an instruction without a timer operand reads, and it is kept when both
states are written alike. -/
structure Blind (R : State → State → Prop) : Prop where
  mem : ∀ {s s' : State}, R s s' → s'.mem = s.mem
  v : ∀ {s s' : State}, R s s' → s'.v = s.v
  i : ∀ {s s' : State}, R s s' → s'.i = s.i
  pc : ∀ {s s' : State}, R s s' → s'.pc = s.pc
  fb : ∀ {s s' : State}, R s s' → s'.fb = s.fb
  keys : ∀ {s s' : State}, R s s' → s'.keys = s.keys
  cfg : ∀ {s s' : State}, R s s' → s'.cfg = s.cfg
  draws : ∀ {s s' : State}, R s s' → s'.draws = s.draws
  withMem : ∀ {s s' : State}, R s s' → ∀ m, R { s with mem := m } { s' with mem := m }
  withV : ∀ {s s' : State}, R s s' → ∀ v, R { s with v := v } { s' with v := v }
  setI : ∀ {s s' : State}, R s s' → ∀ a, R (s.setI a) (s'.setI a)
  setPc : ∀ {s s' : State}, R s s' → ∀ a, R (s.setPc a) (s'.setPc a)
  shown : ∀ {s s' : State}, R s s' → ∀ f, R (s.show f) (s'.show f)
  withDraws : ∀ {s s' : State}, R s s' → ∀ n, R { s with draws := n } { s' with draws := n }
  answer : ∀ {s s' : State}, R s s' → ∀ r, R (s.answer r) (s'.answer r)
  halted : ∀ {s s' : State}, R s s' → ∀ w e, R (s.halted w e) (s'.halted w e)
  call : ∀ {s s' : State}, R s s' → ∀ nnn, EffectRel R (callEffect nnn s) (callEffect nnn s')
  ret : ∀ {s s' : State}, R s s' → EffectRel R (retEffect s) (retEffect s')

namespace Blind
variable {R : State → State → Prop} (hR : Blind R) {s s' : State} (h : R s s')
include hR h

theorem readV (r : RegIdx) : s'.readV r = s.readV r := by rw [State.readV, State.readV, hR.v h]

theorem setV (r : RegIdx) (b : Byte) : R (s.setV r b) (s'.setV r b) := by
  rw [State.setV, State.setV, hR.v h]; exact hR.withV h _

theorem advance : R s.advance s'.advance := by
  rw [State.advance, State.advance, hR.pc h]; exact hR.setPc h _

theorem skipIf (c : Bool) : R (s.skipIf c) (s'.skipIf c) := by
  rw [State.skipIf, State.skipIf, hR.pc h]; exact hR.setPc h _

theorem resetFlagIfLogic : R s.resetFlagIfLogic s'.resetFlagIfLogic := by
  rw [State.resetFlagIfLogic, State.resetFlagIfLogic, hR.cfg h]
  split
  · exact hR.setV h _ _
  · exact h

theorem advanceI (x : RegIdx) : R (s.advanceI x) (s'.advanceI x) := by
  rw [State.advanceI, State.advanceI, hR.i h]; exact hR.setI h _

theorem keySkip (x : RegIdx) (p : Bool) : EffectRel R (keySkip x p s) (keySkip x p s') := by
  have hkey : keyOperand s' x = keyOperand s x := by simp only [keyOperand, hR.readV h]
  simp only [Machine.keySkip, hkey, hR.keys h]
  cases keyOperand s x with
  | ok k => exact .ok (hR.skipIf h _)
  | error e => exact .error e

theorem bcdEffect (x : RegIdx) : EffectRel R (bcdEffect x s) (bcdEffect x s') := by
  simp only [Machine.bcdEffect, hR.readV h, hR.i h]
  rcases memWriteBlock_congr (hR.mem h) (hR.cfg h) s.i (bcdDigits (s.readV x)) with ⟨m, hok, hok'⟩ | ⟨e, herr, herr'⟩
  · rw [hok, hok']; exact .ok (hR.advance (hR.withMem h m))
  · rw [herr, herr']; exact .error e

theorem storeRegsEffect (x : RegIdx) : EffectRel R (storeRegsEffect x s) (storeRegsEffect x s') := by
  simp only [Machine.storeRegsEffect, regsUpTo, hR.v h, hR.i h]
  rcases memWriteBlock_congr (hR.mem h) (hR.cfg h) s.i (s.v.toList.take (x.val + 1)) with
    ⟨m, hok, hok'⟩ | ⟨e, herr, herr'⟩
  · rw [hok, hok']; exact .ok (hR.advance (hR.advanceI (hR.withMem h m) x))
  · rw [herr, herr']; exact .error e

theorem loadRegsEffect (x : RegIdx) : EffectRel R (loadRegsEffect x s) (loadRegsEffect x s') := by
  have hread : memReadBlock s' s'.i (x.val + 1) = memReadBlock s s.i (x.val + 1) := by
    rw [memReadBlock_congr (hR.mem h) (hR.cfg h), hR.i h]
  simp only [Machine.loadRegsEffect, hread, hR.v h]
  cases memReadBlock s s.i (x.val + 1) with
  | ok bs => exact .ok (hR.advance (hR.advanceI (hR.withV h _) x))
  | error e => exact .error e

theorem drawEffect (x y : RegIdx) (n : Nibble) : EffectRel R (drawEffect x y n s) (drawEffect x y n s') := by
  simp only [Machine.drawEffect, memReadBlock_congr (hR.mem h) (hR.cfg h), hR.readV h, hR.i h, hR.fb h]
  cases memReadBlock s s.i (rowsDrawn (s.readV y) n) with
  | ok bs => exact .ok (hR.advance (hR.setV (hR.shown h _) _ _))
  | error e => exact .error e

/-- Every instruction but the three with a timer operand keeps the relation. -/
theorem effect {i : Instr} (hi : ∀ x, i ≠ .ldVxDt x ∧ i ≠ .ldDtVx x ∧ i ≠ .ldStVx x) :
    EffectRel R (effect i s) (effect i s') := by
  have hv := hR.readV h
  cases i with
  | ldVxDt x => exact absurd rfl (hi x).1
  | ldDtVx x => exact absurd rfl (hi x).2.1
  | ldStVx x => exact absurd rfl (hi x).2.2
  | call nnn => exact hR.call h nnn
  | ret => exact hR.ret h
  | skp x => exact hR.keySkip h x true
  | sknp x => exact hR.keySkip h x false
  | drw x y n => exact hR.drawEffect h x y n
  | ldB x => exact hR.bcdEffect h x
  | storeRegs x => exact hR.storeRegsEffect h x
  | loadRegs x => exact hR.loadRegsEffect h x
  | cls => exact .ok (hR.advance (hR.shown h _))
  | sys => exact .ok (hR.advance h)
  | jp => exact .ok (hR.setPc h _)
  | jpV0 => simp only [Machine.effect, hv]; exact .ok (hR.setPc h _)
  | seByte | sneByte | seReg | sneReg => simp only [Machine.effect, hv]; exact .ok (hR.skipIf h _)
  | ldByte | addByte | ldReg => simp only [Machine.effect, hv]; exact .ok (hR.advance (hR.setV h _ _))
  | orReg | andReg | xorReg =>
    simp only [Machine.effect, hv]; exact .ok (hR.advance (hR.resetFlagIfLogic (hR.setV h _ _)))
  | addReg | subReg | shr | subnReg | shl =>
    simp only [Machine.effect, hv]; exact .ok (hR.advance (hR.setV (hR.setV h _ _) _ _))
  | rnd =>
    simp only [Machine.effect, drawRandom, hR.draws h]; exact .ok (hR.advance (hR.setV (hR.withDraws h _) _ _))
  | ldVxK x =>
    simp only [Machine.effect, hR.keys h]
    cases lowestKey s.keys with
    | none => exact .ok h
    | some k => exact .ok (hR.advance (hR.setV h _ _))
  | ldI => exact .ok (hR.advance (hR.setI h _))
  | addI => simp only [Machine.effect, hv, hR.i h]; exact .ok (hR.advance (hR.setI h _))
  | ldF => simp only [Machine.effect, hv]; exact .ok (hR.advance (hR.setI h _))

/-- The end of a cycle keeps a relation that the effects are in, and returns the same record. -/
theorem finish {e e' : Except Err State} (hrel : EffectRel R e e') {w : Word} {c : Bool} {t : State}
    (ht : finish w c s e = .next t) : ∃ t', Machine.finish w c s' e' = .next t' ∧ R t t' ∧ t'.reply = t.reply := by
  cases hrel with
  | ok hu => cases ht; exact ⟨_, rfl, hR.answer hu _, rfl⟩
  | error e => cases ht; exact ⟨_, rfl, hR.halted h _ e, rfl⟩

theorem exec {i : Instr} (hrel : EffectRel R (Machine.effect i s) (Machine.effect i s')) {t : State}
    (ht : exec i s = .next t) : ∃ t', Machine.exec i s' = .next t' ∧ R t t' ∧ t'.reply = t.reply := by
  rw [exec_eq_finish] at ht ⊢
  exact hR.finish h hrel ht

end Blind

/-- With equal `DT` and writes of the timers kept, the three other instructions keep the relation too. -/
theorem Blind.effect_all {R : State → State → Prop} (hR : Blind R)
    (hdt : ∀ {s s' : State}, R s s' → s'.dt = s.dt)
    (hsetDt : ∀ {s s' : State}, R s s' → ∀ b, R (s.setDt b) (s'.setDt b))
    (hsetSt : ∀ {s s' : State}, R s s' → ∀ b, R (s.setSt b) (s'.setSt b))
    {s s' : State} (h : R s s') (i : Instr) : EffectRel R (Machine.effect i s) (Machine.effect i s') := by
  have hv := hR.readV h
  cases i with
  | ldVxDt x => simp only [Machine.effect, hdt h]; exact .ok (hR.advance (hR.setV h _ _))
  | ldDtVx x => simp only [Machine.effect, hv]; exact .ok (hR.advance (hsetDt h _))
  | ldStVx x => simp only [Machine.effect, hv]; exact .ok (hR.advance (hsetSt h _))
  | _ => exact hR.effect h (by simp)

/-! ### The stack instructions, in two states of the same depth -/

theorem callEffect_of_full (nnn : Addr12) {s : State} (h : s.sp = 16) :
    callEffect nnn s = .error .stackOverflow := by rw [callEffect, push_full _ h]

theorem retEffect_of_empty {s : State} (h : s.sp = 0) : retEffect s = .error .stackUnderflow := by
  rw [retEffect, pop_empty h]

section same_depth
variable {R : State → State → Prop} {s s' : State} (hsp : s'.sp = s.sp)
include hsp

theorem effectRel_call (nnn : Addr12)
    (hok : ∀ (_ : s.sp.val < 16) (_ : s'.sp.val < 16),
      R { s with stack := s.stack.set s.sp.val (s.pc + 2), sp := ⟨s.sp.val + 1, by omega⟩, pc := zext12 nnn }
        { s' with stack := s'.stack.set s'.sp.val (s'.pc + 2), sp := ⟨s'.sp.val + 1, by omega⟩, pc := zext12 nnn }) :
    EffectRel R (callEffect nnn s) (callEffect nnn s') := by
  rcases callEffect_cases nnn s with ⟨hlt, h⟩ | ⟨hfull, h⟩
  · have hlt' : s'.sp.val < 16 := by rwa [hsp]
    rw [h, show callEffect nnn s' = _ from callEffect_of_lt nnn hlt']
    exact .ok (hok hlt hlt')
  · rw [h, callEffect_of_full nnn (hsp.trans hfull)]
    exact .error _

theorem effectRel_ret
    (hok : ∀ (_ : 0 < s.sp.val) (_ : 0 < s'.sp.val),
      R { s with sp := ⟨s.sp.val - 1, by omega⟩, pc := s.stack[s.sp.val - 1]'(by omega) }
        { s' with sp := ⟨s'.sp.val - 1, by omega⟩, pc := s'.stack[s'.sp.val - 1]'(by omega) }) :
    EffectRel R (retEffect s) (retEffect s') := by
  rcases retEffect_cases s with ⟨hlt, h⟩ | ⟨hempty, h⟩
  · have hlt' : 0 < s'.sp.val := by rwa [hsp]
    rw [h, show retEffect s' = _ from retEffect_of_pos hlt']
    exact .ok (hok hlt hlt')
  · rw [h, retEffect_of_empty (hsp.trans hempty)]
    exact .error _

end same_depth

/-! ### A tick (R171) -/

/-- `s'` is `s` after a tick, whatever each returned last. -/
def TickApart (s s' : State) : Prop := s' = { tickEvent s with reply := s'.reply }

theorem TickApart.exists_reply {s s' : State} (h : TickApart s s') : ∃ r, s' = { tickEvent s with reply := r } :=
  ⟨_, h⟩

theorem blind_tickApart : Blind TickApart := by
  constructor
  all_goals
    intro s s' h
    obtain ⟨r, rfl⟩ := h.exists_reply
  case mem | v | i | pc | fb | keys | cfg | draws => rfl
  case call =>
    intro nnn
    refine effectRel_call ?_ nnn ?_
    · rfl
    · exact fun _ _ => rfl
  case ret =>
    refine effectRel_ret ?_ ?_
    · rfl
    · exact fun _ _ => rfl
  case halted => exact fun _ _ => rfl
  all_goals exact fun _ => rfl

/-- Settles O45: a tick is kept apart by every instruction without a timer operand. -/
theorem ticksCommuteWithOtherInstructions : Obligations.TicksCommuteWithOtherInstructions := by
  intro i s t hi ht
  have htick : TickApart s (tickEvent s) := rfl
  exact blind_tickApart.exec htick (blind_tickApart.effect htick hi) ht

/-! ### The items that no instruction reads (R17, R19, R21) -/

theorem sameButUnread_exists {s s' : State} (h : SameButUnread s s') :
    ∃ b f c o p, s' = { s with st := b, drawFlag := f, errCause := c, errOpcode := o, errPc := p } :=
  ⟨_, _, _, _, _, h⟩

theorem blind_sameButUnread : Blind SameButUnread := by
  constructor
  all_goals
    intro s s' h
    obtain ⟨b, f, c, o, p, rfl⟩ := sameButUnread_exists h
  case mem | v | i | pc | fb | keys | cfg | draws => rfl
  case call =>
    intro nnn
    refine effectRel_call ?_ nnn ?_
    · rfl
    · exact fun _ _ => rfl
  case ret =>
    refine effectRel_ret ?_ ?_
    · rfl
    · exact fun _ _ => rfl
  case halted => exact fun _ _ => rfl
  all_goals exact fun _ => rfl

/-- Settles O58: every instruction keeps the relation, those with a timer operand too. -/
theorem unreadRegistersDoNotMatter : Obligations.UnreadRegistersDoNotMatter := by
  intro i s s' t h ht
  have hdt : ∀ {s s' : State}, SameButUnread s s' → s'.dt = s.dt := fun h => by rw [h]
  have hsetDt : ∀ {s s' : State}, SameButUnread s s' → ∀ b, SameButUnread (s.setDt b) (s'.setDt b) := fun h _ => by
    obtain ⟨b, f, c, o, p, rfl⟩ := sameButUnread_exists h
    rfl
  have hsetSt : ∀ {s s' : State}, SameButUnread s s' → ∀ b, SameButUnread (s.setSt b) (s'.setSt b) := fun h _ => by
    obtain ⟨b, f, c, o, p, rfl⟩ := sameButUnread_exists h
    rfl
  obtain ⟨t', hexec, hrel, -⟩ := blind_sameButUnread.exec h (blind_sameButUnread.effect_all hdt hsetDt hsetSt h i) ht
  exact ⟨t', hexec, hrel⟩

/-! ### The slots above `SP` (R16) -/

theorem sameButStaleSlots_exists {s s' : State} (h : SameButStaleSlots s s') :
    ∃ k : Vector Word 16, s' = { s with stack := k } ∧ ∀ j : Fin 16, j.val < s.sp.val → k[j] = s.stack[j] :=
  ⟨_, h.1, h.2⟩

/-- A push writes the same slot of both stacks, which becomes live. -/
theorem live_set {a b : Vector Word 16} {n : Nat} (hn : n < 16) (w : Word)
    (h : ∀ j : Fin 16, j.val < n → b[j] = a[j]) (j : Fin 16) (hj : j.val < n + 1) :
    (b.set n w hn)[j] = (a.set n w hn)[j] := by
  rcases Nat.lt_succ_iff_lt_or_eq.1 hj with hlt | heq
  · have hb : (b.set n w hn)[j] = b[j] := Vector.getElem_set_ne hn j.isLt (by omega)
    have ha : (a.set n w hn)[j] = a[j] := Vector.getElem_set_ne hn j.isLt (by omega)
    rw [hb, ha, h j hlt]
  · simp [heq]

theorem blind_sameButStaleSlots : Blind SameButStaleSlots := by
  constructor
  all_goals
    intro s s' h
    obtain ⟨k, rfl, hlive⟩ := sameButStaleSlots_exists h
  case mem | v | i | pc | fb | keys | cfg | draws => rfl
  case call =>
    intro nnn
    refine effectRel_call ?_ nnn ?_
    · rfl
    · exact fun hlt _ => ⟨rfl, live_set hlt _ hlive⟩
  case ret =>
    refine effectRel_ret ?_ ?_
    · rfl
    · intro hpos _
      have hslot : k[s.sp.val - 1] = s.stack[s.sp.val - 1] :=
        hlive ⟨s.sp.val - 1, by omega⟩ (Nat.sub_lt hpos Nat.one_pos)
      exact ⟨by simp only [hslot], fun j hj => hlive j (Nat.lt_of_lt_of_le hj (Nat.sub_le _ _))⟩
  case halted => exact fun _ _ => ⟨rfl, hlive⟩
  all_goals exact fun _ => ⟨rfl, hlive⟩

theorem sameButStaleSlots_effect {s s' : State} (h : SameButStaleSlots s s') (i : Instr) :
    EffectRel SameButStaleSlots (effect i s) (effect i s') := by
  refine blind_sameButStaleSlots.effect_all (fun h => by rw [h.1]) (fun h b => ?_) (fun h b => ?_) h i
  all_goals
    obtain ⟨k, rfl, hlive⟩ := sameButStaleSlots_exists h
    exact ⟨rfl, hlive⟩

theorem sameButStaleSlots_unrecognised {s s' t : State} (h : SameButStaleSlots s s') {w : Word}
    (ht : unrecognised w s = .next t) : ∃ t', unrecognised w s' = .next t' ∧ SameButStaleSlots t t' := by
  obtain ⟨k, rfl, hlive⟩ := sameButStaleSlots_exists h
  unfold unrecognised at ht ⊢
  cases hp : s.cfg.unknownOpcodePolicy with
  | strict => simp only [hp] at ht ⊢; cases ht; exact ⟨_, rfl, rfl, hlive⟩
  | permissive => simp only [hp] at ht ⊢; cases ht; exact ⟨_, rfl, rfl, hlive⟩

theorem sameButStaleSlots_haltedCycle {s s' t : State} (h : SameButStaleSlots s s') (ht : haltedCycle s = .next t) :
    ∃ t', haltedCycle s' = .next t' ∧ SameButStaleSlots t t' := by
  obtain ⟨k, rfl, hlive⟩ := sameButStaleSlots_exists h
  cases ht
  exact ⟨_, rfl, rfl, hlive⟩

theorem sameButStaleSlots_runCycle {s s' t : State} (h : SameButStaleSlots s s') (ht : runCycle s = .next t) :
    ∃ t', runCycle s' = .next t' ∧ SameButStaleSlots t t' := by
  have hfetch : fetch s' = fetch s :=
    fetch_congr (blind_sameButStaleSlots.mem h) (blind_sameButStaleSlots.cfg h) (blind_sameButStaleSlots.pc h)
  simp only [runCycle, runWord, hfetch] at ht ⊢
  split at ht
  · split at ht
    · obtain ⟨t', hexec, hrel, -⟩ := blind_sameButStaleSlots.exec h (sameButStaleSlots_effect h _) ht
      exact ⟨t', hexec, hrel⟩
    · exact sameButStaleSlots_unrecognised h ht
  · cases ht
    exact ⟨_, rfl, blind_sameButStaleSlots.halted h _ _⟩

theorem sameButStaleSlots_cycle {s s' t : State} (h : SameButStaleSlots s s') (ht : cycle s = .next t) :
    ∃ t', cycle s' = .next t' ∧ SameButStaleSlots t t' := by
  have hbooted : SameButStaleSlots s.booted s'.booted := by
    obtain ⟨k, rfl, hlive⟩ := sameButStaleSlots_exists h
    exact ⟨rfl, hlive⟩
  have hhalt : s'.halt = s.halt := by rw [h.1]
  rw [cycle] at ht ⊢
  rw [hhalt]
  split at ht
  · next hh => rw [if_pos hh]; exact sameButStaleSlots_haltedCycle hbooted ht
  · next hh => rw [if_neg hh]; exact sameButStaleSlots_runCycle hbooted ht

theorem sameButStaleSlots_loadRom {s s' t : State} (h : SameButStaleSlots s s') {bs : List Byte}
    (ht : loadRomEvent bs s = .next t) : ∃ t', loadRomEvent bs s' = .next t' ∧ SameButStaleSlots t t' := by
  obtain ⟨k, rfl, hlive⟩ := sameButStaleSlots_exists h
  obtain ⟨m, hm, hm'⟩ := pokeBytes_congr (s := s) (s' := { s with stack := k }) rfl rfl romBase bs
  simp only [loadRomEvent, hm, hm'] at ht ⊢
  split at ht
  · next hl =>
    rw [if_pos hl]
    split at ht
    · next hle => rw [if_pos hle]; cases ht; exact ⟨_, rfl, rfl, hlive⟩
    · next hle => rw [if_neg hle]; cases ht; exact ⟨_, rfl, rfl, hlive⟩
  · cases ht

/-- Every action keeps the relation; after a reset the two states are even equal. -/
theorem sameButStaleSlots_runEvent {s s' t : State} (h : SameButStaleSlots s s') {e : Event}
    (ht : runEvent e s = .next t) : ∃ t', runEvent e s' = .next t' ∧ SameButStaleSlots t t' := by
  cases e with
  | cycle => exact sameButStaleSlots_cycle h ht
  | loadRom bs => exact sameButStaleSlots_loadRom h ht
  | reset =>
    cases ht
    obtain ⟨k, rfl, -⟩ := sameButStaleSlots_exists h
    exact ⟨_, rfl, rfl, fun _ _ => rfl⟩
  | _ =>
    cases ht
    obtain ⟨k, rfl, hlive⟩ := sameButStaleSlots_exists h
    exact ⟨_, rfl, rfl, hlive⟩

/-- Settles O57: the two states take the same action from their lists, and every action keeps the relation. -/
theorem staleStackSlotsAreUnobservable : Obligations.StaleStackSlotsAreUnobservable := by
  intro s s' t h ht
  have htake : SameButStaleSlots s.takeEvent s'.takeEvent := by
    obtain ⟨k, rfl, hlive⟩ := sameButStaleSlots_exists h
    exact ⟨rfl, hlive⟩
  have hnext : s'.nextEvent = s.nextEvent := by rw [h.1]; rfl
  rw [step, hnext]
  exact sameButStaleSlots_runEvent htake ht

end Sys2Proof.Machine
end

section
/-! PROOFS. One step: the fetch and its failures, the halted core, the tick, reset, `load_rom` and `read_status`
(spec/10_state.md rules R26 to R34, spec/20_memory.md rule R46, spec/30_encoding.md rule R66, spec/60_exceptions.md
rules R150 to R156, R170, spec/70_reset_and_hazards.md rules R180, R183). -/

namespace Sys2Proof.Machine

open Sys2Proof.Safety

/-! ### A cycle, from the word that it fetches -/

/-- Taking the action off the list and ending the boot time do not touch what a fetch reads. -/
theorem fetch_takeEvent_booted (s : State) : fetch s.takeEvent.booted = fetch s := fetch_congr rfl rfl rfl

theorem step_of_fetch {s : State} {w : Word} (he : s.nextEvent = .cycle) (hh : s.halt = false)
    (hf : fetch s = .ok w) : step s = runWord w s.takeEvent.booted := by
  have hrun : s.takeEvent.halt = false := hh
  simp only [step_of_nextEvent he, runEvent, cycle, runCycle, hrun, fetch_takeEvent_booted, hf, Bool.false_eq_true,
    if_false]

theorem step_of_fetch_error {s : State} {e : Err} (he : s.nextEvent = .cycle) (hh : s.halt = false)
    (hf : fetch s = .error e) : step s = .next (s.takeEvent.booted.halted 0 e) := by
  have hrun : s.takeEvent.halt = false := hh
  simp only [step_of_nextEvent he, runEvent, cycle, runCycle, hrun, fetch_takeEvent_booted, hf, Bool.false_eq_true,
    if_false, raise]

/-- What `decodeBytes` says of two bytes, said of their word. -/
theorem decodeWord_of_decodeBytes_ok {hi lo : Byte} {i : Instr} (h : decodeBytes [hi, lo] = .ok (i, [])) :
    decodeWord (wordOfBytes hi lo) = some i := by
  simp only [decodeBytes] at h
  split at h
  · next hdec => cases h; exact hdec
  · cases h

theorem decodeWord_of_decodeBytes_unknown {hi lo : Byte} {w : Word}
    (h : decodeBytes [hi, lo] = .error (.unknownOpcode w)) : wordOfBytes hi lo = w ∧ decodeWord w = none := by
  simp only [decodeBytes] at h
  split at h
  · cases h
  · next hdec => cases h; exact ⟨rfl, hdec⟩

theorem runWord_of_some {w : Word} {i : Instr} (s : State) (h : decodeWord w = some i) : runWord w s = exec i s := by
  rw [runWord, h]

theorem runWord_of_none {w : Word} (s : State) (h : decodeWord w = none) : runWord w s = unrecognised w s := by
  rw [runWord, h]

/-- Settles O6: the fetch is answered with the word of the two bytes, which decodes to the instruction. -/
theorem stepRunsTheDecodedInstruction : Obligations.StepRunsTheDecodedInstruction := by
  intro s i he hh hin hdec
  rw [step_of_fetch he hh (fetch_inside hin), runWord_of_some _ (decodeWord_of_decodeBytes_ok hdec)]
  rfl

/-- Settles O7: the fetch cannot be answered, and its error is that of the first byte outside. -/
theorem fetchOutsideMemoryHalts : Obligations.FetchOutsideMemoryHalts := by
  intro s he hh hp hpc
  cases hf : fetch s with
  | ok w =>
    rcases fetch_ok hf with hw | hlt
    · rw [hp] at hw; cases hw
    · omega
  | error e =>
    obtain ⟨-, -, rfl⟩ := fetch_error hf
    exact ⟨_, step_of_fetch_error he hh hf, sameButStatus_halted .., rfl, rfl, rfl, rfl, rfl⟩

theorem unrecognised_of_strict (w : Word) {s : State} (h : s.cfg.unknownOpcodePolicy = .strict) :
    unrecognised w s = .next (s.halted w (.unknownOpcode w)) := by
  rw [unrecognised, h]; rfl

theorem unrecognised_of_permissive (w : Word) {s : State} (h : s.cfg.unknownOpcodePolicy = .permissive) :
    unrecognised w s = .next (s.advance.answer (.cycleDone ⟨false, w, 3, w⟩)) := by
  rw [unrecognised, h]; rfl

/-- Settles O8: the fetch is answered with a word that does not decode, and the policy says what follows. -/
theorem unrecognisedWordHaltsOrIsSkipped : Obligations.UnrecognisedWordHaltsOrIsSkipped := by
  intro s w he hh hin hdec
  obtain ⟨hw, hnone⟩ := decodeWord_of_decodeBytes_unknown hdec
  have hstep : step s = unrecognised w s.takeEvent.booted := by
    rw [step_of_fetch he hh (fetch_inside hin), hw, runWord_of_none _ hnone]
  rw [hstep]
  cases hp : s.cfg.unknownOpcodePolicy with
  | strict =>
    exact ⟨_, unrecognised_of_strict w (s := s.takeEvent.booted) hp, rfl,
      fun _ => ⟨sameButStatus_halted .., rfl, rfl, rfl, rfl⟩, fun h => by cases h⟩
  | permissive =>
    exact ⟨_, unrecognised_of_permissive w (s := s.takeEvent.booted) hp, rfl, fun h => (by cases h),
      fun _ => ⟨registerFrame_setPc_answer .., fun _ _ => rfl, rfl, rfl⟩⟩

theorem step_of_halted {s : State} (he : s.nextEvent = .cycle) (hh : s.halt = true) :
    step s = haltedCycle s.takeEvent.booted := by
  have hhalt : s.takeEvent.halt = true := hh
  rw [step_of_nextEvent he, runEvent, cycle, if_pos hhalt]

/-- Settles O9: a cycle of a halted core only returns a record. -/
theorem haltedCoreExecutesNothing : Obligations.HaltedCoreExecutesNothing := fun s he hh =>
  ⟨_, step_of_halted he hh, sameButStatus_answer s.takeEvent.booted _, sameStatus_answer s.takeEvent.booted _, rfl⟩

/-! ### The tick (R170) -/

/-- Settles O43: the tick counts down both timers and writes nothing else. -/
theorem tickDecrementsTheTimers : Obligations.TickDecrementsTheTimers := fun s he =>
  ⟨tickEvent s.takeEvent, step_of_nextEvent he, countDown_toNat s.dt, countDown_toNat s.st, fun _ _ => rfl, rfl, rfl,
    fun _ => rfl, ⟨rfl, rfl⟩, ⟨rfl, rfl⟩, ⟨rfl, rfl, rfl, rfl⟩, ⟨rfl, rfl, rfl, rfl⟩, rfl, rfl⟩

/-- Settles O44: by induction on the number of ticks. -/
theorem timersDecayToZeroAndStay : Obligations.TimersDecayToZeroAndStay := by
  intro s n
  induction n generalizing s with
  | zero => exact fun rest he => ⟨s, run_zero s, rfl, rfl, he, fun _ _ => rfl, rfl, rfl⟩
  | succ n ih =>
    intro rest he
    have hnext : s.nextEvent = .tick60 := by rw [State.nextEvent, he]; rfl
    obtain ⟨u, hstep, hdt, hst, hregs, hpc, -, -, -, -, ⟨hhalt, -, -, -⟩, ⟨-, -, hevents, -⟩, -, -⟩ :=
      tickDecrementsTheTimers s hnext
    have hrest : u.events = List.replicate n .tick60 ++ rest := by rw [hevents, he]; rfl
    obtain ⟨t, hrun, hdt', hst', hevents', hregs', hpc', hhalt'⟩ := ih u rest hrest
    exact ⟨t, (run_next n hstep).trans hrun, by omega, by omega, hevents',
      fun r hr => (hregs' r hr).trans (hregs r hr), hpc'.trans hpc, hhalt'.trans hhalt⟩

/-! ### Reset (R180) -/

theorem peek_of_nil {s : State} (h : s.mem = []) (a : Nat) : s.peek a = unlisted s.cfg a := by
  rw [State.peek, h]; rfl

theorem unlisted_font (cfg : Config) (k : Fin 80) : unlisted cfg (0x050 + k.val) = cfg.font[k] := by
  have hk := k.isLt
  rw [unlisted, dif_pos (by omega)]
  simp

theorem unlisted_zero (cfg : Config) {a : Nat} (h : a < 0x050 ∨ 0x0A0 ≤ a) : unlisted cfg a = 0 := by
  rw [unlisted, dif_neg (by omega)]

theorem isResetState_resetEvent (s : State) : IsResetState (resetEvent s) := by
  have hmem : ∀ a, (resetEvent s).peek a = unlisted s.cfg a := peek_of_nil (s := resetEvent s) rfl
  refine ⟨fun r => Vector.getElem_replicate r.isLt, rfl, rfl, rfl, fun k => Vector.getElem_replicate k.isLt, rfl, rfl,
    cell_blankScreen, rfl, fun k => Vector.getElem_replicate k.isLt, rfl, rfl, rfl, rfl, ?below, ?font, ?above⟩
  case below => exact fun a ha => (hmem a).trans (unlisted_zero _ (.inl ha))
  case font => exact fun k => (hmem _).trans (unlisted_font s.cfg k)
  case above => exact fun a ha _ => (hmem a).trans (unlisted_zero _ (.inr ha))

/-- Settles O46: `resetEvent` gives the reset state and keeps the parameters and the events. -/
theorem resetPutsEveryItemAtItsResetValue : Obligations.ResetPutsEveryItemAtItsResetValue := fun s he =>
  ⟨resetEvent s.takeEvent, step_of_nextEvent he, isResetState_resetEvent _, rfl, rfl, rfl⟩

/-- Settles O47: State.reset is its own reset; the ten bytes of the font are read off. -/
theorem machineStartsInTheResetState : Obligations.MachineStartsInTheResetState :=
  ⟨isResetState_resetEvent State.reset, rfl, rfl, rfl, rfl, by decide, by decide⟩

/-! ### `load_rom` (R28, R151, R183) and `read_status` (R34) -/

/-- Settles O48: the image is stored byte by byte inside memory, or nothing is, or the load is refused. -/
theorem loadRomCopiesTheImage : Obligations.LoadRomCopiesTheImage := by
  intro s bs he hm
  rw [step_of_nextEvent he, runEvent]
  rcases loadRomEvent_cases bs s.takeEvent with ⟨hl, hle, h⟩ | ⟨hl, hgt, h⟩ | ⟨hl, h⟩
  · have hfit : romBase + bs.length ≤ 4096 := by unfold romBase; unfold romMax at hle; omega
    have hstored := pokeBytes_stores bs s.takeEvent romBase hm hfit
    have hother : ∀ a, a < 0x200 ∨ 0x200 + bs.length ≤ a →
        (pokeBytes s.takeEvent romBase bs).peek a = s.peek a := fun a ha => pokeBytes_other bs s.takeEvent romBase ha
    rw [h]
    obtain ⟨m, hpoked, -⟩ := pokeBytes_frame bs s.takeEvent romBase
    rw [hpoked] at hstored hother ⊢
    exact ⟨fun _ => ⟨_, rfl, fun _ => ⟨hstored, hother, rfl⟩, fun hgt => absurd hgt (Nat.not_lt.2 hle),
      fun _ _ => rfl, rfl, rfl, ⟨rfl, rfl⟩, ⟨rfl, rfl⟩, ⟨rfl, rfl⟩, ⟨rfl, rfl, rfl, rfl⟩, rfl, rfl, rfl, rfl⟩,
      fun hf => absurd (hl.symm.trans hf) (by decide)⟩
  · rw [h]
    exact ⟨fun _ => ⟨_, rfl, fun hle => absurd hgt (Nat.not_lt.2 hle), fun _ => ⟨fun _ => rfl, rfl⟩, fun _ _ => rfl,
      rfl, rfl, ⟨rfl, rfl⟩, ⟨rfl, rfl⟩, ⟨rfl, rfl⟩, ⟨rfl, rfl, rfl, rfl⟩, rfl, rfl, rfl, rfl⟩,
      fun hf => absurd (hl.symm.trans hf) (by decide)⟩
  · exact ⟨fun hf => absurd (hl.symm.trans hf) (by decide), fun _ => h⟩

/-- Settles O51: the read only returns a value. -/
theorem statusReadReturnsTheRegisters : Obligations.StatusReadReturnsTheRegisters := fun s he =>
  ⟨readStatusEvent s.takeEvent, step_of_nextEvent he, rfl, sameButStatus_answer s.takeEvent _,
    sameStatus_answer s.takeEvent _⟩

end Sys2Proof.Machine
end

section
/-! PROOFS. What every step keeps, and what holds along a run: the canonical memory, the status registers, the halt, the
parameters, the key wait and the finished run (spec/10_state.md rules R21, R22, spec/20_memory.md rules R40, R44, R45,
spec/60_exceptions.md rules R156, R160, spec/70_reset_and_hazards.md rule R185). -/

namespace Sys2Proof.Machine

open Sys2Proof.Safety

/-! ### The canonical memory (R40, R44, R45) -/

theorem memoryCanonical_congr {s t : State} (hmem : t.mem = s.mem) (hcfg : t.cfg = s.cfg) (h : MemoryCanonical s) :
    MemoryCanonical t := by
  rw [MemoryCanonical, hmem, hcfg]; exact h

/-- The two instructions that store go through `memWriteBlock`; the others leave the memory alone. -/
theorem effect_keeps_memoryCanonical {i : Instr} {s u : State} (h : effect i s = .ok u) (hs : MemoryCanonical s) :
    MemoryCanonical u := by
  have hkept := itemsKept_of_writes (effect_writes h)
  cases i
  case ldB x =>
    rcases bcdEffect_cases x s with ⟨t, ht, -, hok⟩ | ⟨e, -, herr⟩
    · cases h.symm.trans hok
      exact (memWriteBlock_frame ht).2 hs
    · cases h.symm.trans herr
  case storeRegs x =>
    rcases storeRegsEffect_cases x s with ⟨t, ht, -, hok⟩ | ⟨e, -, herr⟩
    · cases h.symm.trans hok
      exact (memWriteBlock_frame ht).2 hs
    · cases h.symm.trans herr
  all_goals exact memoryCanonical_congr (hkept.mem (by simp) (by simp)) hkept.outside.2.1 hs

theorem exec_keeps_memoryCanonical {i : Instr} {s t : State} (h : exec i s = .next t) (hs : MemoryCanonical s) :
    MemoryCanonical t := by
  rcases exec_cases h with ⟨u, hu, rfl⟩ | ⟨e, -, rfl⟩
  · have hkept : MemoryCanonical u := effect_keeps_memoryCanonical hu hs
    exact hkept
  · exact hs

/-- What an unrecognised word can leave: the halt, or `PC` advanced. -/
theorem unrecognised_cases {w : Word} {s t : State} (h : unrecognised w s = .next t) :
    (s.cfg.unknownOpcodePolicy = .strict ∧ t = s.halted w (.unknownOpcode w)) ∨
      t = s.advance.answer (.cycleDone ⟨false, w, 3, w⟩) := by
  cases hp : s.cfg.unknownOpcodePolicy with
  | strict => rw [unrecognised_of_strict w hp] at h; cases h; exact .inl ⟨rfl, rfl⟩
  | permissive => rw [unrecognised_of_permissive w hp] at h; cases h; exact .inr rfl

theorem cycle_keeps_memoryCanonical {s t : State} (h : cycle s = .next t) (hs : MemoryCanonical s) :
    MemoryCanonical t := by
  rcases cycle_cases s with ⟨-, hc⟩ | ⟨-, ⟨e, -, hc⟩ | ⟨w, -, -, hc⟩ | ⟨w, i, -, -, hc⟩⟩
  · cases h.symm.trans hc; exact hs
  · cases h.symm.trans hc; exact hs
  · rcases unrecognised_cases (hc.symm.trans h) with ⟨-, rfl⟩ | rfl
    · exact hs
    · exact hs
  · exact exec_keeps_memoryCanonical (hc.symm.trans h) hs

/-- What a load that is not refused can leave: a memory that is canonical when it was, and one item more. -/
theorem loadRomEvent_next {bs : List Byte} {s t : State} (h : loadRomEvent bs s = .next t) :
    ∃ m r, t = { s with mem := m, loadable := false, reply := r } ∧
      (MemoryCanonical s → Memory.wf s.cfg m = true) := by
  rcases loadRomEvent_cases bs s with ⟨-, hle, hc⟩ | ⟨-, -, hc⟩ | ⟨-, hc⟩
  · obtain ⟨m, hm, hwf⟩ := pokeBytes_frame bs s romBase
    rw [hm] at hc
    cases h.symm.trans hc
    exact ⟨m, _, rfl, hwf (by unfold romBase; unfold romMax at hle; omega)⟩
  · cases h.symm.trans hc
    exact ⟨s.mem, _, rfl, id⟩
  · cases h.symm.trans hc

/-- What a step can do: a cycle of the core, a reset, or an action that leaves all but the memory, the keys, the timers
and `draw_flag` of R10's items as they were. -/
theorem step_cases {s t : State} (h : step s = .next t) :
    (s.nextEvent = .cycle ∧ cycle s.takeEvent = .next t) ∨
      (s.nextEvent = .reset ∧ t = resetEvent s.takeEvent) ∨
      ∃ m keys dt st f l r,
        t = { s.takeEvent with
          mem := m, keys := keys, dt := dt, st := st, drawFlag := f, loadable := l, reply := r } ∧
        (MemoryCanonical s → Memory.wf s.cfg m = true) := by
  cases he : s.nextEvent with
  | cycle => rw [step_of_nextEvent he] at h; exact .inl ⟨rfl, h⟩
  | reset => rw [step_of_nextEvent he] at h; cases h; exact .inr (.inl ⟨rfl, rfl⟩)
  | loadRom bs =>
    rw [step_of_nextEvent he] at h
    obtain ⟨m, r, rfl, hwf⟩ := loadRomEvent_next h
    exact .inr (.inr ⟨m, _, _, _, _, _, r, rfl, hwf⟩)
  | setKeys ks =>
    rw [step_setKeys he] at h
    generalize mergeKeys ks s.keys = keys at h
    cases h
    exact .inr (.inr ⟨s.mem, keys, _, _, _, _, _, rfl, id⟩)
  | _ => rw [step_of_nextEvent he] at h; cases h; exact .inr (.inr ⟨s.mem, _, _, _, _, _, _, rfl, id⟩)

/-- Settles O52: a cycle stores inside the image only, a load fits into it, and reset leaves nothing listed. -/
theorem memoryStaysCanonical : Obligations.MemoryStaysCanonical := by
  intro s t hs h
  rcases step_cases h with ⟨-, hc⟩ | ⟨-, rfl⟩ | ⟨m, _, _, _, _, _, _, rfl, hwf⟩
  · exact cycle_keeps_memoryCanonical (s := s.takeEvent) hc hs
  · rfl
  · exact hwf hs

/-! ### The status registers (R21, R156) -/

/-- The table of errors looks at the registers, `I`, `SP` and the parameters only. -/
theorem errorOf_congr {s t : State} (hv : t.v = s.v) (hi : t.i = s.i) (hsp : t.sp = s.sp) (hcfg : t.cfg = s.cfg)
    (i : Instr) : errorOf i t = errorOf i s := by
  have hread : ∀ r, t.readV r = s.readV r := fun r => by rw [State.readV, State.readV, hv]
  have hat : atI t = atI s := funext fun k => by rw [atI, atI, hi]
  have hout : ∀ n, firstOutside t n = firstOutside s n := fun n => by rw [firstOutside, firstOutside, hcfg, hat]
  cases i <;> simp only [errorOf, hread, hout, hsp]

/-- What `ShowsError` looks at. -/
theorem showsError_congr {s t : State} (hv : t.v = s.v) (hi : t.i = s.i) (hsp : t.sp = s.sp) (hcfg : t.cfg = s.cfg)
    (hpc : t.pc = s.pc) (hstatus : SameStatus s t) (h : ShowsError s) : ShowsError t := by
  obtain ⟨-, hcause, hopcode, herrpc⟩ := hstatus
  simp only [ShowsError, hcause, hopcode, herrpc, hpc, hcfg, errorOf_congr hv hi hsp hcfg]
  exact h

/-- The status registers stay consistent when nothing that they tell of is written. -/
theorem statusConsistent_of_same {s t : State} (hv : t.v = s.v) (hi : t.i = s.i) (hsp : t.sp = s.sp)
    (hcfg : t.cfg = s.cfg) (hpc : t.pc = s.pc) (hstatus : SameStatus s t) (h : StatusConsistent s) :
    StatusConsistent t := by
  obtain ⟨hhalt, hcause, hopcode, herrpc⟩ := id hstatus
  unfold StatusConsistent at h ⊢
  rw [hhalt, hcause, hopcode, herrpc]
  split
  · next hh => rw [if_pos hh] at h; exact showsError_congr hv hi hsp hcfg hpc hstatus h
  · next hh => rwa [if_neg hh] at h

/-- A core that goes on running keeps its clear registers. -/
theorem statusConsistent_of_running {s t : State} (hh : s.halt = false) (hstatus : SameStatus s t)
    (h : StatusConsistent s) : StatusConsistent t := by
  obtain ⟨hhalt, hcause, hopcode, herrpc⟩ := hstatus
  unfold StatusConsistent at h ⊢
  rw [hhalt, hcause, hopcode, herrpc, hh]
  rwa [hh] at h

theorem statusConsistent_halted {s : State} {w : Word} {e : Err} (h : ShowsError (s.halted w e)) :
    StatusConsistent (s.halted w e) := by
  rw [StatusConsistent, if_pos (State.halted_halt s w e)]; exact h

theorem exec_keeps_statusConsistent {i : Instr} {s t : State} (hwf : i.wellFormed = true) (hh : s.halt = false)
    (h : exec i s = .next t) (hs : StatusConsistent s) : StatusConsistent t := by
  rcases followsErrorTable i s with ⟨u, hu, -⟩ | ⟨e, he, hsome⟩
  · have hstatus : SameStatus s u := effect_sameStatus hu
    rw [eq_answer_of_effect hu h]
    exact statusConsistent_of_running hh hstatus hs
  · rw [exec_of_errorOf_some hsome] at h
    cases h
    have hdec : decodeWord (encode i) = some i := decodeOfEncodeIsTheInstruction i hwf
    exact statusConsistent_halted
      ⟨rfl, .inr (.inr ⟨i, e, hdec, (errorOf_congr rfl rfl rfl rfl i).trans hsome, rfl⟩)⟩

theorem cycle_keeps_statusConsistent {s t : State} (h : cycle s = .next t) (hs : StatusConsistent s) :
    StatusConsistent t := by
  have hbooted : StatusConsistent s.booted := hs
  rcases cycle_cases s with ⟨-, hc⟩ | ⟨hh, ⟨e, hf, hc⟩ | ⟨w, -, hdec, hc⟩ | ⟨w, i, -, hdec, hc⟩⟩
  · cases h.symm.trans hc
    exact statusConsistent_of_same (s := s) rfl rfl rfl rfl rfl ⟨rfl, rfl, rfl, rfl⟩ hs
  · cases h.symm.trans hc
    obtain ⟨hp, hpc, rfl⟩ := fetch_error hf
    exact statusConsistent_halted ⟨rfl, .inl ⟨rfl, rfl, hp, hpc⟩⟩
  · rcases unrecognised_cases (hc.symm.trans h) with ⟨hp, rfl⟩ | rfl
    · exact statusConsistent_halted ⟨rfl, .inr (.inl ⟨rfl, hp, hdec⟩)⟩
    · exact statusConsistent_of_running (s := s) hh ⟨rfl, rfl, rfl, rfl⟩ hs
  · obtain ⟨-, hwf⟩ := encodeOfDecodeIsTheWord w i hdec
    exact exec_keeps_statusConsistent (s := s.booted) hwf hh (hc.symm.trans h) hbooted

/-- Settles O53: a cycle halts with an error that the state gives rise to, and no other action but reset writes a status
register or an item that they tell of. -/
theorem statusStaysConsistent : Obligations.StatusStaysConsistent := by
  intro s t hs h
  rcases step_cases h with ⟨-, hc⟩ | ⟨-, rfl⟩ | ⟨m, _, _, _, _, _, _, rfl, -⟩
  · exact cycle_keeps_statusConsistent (s := s.takeEvent) hc hs
  · exact ⟨rfl, rfl, rfl⟩
  · exact statusConsistent_of_same (s := s) rfl rfl rfl rfl rfl ⟨rfl, rfl, rfl, rfl⟩ hs

/-- Settles O54: nothing is listed, and the registers are clear. -/
theorem resetStateMeetsTheInvariants : Obligations.ResetStateMeetsTheInvariants := ⟨rfl, rfl, rfl, rfl⟩

/-! ### The halted state (R160) -/

/-- What no action but reset changes in a halted core: the status registers, `PC`, the registers, `I`, the stack and the
screen. -/
def HaltKept (s t : State) : Prop :=
  SameStatus s t ∧ t.pc = s.pc ∧ t.v = s.v ∧ t.i = s.i ∧ SameStack s t ∧ t.fb = s.fb

theorem HaltKept.refl (s : State) : HaltKept s s := ⟨⟨rfl, rfl, rfl, rfl⟩, rfl, rfl, rfl, ⟨rfl, rfl⟩, rfl⟩

theorem HaltKept.trans {s t u : State} (h : HaltKept s t) (h' : HaltKept t u) : HaltKept s u := by
  unfold HaltKept SameStatus SameStack at h h' ⊢
  simp only [h', h, and_self]

theorem nextEvent_eq_reset {s : State} (h : s.nextEvent = .reset) : .reset ∈ s.events := by
  unfold State.nextEvent at h
  split at h
  · cases h
  · next e rest hev => rw [hev, h]; exact List.mem_cons_self

theorem step_of_halted_keeps {s t : State} (hh : s.halt = true) (hr : .reset ∉ s.events) (h : step s = .next t) :
    HaltKept s t ∧ t.events = s.events.tail := by
  rcases step_cases h with ⟨he, -⟩ | ⟨he, -⟩ | ⟨m, _, _, _, _, _, _, rfl, -⟩
  · rw [step_of_halted he hh] at h
    cases h
    exact ⟨⟨⟨rfl, rfl, rfl, rfl⟩, rfl, rfl, rfl, ⟨rfl, rfl⟩, rfl⟩, rfl⟩
  · exact absurd (nextEvent_eq_reset he) hr
  · exact ⟨⟨⟨rfl, rfl, rfl, rfl⟩, rfl, rfl, rfl, ⟨rfl, rfl⟩, rfl⟩, rfl⟩

theorem run_of_halted_keeps (n : Nat) {s t : State} (hh : s.halt = true) (hr : .reset ∉ s.events)
    (h : Host.Core.run Sys2Proof.core n s = .next t) : HaltKept s t := by
  induction n generalizing s with
  | zero => rw [run_zero] at h; cases h; exact HaltKept.refl _
  | succ n ih =>
    obtain ⟨u, hu, hrun⟩ := run_cases n h
    obtain ⟨hkept, hevents⟩ := step_of_halted_keeps hh hr hu
    have hr' : .reset ∉ u.events := fun hmem => hr (List.mem_of_mem_tail (hevents ▸ hmem))
    obtain ⟨hhalt, -⟩ := hkept.1
    exact hkept.trans (ih (hhalt.trans hh) hr' hrun)

/-- Settles O55: by induction on the run, with one step's frame. -/
theorem onlyResetLeavesTheHaltedState : Obligations.OnlyResetLeavesTheHaltedState := by
  intro n s t hh hr h
  have hkept := run_of_halted_keeps n hh hr h
  obtain ⟨hhalt, -⟩ := hkept.1
  exact ⟨hhalt.trans hh, hkept⟩

/-! ### The parameters and the draws (R22) -/

/-- The parameters are the same and no draw was taken back. -/
def ConfigKept (s t : State) : Prop := t.cfg = s.cfg ∧ s.draws ≤ t.draws

theorem exec_configKept {i : Instr} {s t : State} (h : exec i s = .next t) : ConfigKept s t := by
  have hkept := exec_itemsKept h
  refine ⟨hkept.outside.2.1, ?_⟩
  cases i
  case rnd x kk => rw [eq_answer_of_effect (i := .rnd x kk) rfl h]; exact Nat.le_succ _
  all_goals exact Nat.le_of_eq (hkept.draws (by simp)).symm

theorem cycle_configKept {s t : State} (h : cycle s = .next t) : ConfigKept s t := by
  rcases cycle_cases s with ⟨-, hc⟩ | ⟨-, ⟨e, -, hc⟩ | ⟨w, -, -, hc⟩ | ⟨w, i, -, -, hc⟩⟩
  · cases h.symm.trans hc; exact ⟨rfl, Nat.le_refl _⟩
  · cases h.symm.trans hc; exact ⟨rfl, Nat.le_refl _⟩
  · rcases unrecognised_cases (hc.symm.trans h) with ⟨-, rfl⟩ | rfl
    · exact ⟨rfl, Nat.le_refl _⟩
    · exact ⟨rfl, Nat.le_refl _⟩
  · exact exec_configKept (s := s.booted) (hc.symm.trans h)

theorem step_configKept {s t : State} (h : step s = .next t) : ConfigKept s t := by
  rcases step_cases h with ⟨-, hc⟩ | ⟨-, rfl⟩ | ⟨m, _, _, _, _, _, _, rfl, -⟩
  · exact cycle_configKept (s := s.takeEvent) hc
  · exact ⟨rfl, Nat.le_refl _⟩
  · exact ⟨rfl, Nat.le_refl _⟩

/-- Settles O56: `run_keeps` with one step's lemma. -/
theorem parametersNeverChange : Obligations.ParametersNeverChange :=
  run_keeps (R := ConfigKept) (fun _ => ⟨rfl, Nat.le_refl _⟩)
    (fun _ _ _ h h' => ⟨h'.1.trans h.1, h.2.trans h'.2⟩) fun _ _ => step_configKept

/-! ### A core that stands still: the key wait and the finished run (R141, R185) -/

theorem takeEvent_of_nil {s : State} (h : s.events = []) : s.takeEvent = s := by
  rw [State.takeEvent, h]
  exact congrArg (fun l => { s with events := l }) h.symm

/-- The record of a cycle that completes `i`. -/
def completed (i : Instr) : Reply := .cycleDone ⟨changesScreen i, encode i, 0, 0⟩

theorem step_of_idle {i : Instr} {s : State} (hwf : i.wellFormed = true) (hh : s.halt = false) (he : s.events = [])
    (hf : fetch s = .ok (encode i)) (hidle : effect i s.booted = .ok s.booted) :
    step s = .next (s.booted.answer (completed i)) := by
  have hnext : s.nextEvent = .cycle := by rw [State.nextEvent, he]
  rw [step_of_fetch hnext hh hf, takeEvent_of_nil he, runWord_of_some _ (decodeOfEncodeIsTheInstruction i hwf)]
  exact exec_of_effect_ok hidle

/-- An instruction that leaves the state as it is, whatever was returned last, leaves it so in every later cycle. -/
theorem run_of_idle {i : Instr} {s : State} (hwf : i.wellFormed = true) (hh : s.halt = false) (he : s.events = [])
    (hf : fetch s = .ok (encode i)) (hidle : ∀ r, effect i (s.booted.answer r) = .ok (s.booted.answer r)) (n : Nat) :
    Host.Core.run Sys2Proof.core (n + 1) s = .next (s.booted.answer (completed i)) := by
  induction n generalizing s with
  | zero => rw [run_next 0 (step_of_idle hwf hh he hf (hidle s.reply)), run_zero]
  | succ n ih =>
    rw [run_next (n + 1) (step_of_idle hwf hh he hf (hidle s.reply))]
    have hf' : fetch (s.booted.answer (completed i)) = .ok (encode i) := (fetch_congr rfl rfl rfl).trans hf
    exact ih (s := s.booted.answer (completed i)) hh he hf' hidle

/-- Settles O42: with no key pressed the wait leaves the state as it is. -/
theorem keyWaitChangesNothingUntilAKey : Obligations.KeyWaitChangesNothingUntilAKey := by
  intro x s n hh he hkeys hf
  have hidle : ∀ r, effect (.ldVxK x) (s.booted.answer r) = .ok (s.booted.answer r) :=
    fun r => ldVxK_effect_of_none (s := s.booted.answer r) x hkeys
  exact ⟨_, run_of_idle rfl hh he hf hidle n, sameButStatus_answer s.booted _, sameStatus_answer s.booted _, rfl⟩

/-- Settles O59: a jump to its own address leaves the state as it is. -/
theorem finishedRunStaysFinished : Obligations.FinishedRunStaysFinished := by
  intro s n hfin he
  cases n with
  | zero => exact ⟨s, run_zero s, hfin, sameButStatus_answer s s.reply, sameStatus_answer s s.reply⟩
  | succ n =>
    obtain ⟨hh, nnn, hf, hpc⟩ := hfin
    have hidle : ∀ r, effect (.jp nnn) (s.booted.answer r) = .ok (s.booted.answer r) :=
      fun r => by rw [effect, hpc]; rfl
    exact ⟨_, run_of_idle rfl hh he hf hidle n, ⟨hh, nnn, (fetch_congr rfl rfl rfl).trans hf, hpc⟩,
      sameButStatus_answer s.booted _, sameStatus_answer s.booted _⟩

end Sys2Proof.Machine
end
